-- ==== Sys2Proof/Word.lean ====
section
/-! DEFINITION. The data types the block computes on: register words, bytes, and bit-strings
(00_scope.md R9, R14, R15). -/

namespace Sys2Proof

/-- A register and the host data bus are 32 bits wide (00_scope.md R7). -/
abbrev Word := BitVec 32

/-- One byte of a buffer (10_state.md R38). -/
abbrev Byte := BitVec 8

/-- A bit-string (00_scope.md R9): index 0 is the first, leftmost bit; `true` is the bit 1. -/
abbrev BitString := List Bool

end Sys2Proof
end

