-- ==== Sys2Proof/Config.lean ====
section
/-! DEFINITION. What is fixed for one block: the parameter values of 00_scope.md R7, the window map
(20_memory.md R43), the identification constants (10_state.md R22), and, as constants without a body, what
the spec leaves open (`BASE`, `LAT`, the free values of R146 and R149). -/

namespace Sys2Proof.Config

/-- `MAXLEN`: the longest bit-string operand (R7). -/
abbrev maxLen : Nat := 512

/-- `MAXBLK`: the number of operand descriptors (R7). -/
abbrev maxBlk : Nat := 64

/-- `IBUF_SIZE` (R7). -/
abbrev ibufSize : Nat := 4096

/-- `OBUF_SIZE` (R7). -/
abbrev obufSize : Nat := 1024

/-- `TSTR_SIZE` (R7). -/
abbrev tstrSize : Nat := 1024

/-- `TPOS_MAX` (R7). -/
abbrev tposMax : Nat := 512

/-- `TMAX` (R7). -/
abbrev tmax : Nat := 1024

/-- Window offset of `IBUF[0]` (R43). -/
abbrev ibufBase : Nat := 0x2000

/-- Window offset of `OBUF_A[0]` (R43); `OBUF_B` and `OBUF_C` follow at once. -/
abbrev obufABase : Nat := 0x3000

/-- Window offset of `OBUF_B[0]` (R43). -/
abbrev obufBBase : Nat := 0x3400

/-- Window offset of `OBUF_C[0]` (R43). -/
abbrev obufCBase : Nat := 0x3800

/-- The first offset past the result buffers (R43). -/
abbrev obufEnd : Nat := 0x3C00

/-- Window offset of the trace position entries (R43). -/
abbrev trPosBase : Nat := 0x0400

/-- Window offsets of the trace strings (R43). -/
abbrev trS0Base : Nat := 0x0800
abbrev trS1Base : Nat := 0x0C00
abbrev trS2Base : Nat := 0x1000

/-- What `ID` reads (10_state.md R22), "EDC1". -/
def idValue : Word := 0x45444331#32

/-- What `VERSION` reads (10_state.md R22). -/
def versionValue : Word := 0x00000001#32

/-- `BASE` in units of 64 KiB: OPEN (R7, 92_eei_decisions.md D6), so it has no body. -/
opaque basePage : Nat

/-- `BASE`, the bus address of the window: any multiple of 64 KiB (R7). -/
def base : Nat := 0x10000 * basePage

/-- `LAT`: OPEN (R7, D14), a finite natural number without a body. -/
opaque lat : Nat

/-- The model's free choice of a command's `k` (R149), before it is cut to `0..LAT`. Free value, log 3. -/
opaque latencyDraw : Nat → Nat

/-- What the `d`-th draw gives a host read of result state while the core is busy (R146). Free value, log 4. -/
opaque resultDraw : Nat → Word

/-- The number `k` of host steps between acceptance and completion: some number from 0 to `LAT`
(60_exceptions.md R121, 70_reset_and_hazards.md R149). -/
def latency (d : Nat) : Nat := latencyDraw d % (lat + 1)

end Sys2Proof.Config
end

