-- ==== Sys2Proof/Syntax.lean ====
section
/-! DEFINITION. The commands: one constructor per row of spec/opcode_table.json (30_encoding.md R62), with the
fields of the command word (R58) that are not fixed for the row. -/

namespace Sys2Proof

/-- A command. `even` is the parity policy (R59: 1 is even), `nopd` the LRC block count (R60). -/
inductive Instr where
  | vrcEnc (even : Bool)
  | vrcVer (even : Bool)
  | lrcEnc (even : Bool) (nopd : Nat)
  | lrcVer (even : Bool) (nopd : Nat)
  | crcEnc
  | crcVer
  | csumEnc
  | csumVer
  | hamEnc
  | hamVer
  deriving DecidableEq, Repr

/-- The five codec units (00_scope.md R1). -/
inductive CodecUnit where
  | vrc | lrc | crc | csum | ham
  deriving DecidableEq, Repr

/-- Why a command word is illegal (30_encoding.md R61). -/
inductive IllegalCause where
  | reservedBits | badUnit | badNopd
  deriving DecidableEq, Repr

/-- The ten mnemonics of the command assembler (R68). -/
inductive Mnemonic where
  | vrcEnc | vrcVer | lrcEnc | lrcVer | crcEnc | crcVer | csumEnc | csumVer | hamEnc | hamVer
  deriving DecidableEq, Repr

/-- One line of the command assembler (R68): the mnemonic, the parity keyword if one stands there
(`some true` is `even`), the block count if one stands there. -/
structure AsmLine where
  mnemonic : Mnemonic
  parity   : Option Bool
  count    : Option Nat
  deriving DecidableEq, Repr

end Sys2Proof
end

