-- ==== Sys2Proof/WellFormed.lean ====
section
/-! DEFINITION. Which terms of `Instr` are commands of the block: the LRC block count is 0 to `MAXBLK`
(30_encoding.md R58, R62); the other rows have no field that can go wrong. -/

namespace Sys2Proof

/-- The command's fields have values its row of the opcode map admits (R62). -/
def WellFormed : Instr → Bool
  | .vrcEnc _ => true
  | .vrcVer _ => true
  | .lrcEnc _ nopd => decide (nopd ≤ Config.maxBlk)
  | .lrcVer _ nopd => decide (nopd ≤ Config.maxBlk)
  | .crcEnc => true
  | .crcVer => true
  | .csumEnc => true
  | .csumVer => true
  | .hamEnc => true
  | .hamVer => true

end Sys2Proof
end

