-- ==== Sys2Proof/Decode.lean ====
section
/-! DEFINITION. The command word (30_encoding.md R58): its fields, the decoder (R61, the checks in the rule's
order), the opcode map as a table (R62), the encoder, and the command assembler (R68). The decoder is total:
a word outside the map is rejected with the cause R61 gives it. -/

namespace Sys2Proof

/-- `UNIT`, bits 2:0 (R58). -/
def unitField (w : Word) : BitVec 3 := w.extractLsb' 0 3

/-- `DIR`, bit 3: 0 encode, 1 verify (R58). -/
def dirField (w : Word) : Bool := w.getLsbD 3

/-- `EVEN`, bit 4 (R58). -/
def evenField (w : Word) : Bool := w.getLsbD 4

/-- The reserved bits 7:5 (R58). -/
def reservedLow (w : Word) : BitVec 3 := w.extractLsb' 5 3

/-- `NOPD`, bits 14:8 (R58). -/
def nopdField (w : Word) : BitVec 7 := w.extractLsb' 8 7

/-- The reserved bits 31:15 (R58). -/
def reservedHigh (w : Word) : BitVec 17 := w.extractLsb' 15 17

/-- The unit code (00_scope.md R1, 30_encoding.md R58). -/
def CodecUnit.code : CodecUnit → Nat
  | .vrc => 1
  | .lrc => 2
  | .crc => 3
  | .csum => 4
  | .ham => 5

/-- The unit a `UNIT` field selects; 0, 6 and 7 are reserved (R58). -/
def unitOfCode (u : Nat) : Option CodecUnit :=
  if u = 1 then some .vrc
  else if u = 2 then some .lrc
  else if u = 3 then some .crc
  else if u = 4 then some .csum
  else if u = 5 then some .ham
  else none

/-- CRC, CSUM and HAM take no parity policy, so `EVEN` is reserved there (R58, D39). -/
def CodecUnit.evenReserved : CodecUnit → Bool
  | .vrc => false
  | .lrc => false
  | .crc => true
  | .csum => true
  | .ham => true

/-- The block counts a unit admits: 0 to `MAXBLK` for LRC, exactly 1 for the others (R58, R60). -/
def CodecUnit.nopdOk : CodecUnit → Nat → Bool
  | .lrc, n => decide (n ≤ Config.maxBlk)
  | .vrc, n => n == 1
  | .crc, n => n == 1
  | .csum, n => n == 1
  | .ham, n => n == 1

/-- The command of a unit and a direction (R58, R62). -/
def selectInstr (u : CodecUnit) (verify even : Bool) (nopd : Nat) : Instr :=
  match u, verify with
  | .vrc, false => .vrcEnc even
  | .vrc, true => .vrcVer even
  | .lrc, false => .lrcEnc even nopd
  | .lrc, true => .lrcVer even nopd
  | .crc, false => .crcEnc
  | .crc, true => .crcVer
  | .csum, false => .csumEnc
  | .csum, true => .csumVer
  | .ham, false => .hamEnc
  | .ham, true => .hamVer

/-- The legality checks of R61, in its order, and the command a legal word selects. -/
def decode (w : Word) : Except IllegalCause Instr :=
  if reservedHigh w ≠ 0 ∨ reservedLow w ≠ 0 then .error .reservedBits
  else
    match unitOfCode (unitField w).toNat with
    | none => .error .badUnit
    | some u =>
      if u.evenReserved = true ∧ evenField w = true then .error .reservedBits
      else if u.nopdOk (nopdField w).toNat = true then
        .ok (selectInstr u (dirField w) (evenField w) (nopdField w).toNat)
      else .error .badNopd

/-- The word with these fields, reserved bits 0 (R58). -/
def encodeFields (u : CodecUnit) (verify even : Bool) (nopd : Nat) : Word :=
  BitVec.ofNat 32 (u.code + 8 * verify.toNat + 16 * even.toNat + 256 * nopd)

/-- The command word of a command (R58, R62): `NOPD = 1` outside LRC. -/
def encode : Instr → Word
  | .vrcEnc even => encodeFields .vrc false even 1
  | .vrcVer even => encodeFields .vrc true even 1
  | .lrcEnc even nopd => encodeFields .lrc false even nopd
  | .lrcVer even nopd => encodeFields .lrc true even nopd
  | .crcEnc => encodeFields .crc false false 1
  | .crcVer => encodeFields .crc true false 1
  | .csumEnc => encodeFields .csum false false 1
  | .csumVer => encodeFields .csum true false 1
  | .hamEnc => encodeFields .ham false false 1
  | .hamVer => encodeFields .ham true false 1

/-- One row of the opcode map (R62): a word belongs to the row when `word & mask = bits`. -/
structure OpcodeRow where
  mnemonic : Mnemonic
  bits     : Word
  mask     : Word
  deriving DecidableEq, Repr

/-- The opcode map (R62), row by row. -/
def opcodeMap : List OpcodeRow :=
  [ ⟨.vrcEnc, 0x00000101#32, 0xFFFFFFEF#32⟩,
    ⟨.vrcVer, 0x00000109#32, 0xFFFFFFEF#32⟩,
    ⟨.lrcEnc, 0x00000002#32, 0xFFFF80EF#32⟩,
    ⟨.lrcVer, 0x0000000A#32, 0xFFFF80EF#32⟩,
    ⟨.crcEnc, 0x00000103#32, 0xFFFFFFFF#32⟩,
    ⟨.crcVer, 0x0000010B#32, 0xFFFFFFFF#32⟩,
    ⟨.csumEnc, 0x00000104#32, 0xFFFFFFFF#32⟩,
    ⟨.csumVer, 0x0000010C#32, 0xFFFFFFFF#32⟩,
    ⟨.hamEnc, 0x00000105#32, 0xFFFFFFFF#32⟩,
    ⟨.hamVer, 0x0000010D#32, 0xFFFFFFFF#32⟩ ]

/-- The word matches the row (R62). -/
def OpcodeRow.matchesWord (r : OpcodeRow) (w : Word) : Bool := w &&& r.mask == r.bits

/-- The mnemonic of a command, as spec/opcode_table.json names its row. -/
def Instr.mnemonic : Instr → Mnemonic
  | .vrcEnc _ => .vrcEnc
  | .vrcVer _ => .vrcVer
  | .lrcEnc _ _ => .lrcEnc
  | .lrcVer _ _ => .lrcVer
  | .crcEnc => .crcEnc
  | .crcVer => .crcVer
  | .csumEnc => .csumEnc
  | .csumVer => .csumVer
  | .hamEnc => .hamEnc
  | .hamVer => .hamVer

/-- The command an assembler line names, if the assembler of R68 accepts the line: a parity keyword exactly on
VRC and LRC, a block count from 0 to `MAXBLK` exactly on LRC. -/
def AsmLine.instr (l : AsmLine) : Option Instr :=
  match l.mnemonic, l.parity, l.count with
  | .vrcEnc, some even, none => some (.vrcEnc even)
  | .vrcVer, some even, none => some (.vrcVer even)
  | .lrcEnc, some even, some n => if n ≤ Config.maxBlk then some (.lrcEnc even n) else none
  | .lrcVer, some even, some n => if n ≤ Config.maxBlk then some (.lrcVer even n) else none
  | .crcEnc, none, none => some .crcEnc
  | .crcVer, none, none => some .crcVer
  | .csumEnc, none, none => some .csumEnc
  | .csumVer, none, none => some .csumVer
  | .hamEnc, none, none => some .hamEnc
  | .hamVer, none, none => some .hamVer
  | _, _, _ => none

/-- The word the assembler makes of a line, or its refusal (R68). -/
def assemble (l : AsmLine) : Option Word := l.instr.map encode

/-- The command this decoder reads from a word given as the opcode table numbers its bits. Commands are not
fetched from memory (10_state.md R18): the word is the one the host writes to `CMD`, so there is no byte
layout to undo. Every bit above `nbits` is 0 (log 15). -/
def decodeTableWord (nbits w : Nat) : Option Instr :=
  match decode (BitVec.ofNat 32 (w % 2 ^ nbits)) with
  | .ok i => some i
  | .error _ => none

end Sys2Proof
end

