-- ==== Sys2Proof/Machine/State.lean ====
section
/-! DEFINITION. The machine's state as plain data (10_state.md), the reasons a step can stop
(60_exceptions.md R129), and the state after reset (R41). -/

namespace Sys2Proof.Machine

/-- The width of a host access (20_memory.md R44): 1, 2 or 4 bytes. -/
inductive Width where
  | w1 | w2 | w4
  deriving DecidableEq, Repr

/-- The direction of a host access (R44). -/
inductive AccessKind where
  | read | write
  deriving DecidableEq, Repr

/-- Why the machine stops. The spec's three model faults (60_exceptions.md R129), and the fault that
93_implementation_defined.md item 1 asks for. -/
inductive Fault where
  /-- R128: bad width or alignment, a reserved offset, a write to a read-only place. Raised by a host access.
  Safe: the block itself changes no state and goes on; what the platform does is outside the spec. -/
  | busError (off : BitVec 16) (n : Width) (kind : AccessKind)
  /-- R145: the host writes operand state while a command is in flight. Raised by a host access.
  Safe: the spec says a proof must not rely on what follows. -/
  | hazard
  /-- R144: a host read of an unwritten `IBUF` byte, or a completion whose operand covers one.
  Safe: the spec says the content is unspecified and that the model faults. -/
  | uninit
  /-- R12: `xorbits` on unequal lengths. No command reaches it (R76). Safe. -/
  | xorUnequal
  deriving DecidableEq, Repr

/-- Why an instruction has no meaning. -/
inductive Refusal where
  /-- The named instruction is not modelled yet. No arm of `exec` answers so. Safe. -/
  | notModelled (mnemonic : String)
  deriving DecidableEq, Repr

/-- What the outside does to the block, one event per step: a host access (R44) or a reset (R141, R142). -/
inductive HostEvent where
  | read (off : BitVec 16) (n : Width)
  | write (off : BitVec 16) (n : Width) (value : Word)
  | assertReset
  deriving DecidableEq, Repr

/-- The four kinds of trace record (10_state.md R35). -/
inductive TraceKind where
  | crcStep | csumAdd | csumWrap | hamParity
  deriving DecidableEq, Repr

/-- A trace record (R35). -/
structure TraceRecord where
  kind : TraceKind
  n0   : Word
  n1   : Word
  n2   : Word
  s0   : BitString
  s1   : BitString
  s2   : BitString
  pos  : List (BitVec 16)
  deriving DecidableEq, Repr

/-- The fields of `STATUS` (R24). The reserved bits 7:4 read 0 and are no state. -/
structure Status where
  busy     : Bool
  done     : Bool
  err      : Bool
  ovr      : Bool
  errKind  : BitVec 4
  errField : BitVec 4
  errIdx   : BitVec 8
  errCause : BitVec 8
  deriving DecidableEq, Repr

/-- The fields of `RFLAGS` (R31). The reserved bits 31:2 read 0 and are no state. -/
structure RFlags where
  valid  : Bool
  parity : Bool
  deriving DecidableEq, Repr

/-- The buffers' bytes by window offset, in the canonical form of `Memory.wf`: offsets strictly rising, no entry
equal to what an unlisted offset reads as. -/
abbrev Memory := List Host.Cell

/-- The whole machine. Registers first (10_state.md R21), then the trace and the buffers, then the model's own
fields: the environment (`pending`, `response`) and the free choices (`countdown`, `draws`). -/
structure State where
  /-- The last accepted command word (R23); the in-flight command's word while `BUSY = 1` (R39). -/
  cmd       : Word
  status    : Status
  /-- Descriptor of the second operand (R26). -/
  aux       : Word
  /-- `BLKSZ[15:0]` (R27). -/
  blksz     : BitVec 16
  /-- `TIDX[15:0]` (R28). -/
  tidx      : BitVec 16
  tcount    : Word
  rlenA     : Word
  rlenB     : Word
  rlenC     : Word
  rflags    : RFlags
  hamR      : Word
  hamN      : Word
  hamSyn    : Word
  hamStat   : Word
  ppos      : Vector Word 16
  /-- The operand descriptors (R34). -/
  opd       : Vector Word 64
  /-- The trace records of the last successful command (R35). -/
  trace     : List TraceRecord
  /-- `IBUF` and the three `OBUF` regions (R38). -/
  mem       : Memory
  /-- Model's own: host steps still to come before the in-flight command completes (R121, R149). -/
  countdown : Nat
  /-- Model's own: what the outside will still do, oldest first (R16, R142). -/
  pending   : List HostEvent
  /-- Model's own: the value the last host read returned (R44). -/
  response  : Option Word
  /-- Model's own: how many free values have been drawn (R146, R149). -/
  draws     : Nat
  deriving DecidableEq, Repr

/-- `STATUS` after reset: every field 0 (R24, R41). -/
def Status.reset : Status :=
  { busy := false, done := false, err := false, ovr := false
    errKind := 0#4, errField := 0#4, errIdx := 0#8, errCause := 0#8 }

/-- The state after reset (R41): every register 0, `TRACE` empty, `OBUF` all `0x00`, `IBUF` unwritten, no
command in flight. The model's own fields are empty or 0 (DESIGN CHOICE, logs 2 to 5). -/
def State.reset : State :=
  { cmd := 0#32, status := Status.reset, aux := 0#32, blksz := 0#16, tidx := 0#16, tcount := 0#32
    rlenA := 0#32, rlenB := 0#32, rlenC := 0#32
    rflags := { valid := false, parity := false }
    hamR := 0#32, hamN := 0#32, hamSyn := 0#32, hamStat := 0#32
    ppos := Vector.replicate 16 0#32, opd := Vector.replicate 64 0#32
    trace := [], mem := []
    countdown := 0, pending := [], response := none, draws := 0 }

end Sys2Proof.Machine
end

