-- ==== Sys2Proof/Machine/BitStrings.lean ====
section
/-! DEFINITION. The shared bit-string primitives (00_scope.md R9 to R13, 40_bitstring.md R75). -/

namespace Sys2Proof.Machine

/-- `onesCount(s)`: the number of 1 bits (R11). -/
def onesCount : BitString → Nat
  | [] => 0
  | b :: s => b.toNat + onesCount s

/-- `xorbits(a, b)`: defined only on equal lengths (R12); `none` is the case the spec leaves undefined. -/
def xorbits : BitString → BitString → Option BitString
  | [], [] => some []
  | a :: s, b :: t =>
    match xorbits s t with
    | some r => some ((a ^^ b) :: r)
    | none => none
  | [], _ :: _ => none
  | _ :: _, [] => none

/-- `~s`: bitwise complement (R9). -/
def complement (s : BitString) : BitString := s.map (fun b => !b)

/-- `0^n` (R9). -/
def zeros (n : Nat) : BitString := List.replicate n false

/-- `val(s)`, most significant bit first (R10). -/
def bitsVal (s : BitString) : Nat := s.foldl (fun acc b => 2 * acc + b.toNat) 0

/-- `bin_k(v)`: the `k`-bit string of value `v` (R10). -/
def binOf (k v : Nat) : BitString := (List.range k).map (fun i => v.testBit (k - 1 - i))

/-- `chr(b)`: the ASCII byte of a bit (R13, R48). -/
def chr (b : Bool) : Byte := if b then 0x31#8 else 0x30#8

/-- The XOR of all bits of a string (R82, R112). -/
def xorAll : BitString → Bool
  | [] => false
  | b :: s => b ^^ xorAll s

/-- `parityBit(s, even)` (R75): `onesCount(s) mod 2` when even, its complement when odd. -/
def parityBit (s : BitString) (even : Bool) : Bool :=
  if even then onesCount s % 2 == 1 else !(onesCount s % 2 == 1)

/-- `mask_k = 2^k - 1` (R13). -/
def maskOf (k : Nat) : Nat := 2 ^ k - 1

end Sys2Proof.Machine
end

