-- ==== Sys2Proof/Machine/Ops.lean ====
section
/-! DEFINITION. The named operations over memory and registers: the buffers' byte store, the result write
(40_bitstring.md R73), the three ways a command ends (60_exceptions.md R121, R125), and the acceptance of a
command (R120). A command error is this block's only "exception" (R132): it saves the report in `STATUS` and
transfers no control, and there is no return from it (R133). -/

namespace Sys2Proof.Machine

/-! ### The byte store -/

/-- What a buffer offset that the memory does not list reads as: `0x00` in the result buffers (R41, R50), no
value in `IBUF` (unwritten, R144). -/
def Memory.unlisted (a : Nat) : Option Byte :=
  if Config.obufABase ≤ a ∧ a < Config.obufEnd then some 0x00#8 else none

/-- The offset is one the byte store holds: `IBUF` or a result buffer (R38, R43). -/
def Memory.stores (a : Nat) : Bool :=
  decide ((Config.ibufBase ≤ a ∧ a < Config.ibufBase + Config.ibufSize) ∨
    (Config.obufABase ≤ a ∧ a < Config.obufEnd))

/-- The canonical form: offsets strictly rising, each in a stored region, no entry equal to what its offset
would read as unlisted. -/
abbrev Memory.wf (m : Memory) : Prop :=
  m.Pairwise (fun c d => c.1 < d.1) ∧
    ∀ c ∈ m, Memory.stores c.1 = true ∧ Memory.unlisted c.1 ≠ some c.2

/-- The entry at an offset, if the memory lists one. -/
def Memory.entry : Memory → Nat → Option Byte
  | [], _ => none
  | (k, v) :: m, a => if k = a then some v else Memory.entry m a

/-- One byte of a buffer; `none` is an unwritten `IBUF` byte. -/
def Memory.read (m : Memory) (a : Nat) : Option Byte :=
  match Memory.entry m a with
  | some v => some v
  | none => Memory.unlisted a

/-- Put an entry in its place, over one at the same offset. -/
def Memory.insert : Memory → Nat → Byte → Memory
  | [], a, v => [(a, v)]
  | (k, w) :: m, a, v =>
    if a < k then (a, v) :: (k, w) :: m
    else if a = k then (a, v) :: m
    else (k, w) :: Memory.insert m a v

/-- Take the entry at an offset out. -/
def Memory.erase (m : Memory) (a : Nat) : Memory := m.filter (fun c => c.1 != a)

/-- Write one byte, in canonical form. -/
def Memory.write (m : Memory) (a : Nat) (v : Byte) : Memory :=
  if Memory.unlisted a = some v then Memory.erase m a else Memory.insert m a v

/-- Write consecutive bytes. -/
def Memory.writeBytes : Memory → Nat → List Byte → Memory
  | m, _, [] => m
  | m, a, b :: bs => Memory.writeBytes (Memory.write m a b) (a + 1) bs

/-- The canonical entries of consecutive bytes from an offset. -/
def Memory.cellsFrom : Nat → List Byte → Memory
  | _, [] => []
  | a, b :: bs =>
    if Memory.unlisted a = some b then Memory.cellsFrom (a + 1) bs
    else (a, b) :: Memory.cellsFrom (a + 1) bs

/-- Replace the range of `size` bytes at `base`: the first bytes as listed, the rest as unlisted. -/
def Memory.replaceRange (m : Memory) (base size : Nat) (bs : List Byte) : Memory :=
  m.filter (fun c => decide (c.1 < base)) ++ Memory.cellsFrom base (bs.take size) ++
    m.filter (fun c => decide (base + size ≤ c.1))

/-! ### The result write (R73) -/

/-- The three result regions (R66). -/
inductive ResultRegion where
  | a | b | c
  deriving DecidableEq, Repr

/-- The window offset of a region's first byte (R43). -/
def ResultRegion.base : ResultRegion → Nat
  | .a => Config.obufABase
  | .b => Config.obufBBase
  | .c => Config.obufCBase

/-- The memory after `WriteResult(X, s)`: `chr(s[a])` for `a < s.len`, `0x00` to the region's end (R73). -/
def writeResultMem (m : Memory) (x : ResultRegion) (s : BitString) : Memory :=
  Memory.replaceRange m x.base Config.obufSize (s.map chr)

/-- The `RLEN` value of a result string (R73). -/
def lengthWord (s : BitString) : Word := BitVec.ofNat 32 s.length

/-! ### How a command ends -/

/-- The error kinds (R123). -/
inductive ErrKind where
  | invalidInput | dimensionMismatch | illegalCommand
  deriving DecidableEq, Repr

/-- The offending field of an error (R24). -/
inductive ErrField where
  | cmd | opd | aux | blksz
  deriving DecidableEq, Repr

/-- The causes (R124). -/
inductive Cause where
  | empty | tooLong | outOfBounds | nonBinary | divShort | divLead0 | zeroBlksz
  | noBlocks | lenMismatch | notMultiple | cwShort | reservedBits | badUnit | badNopd
  deriving DecidableEq, Repr

/-- What a failed command reports (R125). -/
structure ErrReport where
  kind  : ErrKind
  field : ErrField
  idx   : Nat
  cause : Cause
  deriving DecidableEq, Repr

/-- The `ERRKIND` codes (R123). -/
def ErrKind.code : ErrKind → BitVec 4
  | .invalidInput => 1#4
  | .dimensionMismatch => 2#4
  | .illegalCommand => 3#4

/-- The `ERRFIELD` codes (R24). -/
def ErrField.code : ErrField → BitVec 4
  | .cmd => 1#4
  | .opd => 2#4
  | .aux => 3#4
  | .blksz => 4#4

/-- The `ERRCAUSE` codes (R124). -/
def Cause.code : Cause → BitVec 8
  | .empty => 1#8
  | .tooLong => 2#8
  | .outOfBounds => 3#8
  | .nonBinary => 4#8
  | .divShort => 5#8
  | .divLead0 => 6#8
  | .zeroBlksz => 7#8
  | .noBlocks => 8#8
  | .lenMismatch => 9#8
  | .notMultiple => 10#8
  | .cwShort => 11#8
  | .reservedBits => 12#8
  | .badUnit => 13#8
  | .badNopd => 14#8

/-- How `Execute` can end without a result (R121): an error report, or a model fault. -/
inductive Stop where
  | error (r : ErrReport)
  | fault (f : Fault)
  deriving DecidableEq, Repr

/-- The outcome of a phase of `Execute` (R122). -/
abbrev Execute (α : Type) := Except Stop α

/-- `raise InvalidInput(field, idx, cause)` (R125). -/
def raiseInvalidInput {α : Type} (field : ErrField) (idx : Nat) (cause : Cause) : Execute α :=
  .error (.error { kind := .invalidInput, field := field, idx := idx, cause := cause })

/-- `raise DimensionMismatch(field, idx, cause)` (R125). -/
def raiseDimensionMismatch {α : Type} (field : ErrField) (idx : Nat) (cause : Cause) : Execute α :=
  .error (.error { kind := .dimensionMismatch, field := field, idx := idx, cause := cause })

/-- `raise IllegalCommand(cause)` is `Err(3, CMD, 0, cause)` (R125). -/
def raiseIllegalCommand {α : Type} (cause : Cause) : Execute α :=
  .error (.error { kind := .illegalCommand, field := .cmd, idx := 0, cause := cause })

/-- The cause code an illegal command word reports (R61, R124). -/
def causeOfIllegal : IllegalCause → Cause
  | .reservedBits => .reservedBits
  | .badUnit => .badUnit
  | .badNopd => .badNopd

/-- The sixteen zero entries `PPOS` holds after every command but Hamming encode (R33). -/
def pposZero : Vector Word 16 := Vector.replicate 16 0#32

/-- What a successful command writes (R121). A field a command does not name takes the default of R66: empty, 0
or false. -/
structure Result where
  a       : BitString := []
  b       : BitString := []
  c       : BitString := []
  valid   : Bool := false
  parity  : Bool := false
  hamR    : Nat := 0
  hamN    : Nat := 0
  hamSyn  : Nat := 0
  hamStat : Nat := 0
  ppos    : Vector Word 16 := pposZero
  trace   : List TraceRecord := []
  deriving DecidableEq, Repr

/-- Completion with a result (R121): all result state is replaced, `BUSY` falls, `DONE` rises, `ERR` is 0, the
error fields stay as acceptance left them. -/
def completeOk (r : Result) (s : State) : State :=
  { s with
    mem := writeResultMem (writeResultMem (writeResultMem s.mem .a r.a) .b r.b) .c r.c
    rlenA := lengthWord r.a
    rlenB := lengthWord r.b
    rlenC := lengthWord r.c
    rflags := { valid := r.valid, parity := r.parity }
    hamR := BitVec.ofNat 32 r.hamR
    hamN := BitVec.ofNat 32 r.hamN
    hamSyn := BitVec.ofNat 32 r.hamSyn
    hamStat := BitVec.ofNat 32 r.hamStat
    ppos := r.ppos
    trace := r.trace
    tcount := BitVec.ofNat 32 r.trace.length
    status := { s.status with busy := false, done := true, err := false }
    countdown := 0 }

/-- Completion with an error (R121, R125): only `STATUS` is written. -/
def completeError (e : ErrReport) (s : State) : State :=
  { s with
    status := { s.status with
      busy := false
      done := true
      err := true
      errKind := e.kind.code
      errField := e.field.code
      errIdx := BitVec.ofNat 8 e.idx
      errCause := e.cause.code }
    countdown := 0 }

/-- The core's completion step on the outcome of `Execute` (R121). -/
def finish (out : Execute Result) (s : State) : Host.Outcome State Fault Refusal :=
  match out with
  | .ok r => .next (completeOk r s)
  | .error (.error e) => .next (completeError e s)
  | .error (.fault f) => .fault f

/-! ### How a command starts -/

/-- A host write of `v` to `CMD` while the core is idle, with `k` host steps to completion (R120). -/
def acceptCommand (v : Word) (k : Nat) (s : State) : State :=
  { s with
    cmd := v
    status := { s.status with
      busy := true
      done := false
      err := false
      errKind := 0#4
      errField := 0#4
      errIdx := 0#8
      errCause := 0#8 }
    countdown := k }

/-- A host write to `CMD` while the core is busy: dropped, `OVR` set (R120, R130). -/
def dropCommand (s : State) : State := { s with status := { s.status with ovr := true } }

/-- A host write to `STATUS` with bit 3 set (R25). -/
def clearOverrun (s : State) : State := { s with status := { s.status with ovr := false } }

/-- A host write of `v` to `CMD` (R120): acceptance draws the command's `k` (R149). -/
def issueCommand (v : Word) (s : State) : State :=
  if s.status.busy then dropCommand s
  else { acceptCommand v (Config.latency s.draws) s with draws := s.draws + 1 }

/-- Reset asserted (R141): every piece of state takes its value of R41, the in-flight command is abandoned.
What the outside has still to do and the count of free values drawn are not the block's state (log 5). -/
def assertReset (s : State) : State :=
  { State.reset with pending := s.pending, draws := s.draws }

end Sys2Proof.Machine
end

