-- ==== Sys2Proof/Machine/Operands.lean ====
section
/-! DEFINITION. Every operand form (30_encoding.md R65): descriptors (10_state.md R26, R34), the operand port to
`IBUF` (20_memory.md R51), `ReadOperand` (40_bitstring.md R71), the LRC block list, the checksum block size. -/

namespace Sys2Proof.Machine

/-- `OFF`, bits 15:0 of a descriptor (R34). -/
def descOff (d : Word) : Nat := (d.extractLsb' 0 16).toNat

/-- `LEN`, bits 31:16 of a descriptor (R34). -/
def descLen (d : Word) : Nat := (d.extractLsb' 16 16).toNat

/-- `R(OPD[i])`. `i < MAXBLK` for every well-formed command. -/
def opdAt (s : State) (i : Nat) : Word := (s.opd[i]?).getD 0#32

/-- `IBUF[a]` through the core's read port (R51); `none` is an unwritten byte (R144). -/
def ibufByte (s : State) (a : Nat) : Option Byte := Memory.read s.mem (Config.ibufBase + a)

/-- The bytes of an operand, if every one of them has been written (R71, R144). -/
def fetchBytes (s : State) : Nat → Nat → Option (List Byte)
  | _, 0 => some []
  | off, n + 1 =>
    match ibufByte s off, fetchBytes s (off + 1) n with
    | some b, some bs => some (b :: bs)
    | _, _ => none

/-- The bits of a string of characters, if every one is `'0'` or `'1'` (R70, R71). -/
def scanBits : List Byte → Option BitString
  | [] => some []
  | b :: bs =>
    if b = 0x30#8 then (scanBits bs).map (false :: ·)
    else if b = 0x31#8 then (scanBits bs).map (true :: ·)
    else none

/-- `ReadOperand(field, idx, d)`, its checks in the order of R71. -/
def readOperand (s : State) (field : ErrField) (idx : Nat) (d : Word) : Execute BitString :=
  if descLen d = 0 then raiseInvalidInput field idx .empty
  else if Config.maxLen < descLen d then raiseInvalidInput field idx .tooLong
  else if Config.ibufSize < descOff d + descLen d then raiseInvalidInput field idx .outOfBounds
  else
    match fetchBytes s (descOff d) (descLen d) with
    | none => .error (.fault .uninit)
    | some bytes =>
      match scanBits bytes with
      | none => raiseInvalidInput field idx .nonBinary
      | some bits => .ok bits

/-- The operand of `OPD[i]` (R65). -/
def readOpd (s : State) (i : Nat) : Execute BitString := readOperand s .opd i (opdAt s i)

/-- The operand of `AUX` (R26, R65). -/
def readAux (s : State) : Execute BitString := readOperand s .aux 0 s.aux

/-- The operands of `OPD[i]` to `OPD[i+n-1]`, in operand order (42_lrc.md R81). -/
def readBlocks (s : State) : Nat → Nat → Execute (List BitString)
  | _, 0 => .ok []
  | i, n + 1 =>
    (readOpd s i).bind fun b =>
      (readBlocks s (i + 1) n).bind fun bs => .ok (b :: bs)

/-- `zext(R(BLKSZ)[15:0])` (R27, R97). -/
def blockSize (s : State) : Nat := s.blksz.toNat

end Sys2Proof.Machine
end

