-- ==== Sys2Proof/Machine/Crc.lean ====
section
/-! DEFINITION. The CRC unit: modulo-2 long division with a step trace (43_crc.md R87, R88, R91, R93, R94). -/

namespace Sys2Proof.Machine

/-- The outcome of `Mod2Div` (R88). -/
structure Division where
  rem   : BitString
  quot  : BitString
  steps : List TraceRecord
  deriving DecidableEq, Repr

/-- The bit that decides a step: the leading bit of the working window (R88). The window has `n >= 2` bits. -/
def leadingBit (w : BitString) : Bool := w.headD false

/-- The pattern XORed in a step: the divisor if the leading bit is 1, zeros if not (R88). -/
def stepPattern (g w : BitString) : BitString := if leadingBit w then g else zeros g.length

/-- The trace record of step `i` (R93). -/
def crcStepRecord (i : Nat) (w p x : BitString) : TraceRecord :=
  { kind := .crcStep, n0 := BitVec.ofNat 32 i, n1 := BitVec.ofNat 32 (leadingBit w).toNat, n2 := 0#32
    s0 := w, s1 := p, s2 := x, pos := [] }

/-- The steps of `Mod2Div` from step `i` with working window `w`, the bits not yet brought down in `rest` (R88).
`none` only if an XOR has unequal lengths (R12). -/
def divSteps (g : BitString) : Nat → BitString → BitString → Option Division
  | i, w, [] =>
    match xorbits w (stepPattern g w) with
    | none => none
    | some x =>
      some { rem := x.tail, quot := [leadingBit w], steps := [crcStepRecord i w (stepPattern g w) x] }
  | i, w, b :: rest =>
    match xorbits w (stepPattern g w) with
    | none => none
    | some x =>
      match divSteps g (i + 1) (x.tail ++ [b]) rest with
      | none => none
      | some r =>
        some { rem := r.rem
               quot := leadingBit w :: r.quot
               steps := crcStepRecord i w (stepPattern g w) x :: r.steps }

/-- `Mod2Div(D, g)` (R88): the window starts as the first `n` bits of `D`. -/
def mod2Div (d g : BitString) : Option Division := divSteps g 0 (d.take g.length) (d.drop g.length)

/-- `Mod2Div` inside `Execute`: an XOR of unequal lengths is a fault, never a value (R12). -/
def divide (d g : BitString) : Execute Division :=
  match mod2Div d g with
  | some r => .ok r
  | none => .error (.fault .xorUnequal)

/-- The `InvalidInputError` checks on the divisor (R87). -/
def crcDivisorChecks (g : BitString) : Execute Unit :=
  if g.length < 2 then raiseInvalidInput .aux 0 .divShort
  else if leadingBit g = false then raiseInvalidInput .aux 0 .divLead0
  else .ok ()

/-- The dimension check of `CRC.VER` (R87). -/
def crcCodewordCheck (x g : BitString) : Execute Unit :=
  if x.length < g.length then raiseDimensionMismatch .opd 0 .cwShort else .ok ()

/-- What `CRC.ENC` writes (R91). -/
def crcEncResult (d : BitString) (r : Division) : Result :=
  { a := d ++ r.rem, b := r.rem, c := r.quot, trace := r.steps }

/-- What `CRC.VER` writes (R94); the steps are not kept. -/
def crcVerResult (g : BitString) (r : Division) : Result :=
  { b := r.rem, c := r.quot, valid := decide (r.rem = zeros (g.length - 1)) }

/-- `CRC.ENC` (R91): the data are followed by `n-1` zeros and divided. -/
def execCrcEnc (s : State) : Host.Outcome State Fault Refusal :=
  finish
    ((readOpd s 0).bind fun d =>
      (readAux s).bind fun g =>
        (crcDivisorChecks g).bind fun _ =>
          (divide (d ++ zeros (g.length - 1)) g).bind fun r => .ok (crcEncResult d r)) s

/-- `CRC.VER` (R94): the codeword is divided as it is. -/
def execCrcVer (s : State) : Host.Outcome State Fault Refusal :=
  finish
    ((readOpd s 0).bind fun cw =>
      (readAux s).bind fun g =>
        (crcDivisorChecks g).bind fun _ =>
          (crcCodewordCheck cw g).bind fun _ =>
            (divide cw g).bind fun r => .ok (crcVerResult g r)) s

end Sys2Proof.Machine
end

