-- ==== Sys2Proof/Machine/Csum.lean ====
section
/-! DEFINITION. The checksum unit: 1's-complement sum with end-around carry (44_checksum.md R97 to R105). -/

namespace Sys2Proof.Machine

/-- The checks of R97 past the operand fetch, in its order. -/
def csumChecks (d : BitString) (k : Nat) : Execute Unit :=
  if k = 0 then raiseInvalidInput .blksz 0 .zeroBlksz
  else if d.length % k ≠ 0 then raiseDimensionMismatch .opd 0 .notMultiple
  else .ok ()

/-- The blocks `B_0` to `B_{N-1}` (R98), `N = d.len / k`. -/
def csumBlocks (d : BitString) (k : Nat) : List BitString :=
  (List.range (d.length / k)).map (fun j => (d.drop (j * k)).take k)

/-- The end-around carry at width `k` (R99). -/
def foldCarry (k sum : Nat) : Nat := (sum &&& maskOf k) + (sum >>> k)

/-- The record of an addition (R104). -/
def csumAddRecord (k j : Nat) (block : BitString) (before after : Nat) : TraceRecord :=
  { kind := .csumAdd, n0 := BitVec.ofNat 32 j, n1 := 0#32, n2 := 0#32
    s0 := block, s1 := binOf k before, s2 := binOf (k + 1) after, pos := [] }

/-- The record of a fold (R104). -/
def csumWrapRecord (k j before after : Nat) : TraceRecord :=
  { kind := .csumWrap, n0 := BitVec.ofNat 32 j, n1 := 0#32, n2 := 0#32
    s0 := binOf (k + 1) before, s1 := binOf k after, s2 := [], pos := [] }

/-- A sum and the records made on the way to it. -/
structure Accumulated where
  sum  : Nat
  recs : List TraceRecord
  deriving DecidableEq, Repr

/-- `while S > mask_k: fold` (R100), with its records. The fuel never runs out when it starts at the sum itself,
since a fold of a sum past `mask_k` is smaller than it (log 18). -/
def foldWhile (k j : Nat) : Nat → Nat → Accumulated
  | 0, sum => { sum := sum, recs := [] }
  | fuel + 1, sum =>
    if maskOf k < sum then
      match foldWhile k j fuel (foldCarry k sum) with
      | ⟨final, recs⟩ => { sum := final, recs := csumWrapRecord k j sum (foldCarry k sum) :: recs }
    else { sum := sum, recs := [] }

/-- `Accumulate` over the blocks from block `j` on, with running sum `sum` (R100): each block is added, then the
sum is folded before the next. -/
def accumulate (k : Nat) : Nat → Nat → List BitString → Accumulated
  | _, sum, [] => { sum := sum, recs := [] }
  | j, sum, b :: bs =>
    match foldWhile k j (sum + bitsVal b) (sum + bitsVal b) with
    | ⟨folded, wraps⟩ =>
      match accumulate k (j + 1) folded bs with
      | ⟨final, rest⟩ =>
        { sum := final, recs := csumAddRecord k j b sum (sum + bitsVal b) :: (wraps ++ rest) }

/-- `Accumulate(d, k)` from block 0 and sum 0 (R100). -/
def checksumOf (d : BitString) (k : Nat) : Accumulated := accumulate k 0 0 (csumBlocks d k)

/-- What `CSUM.ENC` writes (R102). -/
def csumEncResult (d : BitString) (k : Nat) : Result :=
  { a := binOf k (checksumOf d k).sum
    b := complement (binOf k (checksumOf d k).sum)
    trace := (checksumOf d k).recs }

/-- What `CSUM.VER` writes (R105); the records are not kept. -/
def csumVerResult (d : BitString) (k : Nat) : Result :=
  { a := binOf k (checksumOf d k).sum
    b := complement (binOf k (checksumOf d k).sum)
    valid := decide (complement (binOf k (checksumOf d k).sum) = zeros k) }

/-- `CSUM.ENC` (R102). -/
def execCsumEnc (s : State) : Host.Outcome State Fault Refusal :=
  finish
    ((readOpd s 0).bind fun d =>
      (csumChecks d (blockSize s)).bind fun _ => .ok (csumEncResult d (blockSize s))) s

/-- `CSUM.VER` (R105). -/
def execCsumVer (s : State) : Host.Outcome State Fault Refusal :=
  finish
    ((readOpd s 0).bind fun d =>
      (csumChecks d (blockSize s)).bind fun _ => .ok (csumVerResult d (blockSize s))) s

end Sys2Proof.Machine
end

