-- ==== Sys2Proof/Machine/Ham.lean ====
section
/-! DEFINITION. The Hamming unit: encoder, syndrome decoder, single-bit corrector (45_hamming.md R108 to R117).
Positions count from 1; position `p` is character `p-1` (R108). -/

namespace Sys2Proof.Machine

/-- The least `r`, from `r` on, with `2^r >= m + r + 1`; the fuel bounds the search. -/
def leastRedundancy (m : Nat) : Nat → Nat → Nat
  | 0, r => r
  | fuel + 1, r => if m + r + 1 ≤ 2 ^ r then r else leastRedundancy m fuel (r + 1)

/-- `r` for data of length `m` (R109); `2^(m+1) >= m + (m+1) + 1`, so the search ends within the fuel. -/
def redundancy (m : Nat) : Nat := leastRedundancy m (m + 1) 0

/-- A position is a parity position if and only if it is a power of two (R110). -/
def isParityPosition (p : Nat) : Bool := 2 ^ p.log2 == p

/-- `C_k(N)`: the positions `1..N` with bit `k` set, in increasing order (R111). -/
def covered (k n : Nat) : List Nat := (List.range' 1 n).filter (fun p => p.testBit k)

/-- `c[p]`, position `p` of a word (R108). -/
def bitAt (c : BitString) (p : Nat) : Bool := c.getD (p - 1) false

/-- The word with position `p` set to a bit (R108). -/
def setBitAt (c : BitString) (p : Nat) (b : Bool) : BitString := c.set (p - 1) b

/-- `n` positions from `p` on with the data bits placed in the data positions (R110), the parity positions not
yet solved (they are written before anything reads them, R112). -/
def placeData : Nat → Nat → BitString → BitString
  | _, 0, _ => []
  | p, n + 1, d =>
    if isParityPosition p then false :: placeData (p + 1) n d
    else d.headD false :: placeData (p + 1) n d.tail

/-- The covered positions of parity index `k` other than `2^k` itself (R112). -/
def solvedFrom (k n : Nat) : List Nat := (covered k n).filter (fun p => p != 2 ^ k)

/-- The bits XORed for parity index `k`, in increasing position (R113). -/
def parityInputs (c : BitString) (k n : Nat) : BitString := (solvedFrom k n).map (bitAt c)

/-- The trace record of parity index `k` (R115). -/
def hamParityRecord (c : BitString) (k n : Nat) : TraceRecord :=
  { kind := .hamParity, n0 := BitVec.ofNat 32 k, n1 := BitVec.ofNat 32 (2 ^ k)
    n2 := BitVec.ofNat 32 (xorAll (parityInputs c k n)).toNat
    s0 := parityInputs c k n, s1 := [], s2 := []
    pos := (covered k n).map (BitVec.ofNat 16) }

/-- A codeword and the records made on the way to it. -/
structure HamEncoded where
  codeword : BitString
  recs     : List TraceRecord
  deriving DecidableEq, Repr

/-- Solve the parity positions of the listed indices one after the other (R113). -/
def solveParity (n : Nat) : List Nat → BitString → HamEncoded
  | [], c => { codeword := c, recs := [] }
  | k :: ks, c =>
    match solveParity n ks (setBitAt c (2 ^ k) (xorAll (parityInputs c k n))) with
    | ⟨codeword, recs⟩ => { codeword := codeword, recs := hamParityRecord c k n :: recs }

/-- `N = m + r` (R109). -/
def hamLength (m : Nat) : Nat := m + redundancy m

/-- The Hamming codeword of `d` and its trace (R113), parity indices in increasing order (D48). -/
def hamEncode (d : BitString) : HamEncoded :=
  solveParity (hamLength d.length) (List.range (redundancy d.length))
    (placeData 1 (hamLength d.length) d)

/-- `PPOS` after Hamming encode: `2^k` for `k < r`, else 0 (R33). -/
def pposOf (r : Nat) : Vector Word 16 :=
  ⟨((List.range 16).map (fun k => if k < r then BitVec.ofNat 32 (2 ^ k) else 0#32)).toArray, by simp⟩

/-- What `HAM.ENC` writes (R113). -/
def hamEncResult (d : BitString) : Result :=
  { a := (hamEncode d).codeword
    hamR := redundancy d.length
    hamN := hamLength d.length
    ppos := pposOf (redundancy d.length)
    trace := (hamEncode d).recs }

/-- The indices checked: `k = 0, 1, ...` while `2^k <= N` (R116). -/
def checkIndices (n : Nat) : List Nat := (List.range n).takeWhile (fun k => decide (2 ^ k ≤ n))

/-- Check `k`: the XOR over its covered set, the received parity bit included (R116). -/
def checkFails (c : BitString) (k : Nat) : Bool := xorAll ((covered k c.length).map (bitAt c))

/-- The sum of `2^k` over the failing checks among the listed indices (R116). -/
def syndromeOver (c : BitString) : List Nat → Nat
  | [] => 0
  | k :: ks => (if checkFails c k then 2 ^ k else 0) + syndromeOver c ks

/-- The syndrome of a received codeword (R116). -/
def syndrome (c : BitString) : Nat := syndromeOver c (checkIndices c.length)

/-- The `HAM_STAT` code: 0 `NO_ERROR`, 1 `CORRECTED`, 2 `OUT_OF_RANGE` (R117). -/
def hamStatus (syn n : Nat) : Nat := if syn = 0 then 0 else if syn ≤ n then 1 else 2

/-- The corrected word: position `syn` flipped when it names one, else unchanged (R116). -/
def hamCorrect (c : BitString) (syn : Nat) : BitString :=
  if syn = 0 then c else if syn ≤ c.length then setBitAt c syn (!(bitAt c syn)) else c

/-- What `HAM.VER` writes (R116). -/
def hamVerResult (c : BitString) : Result :=
  { a := hamCorrect c (syndrome c)
    hamSyn := syndrome c
    hamStat := hamStatus (syndrome c) c.length
    valid := decide (syndrome c = 0) }

/-- `HAM.ENC` (R113). -/
def execHamEnc (s : State) : Host.Outcome State Fault Refusal :=
  finish ((readOpd s 0).bind fun d => .ok (hamEncResult d)) s

/-- `HAM.VER` (R116). -/
def execHamVer (s : State) : Host.Outcome State Fault Refusal :=
  finish ((readOpd s 0).bind fun c => .ok (hamVerResult c)) s

end Sys2Proof.Machine
end

