-- ==== Sys2Proof/Machine/Lrc.lean ====
section
/-! DEFINITION. The LRC unit: parity down the columns of equal-length blocks (42_lrc.md R81 to R84). -/

namespace Sys2Proof.Machine

/-- The first block, counted from `i`, whose length is not `len` (R81). -/
def firstMismatch (len : Nat) : Nat → List BitString → Option Nat
  | _, [] => none
  | i, b :: bs => if b.length = len then firstMismatch len (i + 1) bs else some i

/-- The dimension checks of R81. -/
def lrcDimensions : List BitString → Execute Unit
  | [] => raiseDimensionMismatch .opd 0 .noBlocks
  | b :: bs =>
    match firstMismatch b.length 1 bs with
    | some i => raiseDimensionMismatch .opd i .lenMismatch
    | none => .ok ()

/-- The block length `L`: that of block 0 (R81). -/
def blockLength : List BitString → Nat
  | [] => 0
  | b :: _ => b.length

/-- Column `j` of the blocks (R82). Every block is `L` long, so no index is out of range. -/
def column (bs : List BitString) (j : Nat) : BitString := bs.map (fun b => b.getD j false)

/-- `lrcOf(b, even)`: bit `j` is the parity bit of column `j` (R82). -/
def lrcOf (bs : List BitString) (even : Bool) : BitString :=
  (List.range (blockLength bs)).map (fun j => parityBit (column bs j) even)

/-- What `LRC.ENC` writes (R83). -/
def lrcEncResult (even : Bool) (bs : List BitString) : Result := { a := lrcOf bs even }

/-- What `LRC.VER` writes (R84): the recomputed LRC, and whether the received one equals it, length included. -/
def lrcVerResult (even : Bool) (bs : List BitString) (rl : BitString) : Result :=
  { a := lrcOf bs even, valid := decide (rl = lrcOf bs even) }

/-- `LRC.ENC even|odd, k` (R83). A count past `MAXBLK`, which no legal word holds, is `BAD_NOPD`. -/
def execLrcEnc (even : Bool) (nopd : Nat) (s : State) : Host.Outcome State Fault Refusal :=
  finish
    (if Config.maxBlk < nopd then raiseIllegalCommand .badNopd
     else
      (readBlocks s 0 nopd).bind fun bs =>
        (lrcDimensions bs).bind fun _ => .ok (lrcEncResult even bs)) s

/-- `LRC.VER even|odd, k` (R84): `AUX` is fetched after every block and before the dimension checks (R81). -/
def execLrcVer (even : Bool) (nopd : Nat) (s : State) : Host.Outcome State Fault Refusal :=
  finish
    (if Config.maxBlk < nopd then raiseIllegalCommand .badNopd
     else
      (readBlocks s 0 nopd).bind fun bs =>
        (readAux s).bind fun rl =>
          (lrcDimensions bs).bind fun _ => .ok (lrcVerResult even bs rl)) s

end Sys2Proof.Machine
end

