-- ==== Sys2Proof/Machine/Vrc.lean ====
section
/-! DEFINITION. The VRC unit: parity over one unit (41_vrc.md R77, R78). -/

namespace Sys2Proof.Machine

/-- What `VRC.ENC` writes for data `d` (R77): the codeword `d ++ [p]` and `PARITY = p`. -/
def vrcEncResult (even : Bool) (d : BitString) : Result :=
  { a := d ++ [parityBit d even], parity := parityBit d even }

/-- What `VRC.VER` writes for a received unit (R78): the whole unit is counted, nothing is split off. -/
def vrcVerResult (even : Bool) (rcv : BitString) : Result :=
  { valid := onesCount rcv % 2 == (if even then 0 else 1) }

/-- `VRC.ENC even|odd` (R77). -/
def execVrcEnc (even : Bool) (s : State) : Host.Outcome State Fault Refusal :=
  finish ((readOpd s 0).bind fun d => .ok (vrcEncResult even d)) s

/-- `VRC.VER even|odd` (R78). -/
def execVrcVer (even : Bool) (s : State) : Host.Outcome State Fault Refusal :=
  finish ((readOpd s 0).bind fun rcv => .ok (vrcVerResult even rcv)) s

end Sys2Proof.Machine
end

