-- ==== Sys2Proof/Machine/Dispatch.lean ====
section
/-! DEFINITION. The core's completion step for each command (60_exceptions.md R121): one direct call per
constructor. -/

namespace Sys2Proof.Machine

def exec (i : Instr) (s : State) : Host.Outcome State Fault Refusal :=
  match i with
  | .vrcEnc even => Sys2Proof.Machine.execVrcEnc even s
  | .vrcVer even => Sys2Proof.Machine.execVrcVer even s
  | .lrcEnc even nopd => Sys2Proof.Machine.execLrcEnc even nopd s
  | .lrcVer even nopd => Sys2Proof.Machine.execLrcVer even nopd s
  | .crcEnc => Sys2Proof.Machine.execCrcEnc s
  | .crcVer => Sys2Proof.Machine.execCrcVer s
  | .csumEnc => Sys2Proof.Machine.execCsumEnc s
  | .csumVer => Sys2Proof.Machine.execCsumVer s
  | .hamEnc => Sys2Proof.Machine.execHamEnc s
  | .hamVer => Sys2Proof.Machine.execHamVer s

end Sys2Proof.Machine
end

