-- ==== Sys2Proof/Machine/Flags.lean ====
section
/-! DEFINITION. The words the host reads from `STATUS` and `RFLAGS` (10_state.md R24, R31). The block has no
condition codes (R19): these are its only outcome bits. -/

namespace Sys2Proof.Machine

/-- `STATUS` as a word (R24); bits 7:4 read 0. -/
def Status.word (st : Status) : Word :=
  BitVec.ofNat 32
    (st.busy.toNat + 2 * st.done.toNat + 4 * st.err.toNat + 8 * st.ovr.toNat +
      256 * st.errKind.toNat + 4096 * st.errField.toNat + 65536 * st.errIdx.toNat +
      16777216 * st.errCause.toNat)

/-- `RFLAGS` as a word (R31); bits 31:2 read 0. -/
def RFlags.word (f : RFlags) : Word := BitVec.ofNat 32 (f.valid.toNat + 2 * f.parity.toNat)

end Sys2Proof.Machine
end

