-- ==== Sys2Proof/Machine/Window.lean ====
section
/-! DEFINITION. The register and buffer window: its map (10_state.md R21, 20_memory.md R43), the checks of a host
access in their order (R44), what a read returns (R36, R37, R46, R50, 70_reset_and_hazards.md R144 to R146) and
what a write does (R25 to R28, R49, R120). -/

namespace Sys2Proof.Machine

/-! ### The map -/

/-- The registers of the window (R21). -/
inductive Reg where
  | id | version | cmd | status | aux | blksz | tidx | tcount
  | rlenA | rlenB | rlenC | rflags | hamR | hamN | hamSyn | hamStat
  | ppos (k : Fin 16)
  | opd (i : Fin 64)
  | trKind | trN0 | trN1 | trN2 | trL0 | trL1 | trL2 | trLP
  deriving DecidableEq, Repr

/-- The buffer regions of the window (R43). -/
inductive Buffer where
  | trPos | trS0 | trS1 | trS2 | ibuf | obufA | obufB | obufC
  deriving DecidableEq, Repr

/-- Where an allowed access lands. -/
inductive Target where
  | reg (r : Reg)
  | buffer (b : Buffer)
  deriving DecidableEq, Repr

/-- The registers at fixed offsets (R21). -/
def fixedRegs : List (Nat × Reg) :=
  [ (0x000, .id), (0x004, .version), (0x008, .cmd), (0x00C, .status),
    (0x010, .aux), (0x014, .blksz), (0x018, .tidx), (0x01C, .tcount),
    (0x020, .rlenA), (0x024, .rlenB), (0x028, .rlenC), (0x02C, .rflags),
    (0x030, .hamR), (0x034, .hamN), (0x038, .hamSyn), (0x03C, .hamStat),
    (0x200, .trKind), (0x204, .trN0), (0x208, .trN1), (0x20C, .trN2),
    (0x210, .trL0), (0x214, .trL1), (0x218, .trL2), (0x21C, .trLP) ]

/-- The entry of a table of offsets. -/
def lookupOffset {α : Type} : List (Nat × α) → Nat → Option α
  | [], _ => none
  | (k, v) :: rows, a => if k = a then some v else lookupOffset rows a

/-- The register at a 4-byte-aligned offset below `0x0300`; `none` where R21 names none (reserved). -/
def regAt (off : Nat) : Option Reg :=
  if h : 0x040 ≤ off ∧ off < 0x080 then some (.ppos ⟨(off - 0x040) / 4, by omega⟩)
  else if h : 0x100 ≤ off ∧ off < 0x200 then some (.opd ⟨(off - 0x100) / 4, by omega⟩)
  else lookupOffset fixedRegs off

/-- One buffer region: its first offset and its size in bytes (R43). -/
structure BufferRow where
  buffer : Buffer
  base   : Nat
  size   : Nat
  deriving DecidableEq, Repr

/-- The buffer regions of the window map (R43). Offsets in no row and not below `0x0300` are reserved. -/
def bufferRows : List BufferRow :=
  [ ⟨.trPos, Config.trPosBase, 2 * Config.tposMax⟩,
    ⟨.trS0, Config.trS0Base, Config.tstrSize⟩,
    ⟨.trS1, Config.trS1Base, Config.tstrSize⟩,
    ⟨.trS2, Config.trS2Base, Config.tstrSize⟩,
    ⟨.ibuf, Config.ibufBase, Config.ibufSize⟩,
    ⟨.obufA, Config.obufABase, Config.obufSize⟩,
    ⟨.obufB, Config.obufBBase, Config.obufSize⟩,
    ⟨.obufC, Config.obufCBase, Config.obufSize⟩ ]

/-- The first row that holds an offset. -/
def findBuffer : List BufferRow → Nat → Option Buffer
  | [], _ => none
  | r :: rows, a => if r.base ≤ a ∧ a < r.base + r.size then some r.buffer else findBuffer rows a

/-- The first offset past the register region (R43). -/
def regEnd : Nat := 0x0300

/-- The host may write the register: RW, or the write-one-to-clear `STATUS` (R21). -/
def Reg.writable : Reg → Bool
  | .cmd => true
  | .status => true
  | .aux => true
  | .blksz => true
  | .tidx => true
  | .opd _ => true
  | .id => false
  | .version => false
  | .tcount => false
  | .rlenA => false
  | .rlenB => false
  | .rlenC => false
  | .rflags => false
  | .hamR => false
  | .hamN => false
  | .hamSyn => false
  | .hamStat => false
  | .ppos _ => false
  | .trKind => false
  | .trN0 => false
  | .trN1 => false
  | .trN2 => false
  | .trL0 => false
  | .trL1 => false
  | .trL2 => false
  | .trLP => false

/-- The register is result state: a read while `BUSY = 1` returns an unspecified value (R146). -/
def Reg.isResult : Reg → Bool
  | .tcount => true
  | .rlenA => true
  | .rlenB => true
  | .rlenC => true
  | .rflags => true
  | .hamR => true
  | .hamN => true
  | .hamSyn => true
  | .hamStat => true
  | .ppos _ => true
  | .trKind => true
  | .trN0 => true
  | .trN1 => true
  | .trN2 => true
  | .trL0 => true
  | .trL1 => true
  | .trL2 => true
  | .trLP => true
  | .id => false
  | .version => false
  | .cmd => false
  | .status => false
  | .aux => false
  | .blksz => false
  | .tidx => false
  | .opd _ => false

/-- The register is operand state: the host must not write it while `BUSY = 1` (R145). -/
def Reg.isOperand : Reg → Bool
  | .aux => true
  | .blksz => true
  | .opd _ => true
  | _ => false

/-- `IBUF` is the only buffer the host may write (R43). -/
def Buffer.writable (b : Buffer) : Bool := b == .ibuf

/-- Every buffer but `IBUF` is result state (R146). -/
def Target.isResult : Target → Bool
  | .reg r => r.isResult
  | .buffer b => !(b == .ibuf)

/-- The places a host write may not touch while `BUSY = 1` (R145). -/
def Target.isOperand : Target → Bool
  | .reg r => r.isOperand
  | .buffer b => b == .ibuf

/-- The place may be written (R43, R21). -/
def Target.writable : Target → Bool
  | .reg r => r.writable
  | .buffer b => b.writable

/-- A width in bytes (R44). -/
def Width.bytes : Width → Nat
  | .w1 => 1
  | .w2 => 2
  | .w4 => 4

/-- The place of an access of `n` bytes at an offset, if the width and alignment (R45) and the region (R43) allow
one. A register takes aligned 4-byte accesses only; a buffer takes any naturally aligned one. -/
def targetAt (off : Nat) (n : Width) : Option Target :=
  if off < regEnd then
    if n = .w4 ∧ off % 4 = 0 then (regAt off).map .reg else none
  else if off % n.bytes = 0 then (findBuffer bufferRows off).map .buffer
  else none

/-- Checks 1 and 2 of R44: width and alignment, then region. Both failures are the same bus error (R128). -/
def checkAccess (off : BitVec 16) (n : Width) (kind : AccessKind) : Except Fault Target :=
  match targetAt off.toNat n with
  | none => .error (.busError off n kind)
  | some t =>
    if kind = .write ∧ t.writable = false then .error (.busError off n kind) else .ok t

/-! ### The trace window (R36, R37) -/

/-- The record the window shows: `TRACE[TIDX]` when `TIDX < TCOUNT`. -/
def shownRecord (s : State) : Option TraceRecord :=
  if s.tidx.toNat < s.tcount.toNat then s.trace[s.tidx.toNat]? else none

/-- The record kind codes (R35). -/
def TraceKind.code : TraceKind → Word
  | .crcStep => 1#32
  | .csumAdd => 2#32
  | .csumWrap => 3#32
  | .hamParity => 4#32

/-- A trace window register: a field of the shown record, 0 past the end (R37). -/
def shownWord (s : State) (field : TraceRecord → Word) : Word :=
  match shownRecord s with
  | none => 0#32
  | some t => field t

/-- A byte of a trace string window (R36). -/
def shownStringByte (s : State) (field : TraceRecord → BitString) (i : Nat) : Byte :=
  match shownRecord s with
  | none => 0x00#8
  | some t =>
    match (field t)[i]? with
    | none => 0x00#8
    | some b => chr b

/-- A byte of `TR_POS`: entries of 16 bits, little-endian (R36, R46). -/
def shownPosByte (s : State) (i : Nat) : Byte :=
  match shownRecord s with
  | none => 0x00#8
  | some t =>
    match t.pos[i / 2]? with
    | none => 0x00#8
    | some p => p.extractLsb' (8 * (i % 2)) 8

/-! ### Reads -/

/-- What a register reads (R22 to R34, R36). -/
def Reg.value (s : State) : Reg → Word
  | .id => Config.idValue
  | .version => Config.versionValue
  | .cmd => s.cmd
  | .status => s.status.word
  | .aux => s.aux
  | .blksz => s.blksz.setWidth 32
  | .tidx => s.tidx.setWidth 32
  | .tcount => s.tcount
  | .rlenA => s.rlenA
  | .rlenB => s.rlenB
  | .rlenC => s.rlenC
  | .rflags => s.rflags.word
  | .hamR => s.hamR
  | .hamN => s.hamN
  | .hamSyn => s.hamSyn
  | .hamStat => s.hamStat
  | .ppos k => s.ppos[k]
  | .opd i => s.opd[i]
  | .trKind => shownWord s (fun t => t.kind.code)
  | .trN0 => shownWord s TraceRecord.n0
  | .trN1 => shownWord s TraceRecord.n1
  | .trN2 => shownWord s TraceRecord.n2
  | .trL0 => shownWord s (fun t => lengthWord t.s0)
  | .trL1 => shownWord s (fun t => lengthWord t.s1)
  | .trL2 => shownWord s (fun t => lengthWord t.s2)
  | .trLP => shownWord s (fun t => BitVec.ofNat 32 t.pos.length)

/-- One byte of a buffer region at a window offset; `none` is an unwritten `IBUF` byte (R144). -/
def bufferByte (s : State) (off : Nat) : Buffer → Option Byte
  | .trPos => some (shownPosByte s (off - Config.trPosBase))
  | .trS0 => some (shownStringByte s TraceRecord.s0 (off - Config.trS0Base))
  | .trS1 => some (shownStringByte s TraceRecord.s1 (off - Config.trS1Base))
  | .trS2 => some (shownStringByte s TraceRecord.s2 (off - Config.trS2Base))
  | .ibuf => Memory.read s.mem off
  | .obufA => Memory.read s.mem off
  | .obufB => Memory.read s.mem off
  | .obufC => Memory.read s.mem off

/-- The value of `n` bytes of a buffer, little-endian (R46): byte `off + j` is bits `[8j+7:8j]`. -/
def bufferValue (s : State) (b : Buffer) : Nat → Nat → Option Nat
  | _, 0 => some 0
  | off, n + 1 =>
    match bufferByte s off b, bufferValue s b (off + 1) n with
    | some v, some rest => some (v.toNat + 256 * rest)
    | _, _ => none

/-- The exact value of a place, or the fault of reading an unwritten byte (R144). -/
def targetValue (s : State) (off : Nat) (n : Width) : Target → Except Fault Word
  | .reg r => .ok (r.value s)
  | .buffer b =>
    match bufferValue s b off n.bytes with
    | some v => .ok (BitVec.ofNat 32 v)
    | none => .error .uninit

/-- The low `8n` bits of a free draw (R44, R146). -/
def drawnValue (s : State) (n : Width) : Word :=
  BitVec.ofNat 32 ((Config.resultDraw s.draws).toNat % 2 ^ (8 * n.bytes))

/-- `MemRead(off, n)` (R44): the checks in order, then the value. A read of result state while busy is a draw
(R146). No read changes the block's state (R52): only what the host has seen. -/
def hostRead (off : BitVec 16) (n : Width) (s : State) : Host.Outcome State Fault Refusal :=
  match checkAccess off n .read with
  | .error f => .fault f
  | .ok t =>
    if s.status.busy = true ∧ t.isResult = true then
      .next { s with response := some (drawnValue s n), draws := s.draws + 1 }
    else
      match targetValue s off.toNat n t with
      | .error f => .fault f
      | .ok v => .next { s with response := some v }

/-! ### Writes -/

/-- The low `n` bytes of a value, byte `j` being bits `[8j+7:8j]` (R44, R46). -/
def lowBytes (v : Word) : Nat → List Byte
  | 0 => []
  | n + 1 => v.setWidth 8 :: lowBytes (v >>> 8) n

/-- A write of `v` to a writable register (R25 to R28, R34, R120); reserved bits are ignored (R20). -/
def writeReg (r : Reg) (v : Word) (s : State) : State :=
  match r with
  | .cmd => issueCommand v s
  | .status => if v.getLsbD 3 then clearOverrun s else s
  | .aux => { s with aux := v }
  | .blksz => { s with blksz := v.setWidth 16 }
  | .tidx => { s with tidx := v.setWidth 16 }
  | .opd i => { s with opd := s.opd.set i v }
  | _ => s

/-- A write of `n` bytes into a buffer the host may write: `IBUF` (R49). -/
def writeBuffer (off : Nat) (n : Width) (v : Word) (s : State) : State :=
  { s with mem := Memory.writeBytes s.mem off (lowBytes v n.bytes) }

/-- The effect of an allowed write. -/
def writeTarget (off : Nat) (n : Width) (v : Word) (s : State) : Target → State
  | .reg r => writeReg r v s
  | .buffer _ => writeBuffer off n v s

/-- `MemWrite(off, n, v)` (R44): the checks in order, then the write. A write of operand state while busy is the
fault `HAZARD` (R145). -/
def hostWrite (off : BitVec 16) (n : Width) (v : Word) (s : State) : Host.Outcome State Fault Refusal :=
  match checkAccess off n .write with
  | .error f => .fault f
  | .ok t =>
    if s.status.busy = true ∧ t.isOperand = true then .fault .hazard
    else .next { writeTarget off.toNat n v s t with response := none }

/-- One event from outside: a host access (R44), or a reset between host steps (R141, R142). -/
def hostEvent (e : HostEvent) (s : State) : Host.Outcome State Fault Refusal :=
  match e with
  | .read off n => hostRead off n s
  | .write off n v => hostWrite off n v s
  | .assertReset => .next (assertReset s)

/-! ### The window in the platform's address space (R42, R137) -/

/-- The bus address of a window offset. -/
def busAddress (off : BitVec 16) : Nat := Config.base + off.toNat

/-- The window offset of a bus address, if the address lies in the window. -/
def windowOffset (addr : Nat) : Option (BitVec 16) :=
  if Config.base ≤ addr ∧ addr < Config.base + 0x10000 then some (BitVec.ofNat 16 (addr - Config.base))
  else none

end Sys2Proof.Machine
end

