-- ==== Sys2Proof/Machine/Lifecycle.lean ====
section
/-! DEFINITION. Whose step is next, and that step: the core's completion (60_exceptions.md R121, R122) or the next
event from outside (10_state.md R16). -/

namespace Sys2Proof.Machine

/-- The core's step: `Execute` on the word in `CMD` (R122). An illegal word is phase 1's `IllegalCommand`
(30_encoding.md R61, R63); a legal one runs its command. -/
def completeCommand (s : State) : Host.Outcome State Fault Refusal :=
  match decode s.cmd with
  | .error c => finish (raiseIllegalCommand (causeOfIllegal c)) s
  | .ok i => exec i s

/-- The core takes the next step: a command is in flight (R16) and either its `k` host steps are over (R121) or
the host makes no further access, so that weak fairness gives the core its turn (R149). -/
def coreTurn (s : State) : Bool :=
  s.status.busy && (s.countdown == 0 || s.pending.isEmpty)

/-- The next event from outside, if there is one. With none and the core idle, nothing is enabled and the state
stays (70_reset_and_hazards.md R141: the block executes nothing until the host writes `CMD`). -/
def outsideTurn (s : State) : Host.Outcome State Fault Refusal :=
  match s.pending with
  | [] => .next s
  | e :: rest => hostEvent e { s with pending := rest, countdown := s.countdown - 1 }

/-- One step of the whole machine: exactly one agent moves (R16, R54, R127). -/
def machineStep (s : State) : Host.Outcome State Fault Refusal :=
  if coreTurn s then completeCommand s else outsideTurn s

/-- The state in which the word has just been accepted and completes at once (R120, R121 with `k = 0`). -/
def placeCommand (nbits w : Nat) (s : State) : State :=
  acceptCommand (BitVec.ofNat 32 (w % 2 ^ nbits)) 0 s

end Sys2Proof.Machine
end

