-- ==== Sys2Proof/Machine/Step.lean ====
section
/-! DEFINITION. One step of the machine, and how a command is placed so that the next step runs it. -/

namespace Sys2Proof.Machine

/-- One step (Machine/Lifecycle.lean). -/
def step (s : State) : Host.Outcome State Fault Refusal := machineStep s

/-- The block fetches nothing (10_state.md R18): the "next instruction" is the accepted command word in `CMD`.
The word is accepted (R120) with no host step to wait, so the very next step completes it (log 15). -/
def State.withFetchWord (s : State) (nbits w : Nat) : State := placeCommand nbits w s

end Sys2Proof.Machine
end

