-- ==== Sys2Proof/Machine/HostNotation.lean ====
section
/-! DEFINITION. The straight-line pseudo-instructions of 30_encoding.md R69, each as the host accesses it expands
to. Labels, branches, `AND` and the loop of `POLL` are the host's own control (R67, R69): no access of them is
left out, since `POLL` is some number of the reads given here. -/

namespace Sys2Proof.Machine

/-- `WR off, v` (R69). -/
def wr (off : BitVec 16) (v : Word) : HostEvent := .write off .w4 v

/-- `WRS off, s` (R69): one byte write per character, in order. -/
def wrs (off : BitVec 16) : BitString → List HostEvent
  | [] => []
  | b :: s => .write off .w1 ((chr b).setWidth 32) :: wrs (off + 1) s

/-- A descriptor of offset `o` and length `l` (R34, R69). -/
def descriptor (o l : Nat) : Word := BitVec.ofNat 32 (l * 65536 + o)

/-- `SETOPD i, o, l` (R69). -/
def setOpd (i o l : Nat) : HostEvent := wr (BitVec.ofNat 16 (0x100 + 4 * i)) (descriptor o l)

/-- `SETAUX o, l` (R69). -/
def setAux (o l : Nat) : HostEvent := wr 0x010#16 (descriptor o l)

/-- `ISSUE <command>` (R69). -/
def issue (i : Instr) : HostEvent := wr 0x008#16 (encode i)

/-- `RD off` (R69). -/
def rd (off : BitVec 16) : HostEvent := .read off .w4

/-- `RDS off, l` (R69): one byte read per character. -/
def rds (off : BitVec 16) : Nat → List HostEvent
  | 0 => []
  | l + 1 => .read off .w1 :: rds (off + 1) l

/-- One pass of `POLL` (R69): the read of `STATUS`. -/
def pollRead : HostEvent := rd 0x00C#16

end Sys2Proof.Machine
end

