-- ==== Sys2Proof/Safety.lean ====
section
/-! DEFINITION. The terms the claims are stated in: a safe step, an operand as it stands in `IBUF`, the two shapes a
completed command leaves, and the invariants of the machine. Written from the spec's words, not from the meanings. -/

namespace Sys2Proof.Machine

/-- The next step is no fault and no refusal (60_exceptions.md R129: a state that holds a fault is no final state
of a run). -/
def Safe (s : State) : Prop := ∃ t, step s = .next t

/-- The character of bit `i` of a string in a buffer: `0x30` or `0x31` inside it, the fill byte `0x00` past its end
(20_memory.md R48, 40_bitstring.md R73). -/
def fillChar (s : BitString) (i : Nat) : Byte :=
  match s[i]? with
  | some true => 0x31#8
  | some false => 0x30#8
  | none => 0x00#8

/-- The descriptor names the string `bits`, a legal operand: 1 to `MAXLEN` characters, inside `IBUF`, each written
and each the character of its bit (10_state.md R34, 40_bitstring.md R70, R71). -/
abbrev HoldsOperand (s : State) (d : Word) (bits : BitString) : Prop :=
  bits.length = descLen d ∧ 1 ≤ descLen d ∧ descLen d ≤ 512 ∧ descOff d + descLen d ≤ 4096 ∧
    ∀ i < bits.length, Memory.read s.mem (0x2000 + descOff d + i) = some (fillChar bits i)

/-- `t` is `s` after a successful completion with result `r` (60_exceptions.md R121): every result register and
every `OBUF` byte is written, nothing else changes. -/
structure Committed (s t : State) (r : Result) : Prop where
  obufA     : ∀ a < 1024, Memory.read t.mem (0x3000 + a) = some (fillChar r.a a)
  obufB     : ∀ a < 1024, Memory.read t.mem (0x3400 + a) = some (fillChar r.b a)
  obufC     : ∀ a < 1024, Memory.read t.mem (0x3800 + a) = some (fillChar r.c a)
  elsewhere : ∀ a, a < 0x3000 ∨ 0x3C00 ≤ a → Memory.read t.mem a = Memory.read s.mem a
  rlenA     : t.rlenA = BitVec.ofNat 32 r.a.length
  rlenB     : t.rlenB = BitVec.ofNat 32 r.b.length
  rlenC     : t.rlenC = BitVec.ofNat 32 r.c.length
  valid     : t.rflags.valid = r.valid
  parity    : t.rflags.parity = r.parity
  hamR      : t.hamR = BitVec.ofNat 32 r.hamR
  hamN      : t.hamN = BitVec.ofNat 32 r.hamN
  hamSyn    : t.hamSyn = BitVec.ofNat 32 r.hamSyn
  hamStat   : t.hamStat = BitVec.ofNat 32 r.hamStat
  ppos      : t.ppos = r.ppos
  trace     : t.trace = r.trace
  tcount    : t.tcount = BitVec.ofNat 32 r.trace.length
  status    : t.status = { s.status with busy := false, done := true, err := false }
  operands  : t.cmd = s.cmd ∧ t.aux = s.aux ∧ t.blksz = s.blksz ∧ t.tidx = s.tidx ∧ t.opd = s.opd
  outside   : t.pending = s.pending ∧ t.response = s.response ∧ t.draws = s.draws

/-- `t` is `s` after a completion that reports an error with these codes (60_exceptions.md R121, R125): `STATUS` is
written, nothing else changes (the command's countdown, which is the model's own, is over). -/
def Reported (s t : State) (kind field idx cause : Nat) : Prop :=
  t = { s with
    countdown := 0
    status :=
      { busy := false, done := true, err := true, ovr := s.status.ovr
        errKind := BitVec.ofNat 4 kind, errField := BitVec.ofNat 4 field
        errIdx := BitVec.ofNat 8 idx, errCause := BitVec.ofNat 8 cause } }

/-! ### Invariants -/

/-- The buffers' bytes are in canonical form. -/
def MemoryCanonical (s : State) : Prop := Memory.wf s.mem

/-- The error fields are all 0 whenever `ERR = 0`, and a command in flight has no outcome bit set (10_state.md R24,
60_exceptions.md R120). -/
def ReportConsistent (s : State) : Prop :=
  (s.status.err = false →
    s.status.errKind = 0#4 ∧ s.status.errField = 0#4 ∧ s.status.errIdx = 0#8 ∧ s.status.errCause = 0#8) ∧
  (s.status.busy = true → s.status.done = false ∧ s.status.err = false)

/-- The codes that are never written stay unwritten (10_state.md R24, 45_hamming.md R117): `ERRKIND` past 3,
`ERRFIELD` past 4, `ERRCAUSE` past 14, `HAM_STAT` past 2; and `ERRIDX` is 0 unless the field is `OPD`. -/
def CodesInRange (s : State) : Prop :=
  s.status.errKind.toNat ≤ 3 ∧ s.status.errField.toNat ≤ 4 ∧ s.status.errCause.toNat ≤ 14 ∧
    s.hamStat.toNat ≤ 2 ∧ (s.status.errField ≠ 2#4 → s.status.errIdx = 0#8)

/-- `TCOUNT = TRACE.len` (10_state.md R35). -/
def TraceCounted (s : State) : Prop := s.tcount.toNat = s.trace.length

/-- The trace and its records are within `TMAX`, `TSTR_SIZE` and `TPOS_MAX` (10_state.md R35, 00_scope.md R8). -/
def TraceFits (s : State) : Prop :=
  s.trace.length ≤ 1024 ∧
    ∀ rec ∈ s.trace,
      rec.s0.length ≤ 1024 ∧ rec.s1.length ≤ 1024 ∧ rec.s2.length ≤ 1024 ∧ rec.pos.length ≤ 512

/-- A result region holds a string of its `RLEN` characters `0x30` or `0x31`, then `0x00` to its end
(20_memory.md R48, 40_bitstring.md R73). -/
def RegionHoldsString (s : State) (base : Nat) (len : Word) : Prop :=
  len.toNat ≤ 1024 ∧
    ∀ a < 1024,
      (a < len.toNat →
        Memory.read s.mem (base + a) = some 0x30#8 ∨ Memory.read s.mem (base + a) = some 0x31#8) ∧
      (len.toNat ≤ a → Memory.read s.mem (base + a) = some 0x00#8)

/-- Every result region holds a string of its length. -/
def ResultsAreStrings (s : State) : Prop :=
  RegionHoldsString s 0x3000 s.rlenA ∧ RegionHoldsString s 0x3400 s.rlenB ∧
    RegionHoldsString s 0x3800 s.rlenC

/-- A command in flight completes within `LAT` host steps (00_scope.md R7, 70_reset_and_hazards.md R149), and no
command waits while none is in flight. -/
def LatencyBounded (s : State) : Prop :=
  s.countdown ≤ Config.lat ∧ (s.status.busy = false → s.countdown = 0)

end Sys2Proof.Machine
end

