-- ==== Sys2Proof/Certificates/Slice0/Obligations.lean ====
section
/-! DEFINITION. The statements about the machine, each from the numbered rules of spec/. First the words they are said
in (namespace Sys2Proof.Claims), written from the spec and not from the meanings. -/

namespace Sys2Proof.Claims

open Sys2Proof.Machine

/-- A command's completion ends as a phase of `Execute` stopped (60_exceptions.md R121, R125): an error report writes
`STATUS` and nothing else, a model fault stops the run. -/
def StopsAs (out : Host.Outcome State Fault Refusal) (s : State) : Stop → Prop
  | .error e =>
    ∃ t, out = .next t ∧ Reported s t e.kind.code.toNat e.field.code.toNat e.idx e.cause.code.toNat
  | .fault f => out = .fault f

/-- A command's completion reports an error with these codes (R124, R125). -/
def Reports (out : Host.Outcome State Fault Refusal) (s : State) (kind field idx cause : Nat) : Prop :=
  ∃ t, out = .next t ∧ Reported s t kind field idx cause

/-- `OPD[0]` to `OPD[k-1]` name the `k` strings of the list (42_lrc.md R81). -/
def HoldsBlocks (s : State) (bs : List BitString) : Prop :=
  ∀ (i : Nat) (_ : i < 64), i < bs.length → HoldsOperand s s.opd[i] (bs.getD i [])

/-- A result region holds the string its `RLEN` register counts (40_bitstring.md R73). -/
def HoldsResult (s : State) (base : Nat) (len : Word) (c : BitString) : Prop :=
  c.length = len.toNat ∧ ∀ i < c.length, Memory.read s.mem (base + i) = some (fillChar c i)

/-- The policy's parity: even policies ask for an even count of ones, odd ones for an odd count (40_bitstring.md
R75). -/
def policyParity (even : Bool) : Nat := if even then 0 else 1

/-- The positions where two strings differ. -/
def differences (a b : BitString) : Nat := (List.zipWith (fun x y => x ^^ y) a b).count true

/-- Bit `j` of every block: column `j` (42_lrc.md R82). -/
def columnBits (bs : List BitString) (j : Nat) : BitString := bs.map (fun b => b.getD j false)

/-- Block `j` of checksum data (44_checksum.md R98). -/
def dataBlock (d : BitString) (k j : Nat) : BitString := (d.drop (j * k)).take k

/-- The sum of all block values (44_checksum.md R98, R101). -/
def blockSum (d : BitString) (k : Nat) : Nat :=
  ((List.range (d.length / k)).map (fun j => bitsVal (dataBlock d k j))).sum

/-- `C_k(N)` (45_hamming.md R111). -/
def coveredBy (k n : Nat) : List Nat := (List.range' 1 n).filter (fun p => p / 2 ^ k % 2 == 1)

/-- `c[p]`, counted from 1 (45_hamming.md R108). -/
def posBit (c : BitString) (p : Nat) : Bool := c.getD (p - 1) false

/-- The data positions of a word of `n` positions with `r` parity positions `2^0` to `2^(r-1)` (45_hamming.md
R109, R110). -/
def dataPositions (r n : Nat) : List Nat :=
  (List.range' 1 n).filter (fun p => !((List.range r).map (fun k => 2 ^ k)).contains p)

/-- The command a row of the opcode map stands for, with the word's `EVEN` and `NOPD` fields (30_encoding.md R62). -/
def rowInstr (m : Mnemonic) (even : Bool) (nopd : Nat) : Instr :=
  match m with
  | .vrcEnc => .vrcEnc even
  | .vrcVer => .vrcVer even
  | .lrcEnc => .lrcEnc even nopd
  | .lrcVer => .lrcVer even nopd
  | .crcEnc => .crcEnc
  | .crcVer => .crcVer
  | .csumEnc => .csumEnc
  | .csumVer => .csumVer
  | .hamEnc => .hamEnc
  | .hamVer => .hamVer

/-- A word lies in the opcode map (R62): a row matches it, and an LRC count is at most `MAXBLK`. -/
def InOpcodeMap (w : Word) : Prop :=
  ∃ r ∈ opcodeMap, w &&& r.mask = r.bits ∧
    ((r.mnemonic = .lrcEnc ∨ r.mnemonic = .lrcVer) → w.toNat / 256 % 128 ≤ 64)

/-- The code of an illegal word's cause (60_exceptions.md R124). -/
def illegalCode : IllegalCause → Nat
  | .reservedBits => 12
  | .badUnit => 13
  | .badNopd => 14

/-- A command word fails a legality check with this cause (30_encoding.md R61): the decoder rejects it, and the
completion that finds it in `CMD` is `IllegalCommand`, whatever the operands. -/
def RejectedWith (w : Word) (c : IllegalCause) : Prop :=
  decode w = .error c ∧ ∀ s : State, s.cmd = w → Reports (completeCommand s) s 3 1 0 (illegalCode c)

/-- The polynomial over GF(2) of a bit-string, first bit at the highest power (43_crc.md R90). -/
noncomputable def toPoly (s : BitString) : Polynomial (ZMod 2) :=
  s.foldl (fun p b => p * Polynomial.X + Polynomial.C (if b then 1 else 0)) 0

/-- A host access that breaks the interface contract (60_exceptions.md R128, 20_memory.md R43, R45, 10_state.md
R21): bad width or alignment, a reserved offset, a write to a read-only place. -/
def BadAccess (off n : Nat) (kind : AccessKind) : Prop :=
  (off < 0x300 ∧ (n ≠ 4 ∨ off % 4 ≠ 0)) ∨
  (((0x400 ≤ off ∧ off < 0x1400) ∨ (0x2000 ≤ off ∧ off < 0x3C00)) ∧ off % n ≠ 0) ∨
  (0x80 ≤ off ∧ off < 0x100) ∨ (0x220 ≤ off ∧ off < 0x400) ∨ (0x1400 ≤ off ∧ off < 0x2000) ∨
    0x3C00 ≤ off ∨
  (kind = .write ∧
    (off < 0x008 ∨ (0x01C ≤ off ∧ off < 0x080) ∨ (0x200 ≤ off ∧ off < 0x220) ∨
      (0x400 ≤ off ∧ off < 0x1400) ∨ (0x3000 ≤ off ∧ off < 0x3C00)))

/-- The offset is result state (70_reset_and_hazards.md R146). -/
def ResultOffset (off : Nat) : Prop :=
  (0x01C ≤ off ∧ off < 0x080) ∨ (0x200 ≤ off ∧ off < 0x220) ∨ (0x400 ≤ off ∧ off < 0x1400) ∨
    (0x3000 ≤ off ∧ off < 0x3C00)

/-- The offset is operand state (70_reset_and_hazards.md R145): `IBUF`, an `OPD[i]`, `AUX` or `BLKSZ`. -/
def OperandOffset (off : Nat) : Prop :=
  (0x2000 ≤ off ∧ off < 0x3000) ∨ (0x100 ≤ off ∧ off < 0x200) ∨ off = 0x010 ∨ off = 0x014

/-- A host read answers a value and changes nothing of the block. -/
def ReadsAs (s : State) (off : BitVec 16) (n : Width) (v : Word) : Prop :=
  hostRead off n s = .next { s with response := some v }

/-- The word of `n` bytes, byte `j` at bits `[8j+7:8j]` (20_memory.md R46). -/
def littleEndian (b : Nat → Byte) (n : Nat) : Word :=
  BitVec.ofNat 32 ((List.range n).map (fun j => (b j).toNat * 2 ^ (8 * j))).sum

/-- The operand checks of `CRC.ENC` and `CRC.VER` (43_crc.md R87), first failure first. -/
def CrcValidates (i : Instr) (verify : Bool) : Prop :=
  ∀ s : State,
    (∀ stop, readOperand s .opd 0 s.opd[0] = .error stop → StopsAs (exec i s) s stop) ∧
    (∀ x stop, HoldsOperand s s.opd[0] x → readOperand s .aux 0 s.aux = .error stop →
      StopsAs (exec i s) s stop) ∧
    (∀ x g, HoldsOperand s s.opd[0] x → HoldsOperand s s.aux g →
      (g.length < 2 → Reports (exec i s) s 1 3 0 5) ∧
      (2 ≤ g.length → g.head? = some false → Reports (exec i s) s 1 3 0 6) ∧
      (2 ≤ g.length → g.head? = some true → verify = true → x.length < g.length →
        Reports (exec i s) s 2 2 0 11))

/-- The operand checks of `LRC.ENC` and `LRC.VER` for a count `k` (42_lrc.md R81, R83), first failure first: a
block's own failure, then (verify) that of `AUX`, then no blocks, then the first block of another length. A count
past `MAXBLK` is `BAD_NOPD`. -/
def LrcValidates (i : Nat → Instr) (verify : Bool) : Prop :=
  ∀ s : State,
    (∀ k, 64 < k → Reports (exec (i k) s) s 3 1 0 14) ∧
    (∀ k bs stop, k ≤ 64 → bs.length < k → HoldsBlocks s bs →
      (∀ d, s.opd[bs.length]? = some d → readOperand s .opd bs.length d = .error stop →
        StopsAs (exec (i k) s) s stop)) ∧
    (∀ bs stop, verify = true → bs.length ≤ 64 → HoldsBlocks s bs →
      readOperand s .aux 0 s.aux = .error stop → StopsAs (exec (i bs.length) s) s stop) ∧
    ((verify = true → ∃ rl, HoldsOperand s s.aux rl) →
      Reports (exec (i 0) s) s 2 2 0 8 ∧
      ∀ bs j, bs.length ≤ 64 → HoldsBlocks s bs → j < bs.length →
        (bs.getD j []).length ≠ (bs.getD 0 []).length →
        (∀ l < j, (bs.getD l []).length = (bs.getD 0 []).length) →
        Reports (exec (i bs.length) s) s 2 2 j 9)

/-- The operand checks of `CSUM.ENC` and `CSUM.VER` (44_checksum.md R97), first failure first. -/
def CsumValidates (i : Instr) : Prop :=
  ∀ s : State,
    (∀ stop, readOperand s .opd 0 s.opd[0] = .error stop → StopsAs (exec i s) s stop) ∧
    (∀ d, HoldsOperand s s.opd[0] d →
      (s.blksz.toNat = 0 → Reports (exec i s) s 1 4 0 7) ∧
      (s.blksz.toNat ≠ 0 → d.length % s.blksz.toNat ≠ 0 → Reports (exec i s) s 2 2 0 10))

end Sys2Proof.Claims

open Sys2Proof Sys2Proof.Machine Sys2Proof.Claims

/-! ### Reset -/

/-- 10_state.md R41: the state after reset, register by register; `OBUF` all `0x00`, `IBUF` unwritten, `TRACE` empty
and its window all zero, no command in flight. -/
def Obligations.ResetStateIsTheTable : Prop :=
  Reg.value State.reset .id = 0x45444331#32 ∧ Reg.value State.reset .version = 0x00000001#32 ∧
  State.reset.cmd = 0#32 ∧ State.reset.status.word = 0#32 ∧ State.reset.status.busy = false ∧
  State.reset.aux = 0#32 ∧ State.reset.blksz = 0#16 ∧ State.reset.tidx = 0#16 ∧ State.reset.tcount = 0#32 ∧
  State.reset.rlenA = 0#32 ∧ State.reset.rlenB = 0#32 ∧ State.reset.rlenC = 0#32 ∧
  State.reset.rflags.word = 0#32 ∧ State.reset.hamR = 0#32 ∧ State.reset.hamN = 0#32 ∧
  State.reset.hamSyn = 0#32 ∧ State.reset.hamStat = 0#32 ∧
  (∀ k : Fin 16, State.reset.ppos[k] = 0#32) ∧ (∀ i : Fin 64, State.reset.opd[i] = 0#32) ∧
  State.reset.trace = [] ∧
  (∀ a, 0x3000 ≤ a → a < 0x3C00 → Memory.read State.reset.mem a = some 0x00#8) ∧
  (∀ a, 0x2000 ≤ a → a < 0x3000 → Memory.read State.reset.mem a = none) ∧
  (∀ k < 8, ReadsAs State.reset (BitVec.ofNat 16 (0x200 + 4 * k)) .w4 0#32) ∧
  ∀ a, 0x400 ≤ a → a < 0x1400 → ReadsAs State.reset (BitVec.ofNat 16 a) .w1 0#32

/-- 70_reset_and_hazards.md R141: when reset is asserted, every piece of state takes its value of R41, whatever was in
flight. What the outside has still to do and the count of draws are the model's own fields (log 5). -/
def Obligations.ResetEventRestoresTheResetState : Prop :=
  ∀ (s : State) (rest : List HostEvent), coreTurn s = false → s.pending = .assertReset :: rest →
    step s = .next { State.reset with pending := rest, draws := s.draws }

/-! ### Whose step it is -/

/-- A step in the core's turn is the completion of the word in `CMD` (60_exceptions.md R121, R122): a legal word runs
its command. The turn is the model's own scheduling (log 3): the command's host steps are over, or the host makes no
further access. -/
def Obligations.StepRunsTheAcceptedCommand : Prop :=
  ∀ (s : State) (i : Instr), s.status.busy = true → (s.countdown = 0 ∨ s.pending = []) →
    decode s.cmd = .ok i → step s = exec i s

/-- Outside the core's turn the step is the next event from outside, and one host step of the in-flight command is
over; with nothing pending and no command in flight the state stays (10_state.md R16; logs 2, 3 and 12). -/
def Obligations.StepTakesTheNextHostEvent : Prop :=
  (∀ (s : State) (e : HostEvent) (rest : List HostEvent), s.pending = e :: rest →
    (s.status.busy = false ∨ s.countdown ≠ 0) →
    step s = hostEvent e { s with pending := rest, countdown := s.countdown - 1 }) ∧
  (∀ s : State, s.pending = [] → s.status.busy = false → step s = .next s)

/-! ### The command word -/

/-- Words written out from 30_encoding.md R58 and R62 decode to the commands they stand for, one or more of each
unit. -/
def Obligations.SampleWordsDecode : Prop :=
  decode 0x00000111#32 = .ok (.vrcEnc true) ∧ decode 0x00000109#32 = .ok (.vrcVer false) ∧
  decode 0x00000412#32 = .ok (.lrcEnc true 4) ∧ decode 0x0000030A#32 = .ok (.lrcVer false 3) ∧
  decode 0x00000103#32 = .ok .crcEnc ∧ decode 0x0000010B#32 = .ok .crcVer ∧
  decode 0x00000104#32 = .ok .csumEnc ∧ decode 0x0000010C#32 = .ok .csumVer ∧
  decode 0x00000105#32 = .ok .hamEnc ∧ decode 0x0000010D#32 = .ok .hamVer

/-- 30_encoding.md R61: the legality checks, in the rule's order, made at completion before any operand is read; a
word that passes them selects a command, and the completion runs it. -/
def Obligations.LegalityChecksInOrder : Prop :=
  ∀ w : Word,
    if w.toNat / 2 ^ 15 ≠ 0 ∨ w.toNat / 32 % 8 ≠ 0 then RejectedWith w .reservedBits
    else if w.toNat % 8 = 0 ∨ 5 < w.toNat % 8 then RejectedWith w .badUnit
    else if 3 ≤ w.toNat % 8 ∧ w.toNat / 16 % 2 = 1 then RejectedWith w .reservedBits
    else if w.toNat % 8 ≠ 2 ∧ w.toNat / 256 % 128 ≠ 1 then RejectedWith w .badNopd
    else if w.toNat % 8 = 2 ∧ 64 < w.toNat / 256 % 128 then RejectedWith w .badNopd
    else ∃ i, decode w = .ok i ∧ ∀ s : State, s.cmd = w → completeCommand s = exec i s

/-- 30_encoding.md R62: a word selects a command exactly when it matches that command's row (and an LRC count is at
most `MAXBLK`), with the row's free fields read from the word; no word matches two rows. -/
def Obligations.DecoderAgreesWithTheOpcodeMap : Prop :=
  (∀ (w : Word) (i : Instr),
    decode w = .ok i ↔
      ∃ r ∈ opcodeMap, w &&& r.mask = r.bits ∧
        ((r.mnemonic = .lrcEnc ∨ r.mnemonic = .lrcVer) → w.toNat / 256 % 128 ≤ 64) ∧
        i = rowInstr r.mnemonic (w.toNat / 16 % 2 == 1) (w.toNat / 256 % 128)) ∧
  ∀ w : Word, ∀ r ∈ opcodeMap, ∀ q ∈ opcodeMap,
    w &&& r.mask = r.bits → w &&& q.mask = q.bits → r = q

/-- Decoding the word of a well-formed command gives the command back, with every operand field. -/
def Obligations.DecodeOfEncode : Prop :=
  ∀ i : Instr, WellFormed i = true → decode (encode i) = .ok i

/-- A word that decodes is the word of its command, and the command is well-formed: each command has one word. -/
def Obligations.EncodeOfDecode : Prop :=
  ∀ (w : Word) (i : Instr), decode w = .ok i → WellFormed i = true ∧ encode i = w

/-- 30_encoding.md R63: a word outside the map is accepted when written to an idle core, and completes with
`IllegalCommand` and the cause of R61; it is never a bus error. -/
def Obligations.IllegalWordsCompleteWithIllegalCommand : Prop :=
  ∀ w : Word, ¬ InOpcodeMap w →
    (∀ s : State, s.status.busy = false →
      ∃ k, hostWrite 0x008#16 .w4 w s =
        .next { acceptCommand w k s with draws := s.draws + 1, response := none }) ∧
    ∃ c, decode w = .error c ∧
      ∀ s : State, s.cmd = w → s.status.busy = true → (s.countdown = 0 ∨ s.pending = []) →
        Reports (step s) s 3 1 0 (illegalCode c)

/-- 30_encoding.md R68: the assembler refuses exactly a parity keyword on CRC, CSUM or HAM, a missing one on VRC or
LRC, a block count outside 0 to `MAXBLK`, and a block count where the syntax has none or none where it has one; every
other line gives the word of the command it names, `even` as `EVEN = 1`. The rule's three examples. -/
def Obligations.AssemblerAcceptsExactlyItsSyntax : Prop :=
  (∀ l : AsmLine,
    assemble l = none ↔
      (l.parity.isSome ≠
        (l.mnemonic == .vrcEnc || l.mnemonic == .vrcVer || l.mnemonic == .lrcEnc || l.mnemonic == .lrcVer)) ∨
      (l.count.isSome ≠ (l.mnemonic == .lrcEnc || l.mnemonic == .lrcVer)) ∨
      (∃ n, l.count = some n ∧ 64 < n)) ∧
  (∀ (l : AsmLine) (w : Word), assemble l = some w →
    decode w = .ok (rowInstr l.mnemonic (l.parity.getD false) (l.count.getD 1))) ∧
  assemble ⟨.vrcEnc, some true, none⟩ = some 0x00000111#32 ∧
  assemble ⟨.lrcVer, some false, some 3⟩ = some 0x0000030A#32 ∧
  assemble ⟨.crcEnc, none, none⟩ = some 0x00000103#32

/-! ### Bit-strings and operands -/

/-- 00_scope.md R10: a bit-string's value is read most significant bit first, and `bin_k(v)` is the `k`-bit string
of value `v`. -/
def Obligations.BitStringValueIsMsbFirst : Prop :=
  (∀ s : BitString,
    bitsVal s = ((List.range s.length).map (fun i => (s.getD i false).toNat * 2 ^ (s.length - 1 - i))).sum) ∧
  (∀ k v : Nat, v < 2 ^ k → (binOf k v).length = k ∧ bitsVal (binOf k v) = v) ∧
  ∀ s : BitString, binOf s.length (bitsVal s) = s

/-- 40_bitstring.md R71: `ReadOperand`, its checks in the rule's order of precedence, for a descriptor of any
register. -/
def Obligations.ReadOperandChecksInOrder : Prop :=
  ∀ (s : State) (field : ErrField) (idx : Nat) (d : Word),
    (descLen d = 0 →
      readOperand s field idx d = raiseInvalidInput field idx .empty) ∧
    (512 < descLen d →
      readOperand s field idx d = raiseInvalidInput field idx .tooLong) ∧
    (1 ≤ descLen d → descLen d ≤ 512 → 4096 < descOff d + descLen d →
      readOperand s field idx d = raiseInvalidInput field idx .outOfBounds) ∧
    (1 ≤ descLen d → descLen d ≤ 512 → descOff d + descLen d ≤ 4096 →
      (∃ i < descLen d, Memory.read s.mem (0x2000 + descOff d + i) = none) →
      readOperand s field idx d = .error (.fault .uninit)) ∧
    (1 ≤ descLen d → descLen d ≤ 512 → descOff d + descLen d ≤ 4096 →
      (∀ i < descLen d, Memory.read s.mem (0x2000 + descOff d + i) ≠ none) →
      (∃ i < descLen d, Memory.read s.mem (0x2000 + descOff d + i) ≠ some 0x30#8 ∧
        Memory.read s.mem (0x2000 + descOff d + i) ≠ some 0x31#8) →
      readOperand s field idx d = raiseInvalidInput field idx .nonBinary) ∧
    (∀ bits, HoldsOperand s d bits → readOperand s field idx d = .ok bits) ∧
    (∀ bits, readOperand s field idx d = .ok bits → HoldsOperand s d bits)

/-! ### The ten commands: encoding, result with its frame, and how the command fails -/

/-- 41_vrc.md R77: `VRC.ENC` appends the bit that gives the codeword the policy's parity. -/
def Obligations.VrcEncAppendsTheParityBit : Prop :=
  ∀ (even : Bool) (s : State),
    encode (.vrcEnc even) = (if even then 0x00000111#32 else 0x00000101#32) ∧
    (∀ d, HoldsOperand s s.opd[0] d →
      ∃ p t, exec (.vrcEnc even) s = .next t ∧ (d ++ [p]).count true % 2 = policyParity even ∧
        Committed s t { a := d ++ [p], parity := p }) ∧
    (∀ stop, readOperand s .opd 0 s.opd[0] = .error stop → StopsAs (exec (.vrcEnc even) s) s stop)

/-- 41_vrc.md R78: `VRC.VER` accepts exactly when the whole unit's count of ones has the policy's parity. -/
def Obligations.VrcVerChecksTheWholeUnit : Prop :=
  ∀ (even : Bool) (s : State),
    encode (.vrcVer even) = (if even then 0x00000119#32 else 0x00000109#32) ∧
    (∀ rcv, HoldsOperand s s.opd[0] rcv →
      ∃ t, exec (.vrcVer even) s = .next t ∧
        Committed s t { valid := decide (rcv.count true % 2 = policyParity even) }) ∧
    (∀ stop, readOperand s .opd 0 s.opd[0] = .error stop → StopsAs (exec (.vrcVer even) s) s stop)

/-- 42_lrc.md R83: `LRC.ENC` writes the string whose bit `j` gives column `j` the policy's parity (R82). -/
def Obligations.LrcEncWritesTheColumnParities : Prop :=
  ∀ even : Bool,
    (∀ k ≤ 64, (encode (.lrcEnc even k)).toNat = 2 + 16 * even.toNat + 256 * k) ∧
    (∀ (s : State) (bs : List BitString) (len : Nat), 1 ≤ bs.length → bs.length ≤ 64 → HoldsBlocks s bs →
      (∀ b ∈ bs, b.length = len) →
      ∃ lrc t, exec (.lrcEnc even bs.length) s = .next t ∧ lrc.length = len ∧
        (∀ j < len, ((columnBits bs j).count true + (lrc.getD j false).toNat) % 2 = policyParity even) ∧
        Committed s t { a := lrc }) ∧
    LrcValidates (fun k => .lrcEnc even k) false

/-- 42_lrc.md R84: `LRC.VER` writes the recomputed LRC and accepts exactly when the received one equals it, length
included. -/
def Obligations.LrcVerComparesTheColumnParities : Prop :=
  ∀ even : Bool,
    (∀ k ≤ 64, (encode (.lrcVer even k)).toNat = 10 + 16 * even.toNat + 256 * k) ∧
    (∀ (s : State) (bs : List BitString) (len : Nat) (rl : BitString), 1 ≤ bs.length → bs.length ≤ 64 →
      HoldsBlocks s bs → HoldsOperand s s.aux rl → (∀ b ∈ bs, b.length = len) →
      ∃ lrc t, exec (.lrcVer even bs.length) s = .next t ∧ lrc.length = len ∧
        (∀ j < len, ((columnBits bs j).count true + (lrc.getD j false).toNat) % 2 = policyParity even) ∧
        Committed s t { a := lrc, valid := decide (rl = lrc) }) ∧
    LrcValidates (fun k => .lrcVer even k) true

/-- 43_crc.md R91: `CRC.ENC` divides the data followed by `n-1` zeros and appends the remainder. -/
def Obligations.CrcEncAppendsTheRemainder : Prop :=
  encode .crcEnc = 0x00000103#32 ∧
  (∀ (s : State) (d g : BitString), HoldsOperand s s.opd[0] d → HoldsOperand s s.aux g → 2 ≤ g.length →
    g.head? = some true →
    ∃ rem q steps t, exec .crcEnc s = .next t ∧
      mod2Div (d ++ List.replicate (g.length - 1) false) g = some ⟨rem, q, steps⟩ ∧
      rem.length = g.length - 1 ∧ q.length = d.length ∧ steps.length = d.length ∧
      Committed s t { a := d ++ rem, b := rem, c := q, trace := steps }) ∧
  CrcValidates .crcEnc false

/-- 43_crc.md R94: `CRC.VER` divides the codeword as it is and accepts exactly a zero remainder. -/
def Obligations.CrcVerAcceptsAZeroRemainder : Prop :=
  encode .crcVer = 0x0000010B#32 ∧
  (∀ (s : State) (cw g : BitString), HoldsOperand s s.opd[0] cw → HoldsOperand s s.aux g → 2 ≤ g.length →
    g.head? = some true → g.length ≤ cw.length →
    ∃ rem q steps t, exec .crcVer s = .next t ∧ mod2Div cw g = some ⟨rem, q, steps⟩ ∧
      rem.length = g.length - 1 ∧ q.length = cw.length - g.length + 1 ∧
      Committed s t
        { b := rem, c := q, valid := decide (rem = List.replicate (g.length - 1) false) }) ∧
  CrcValidates .crcVer true

/-- 44_checksum.md R102: `CSUM.ENC` writes the folded sum and its complement, and the records of the accumulation. -/
def Obligations.CsumEncWritesSumAndComplement : Prop :=
  encode .csumEnc = 0x00000104#32 ∧
  (∀ (s : State) (d : BitString), HoldsOperand s s.opd[0] d → 1 ≤ s.blksz.toNat →
    d.length % s.blksz.toNat = 0 →
    ∃ t, exec .csumEnc s = .next t ∧
      Committed s t
        { a := binOf s.blksz.toNat (checksumOf d s.blksz.toNat).sum
          b := (binOf s.blksz.toNat (checksumOf d s.blksz.toNat).sum).map (fun x => !x)
          trace := (checksumOf d s.blksz.toNat).recs }) ∧
  CsumValidates .csumEnc

/-- 44_checksum.md R105: `CSUM.VER` re-sums the received data and accepts exactly the sum of all ones. -/
def Obligations.CsumVerAcceptsAllOnes : Prop :=
  encode .csumVer = 0x0000010C#32 ∧
  (∀ (s : State) (d : BitString), HoldsOperand s s.opd[0] d → 1 ≤ s.blksz.toNat →
    d.length % s.blksz.toNat = 0 →
    ∃ t, exec .csumVer s = .next t ∧
      Committed s t
        { a := binOf s.blksz.toNat (checksumOf d s.blksz.toNat).sum
          b := (binOf s.blksz.toNat (checksumOf d s.blksz.toNat).sum).map (fun x => !x)
          valid := decide ((checksumOf d s.blksz.toNat).sum = 2 ^ s.blksz.toNat - 1) }) ∧
  CsumValidates .csumVer

/-- 45_hamming.md R113, R115: `HAM.ENC` writes the codeword of `m + r` positions, `r` least with `2^r >= m + r + 1`,
the data in the data positions in order, each parity bit the XOR of the bits it covers, and one record per parity
bit. -/
def Obligations.HamEncBuildsTheCodeword : Prop :=
  encode .hamEnc = 0x00000105#32 ∧
  ∀ s : State,
    (∀ d, HoldsOperand s s.opd[0] d →
      ∃ r c t, exec .hamEnc s = .next t ∧
        d.length + r + 1 ≤ 2 ^ r ∧ (∀ q < r, 2 ^ q < d.length + q + 1) ∧
        c.length = d.length + r ∧
        (dataPositions r (d.length + r)).map (posBit c) = d ∧
        (∀ k < r,
          (posBit c (2 ^ k)).toNat =
            (((coveredBy k (d.length + r)).filter (fun p => p != 2 ^ k)).map (posBit c)).count true % 2) ∧
        Committed s t
          { a := c, hamR := r, hamN := d.length + r
            ppos := Vector.ofFn (fun k : Fin 16 => if k.val < r then BitVec.ofNat 32 (2 ^ k.val) else 0#32)
            trace := (List.range r).map (fun k =>
              { kind := .hamParity, n0 := BitVec.ofNat 32 k, n1 := BitVec.ofNat 32 (2 ^ k)
                n2 := BitVec.ofNat 32 (posBit c (2 ^ k)).toNat
                s0 := ((coveredBy k (d.length + r)).filter (fun p => p != 2 ^ k)).map (posBit c)
                s1 := [], s2 := []
                pos := (coveredBy k (d.length + r)).map (BitVec.ofNat 16) }) }) ∧
    (∀ stop, readOperand s .opd 0 s.opd[0] = .error stop → StopsAs (exec .hamEnc s) s stop)

/-- 45_hamming.md R116, R117: `HAM.VER` computes the syndrome, bit `k` of which is 1 exactly when check `k` fails, and
flips the position it names when there is one. -/
def Obligations.HamVerCorrectsTheNamedPosition : Prop :=
  encode .hamVer = 0x0000010D#32 ∧
  ∀ s : State,
    (∀ c, HoldsOperand s s.opd[0] c →
      ∃ syn t, exec .hamVer s = .next t ∧
        (∀ k, syn.testBit k =
          (decide (2 ^ k ≤ c.length) &&
            decide (((coveredBy k c.length).map (posBit c)).count true % 2 = 1))) ∧
        Committed s t
          { a := if 1 ≤ syn ∧ syn ≤ c.length then c.set (syn - 1) (!(posBit c syn)) else c
            hamSyn := syn
            hamStat := if syn = 0 then 0 else if syn ≤ c.length then 1 else 2
            valid := decide (syn = 0) }) ∧
    (∀ stop, readOperand s .opd 0 s.opd[0] = .error stop → StopsAs (exec .hamVer s) s stop)

/-! ### The arithmetic of the units -/

/-- 43_crc.md R88, R93: `Mod2Div` runs `T = D.len - n + 1` steps of long division on a window of `n` bits, and records
each step with the window as it was before the XOR. -/
def Obligations.Mod2DivStepsFollowLongDivision : Prop :=
  ∀ d g : BitString, 2 ≤ g.length → g.head? = some true → g.length ≤ d.length →
    ∃ (r : Division) (W P X : Nat → BitString),
      mod2Div d g = some r ∧
      r.quot.length = d.length - g.length + 1 ∧ r.steps.length = d.length - g.length + 1 ∧
      W 0 = d.take g.length ∧
      (∀ i < d.length - g.length + 1,
        (W i).length = g.length ∧
        P i = (if (W i).getD 0 false then g else List.replicate g.length false) ∧
        X i = List.zipWith (fun x y => x ^^ y) (W i) (P i) ∧ (X i).head? = some false ∧
        r.quot[i]? = (W i)[0]? ∧
        (i + 1 < d.length - g.length + 1 → W (i + 1) = (X i).tail ++ [d.getD (g.length + i) false]) ∧
        r.steps[i]? =
          some { kind := .crcStep, n0 := BitVec.ofNat 32 i
                 n1 := BitVec.ofNat 32 ((W i).getD 0 false).toNat, n2 := 0#32
                 s0 := W i, s1 := P i, s2 := X i, pos := [] }) ∧
      r.rem = (X (d.length - g.length)).tail

/-- Read as polynomials over GF(2), `Mod2Div` is division: `D = q*g + rem` with `rem` of degree below that of `g`, so
`rem` is all zero exactly when `g` divides `D` (43_crc.md, the inference after R88). -/
def Obligations.Mod2DivIsPolynomialDivision : Prop :=
  ∀ d g : BitString, 2 ≤ g.length → g.head? = some true → g.length ≤ d.length →
    ∃ r : Division, mod2Div d g = some r ∧
      toPoly d = toPoly r.quot * toPoly g + toPoly r.rem ∧
      (toPoly r.rem).degree < (toPoly g).degree ∧
      (r.rem = List.replicate (g.length - 1) false ↔ toPoly g ∣ toPoly d)

/-- The accumulation block by block (44_checksum.md R98 to R100, R104): each block's value is added, the sum is folded
at most once when it passes `2^k - 1` (the section's own inference), and each addition and fold is recorded. -/
def Obligations.ChecksumAccumulatesWithEndAroundCarry : Prop :=
  ∀ (d : BitString) (k : Nat), 1 ≤ k → d.length % k = 0 →
    ∃ S : Nat → Nat,
      S 0 = 0 ∧
      (∀ j < d.length / k,
        S (j + 1) =
          if S j + bitsVal (dataBlock d k j) ≤ 2 ^ k - 1 then S j + bitsVal (dataBlock d k j)
          else (S j + bitsVal (dataBlock d k j)) % 2 ^ k + (S j + bitsVal (dataBlock d k j)) / 2 ^ k) ∧
      (∀ j ≤ d.length / k, S j ≤ 2 ^ k - 1) ∧
      (checksumOf d k).sum = S (d.length / k) ∧
      (checksumOf d k).recs =
        (List.range (d.length / k)).flatMap (fun j =>
          { kind := .csumAdd, n0 := BitVec.ofNat 32 j, n1 := 0#32, n2 := 0#32
            s0 := dataBlock d k j, s1 := binOf k (S j)
            s2 := binOf (k + 1) (S j + bitsVal (dataBlock d k j)), pos := [] } ::
          if S j + bitsVal (dataBlock d k j) ≤ 2 ^ k - 1 then []
          else
            [{ kind := .csumWrap, n0 := BitVec.ofNat 32 j, n1 := 0#32, n2 := 0#32
               s0 := binOf (k + 1) (S j + bitsVal (dataBlock d k j)), s1 := binOf k (S (j + 1))
               s2 := [], pos := [] }])

/-- The final sum is 0 when every bit is 0, and otherwise the value in `1..2^k-1` congruent to the sum of the blocks
modulo `2^k - 1` (44_checksum.md, the inference after R100). -/
def Obligations.ChecksumIsTheOnesComplementSum : Prop :=
  ∀ (d : BitString) (k : Nat), 1 ≤ k → d.length % k = 0 →
    (checksumOf d k).sum ≤ 2 ^ k - 1 ∧
    ((checksumOf d k).sum = 0 ↔ ∀ b ∈ d, b = false) ∧
    (checksumOf d k).sum % (2 ^ k - 1) = blockSum d k % (2 ^ k - 1)

/-! ### The codes' round trips and blind spots -/

/-- 41_vrc.md, the inference from R77 and R78, with R79: a codeword of `VRC.ENC` verifies under its policy; two units
of one length get the same verdict exactly when they differ in an even number of bits. -/
def Obligations.VrcRoundTripAndBlindSpot : Prop :=
  (∀ (even : Bool) (s u v : State) (d c : BitString), HoldsOperand s s.opd[0] d →
    exec (.vrcEnc even) s = .next u → HoldsResult u 0x3000 u.rlenA c → HoldsOperand v v.opd[0] c →
    ∃ t, exec (.vrcVer even) v = .next t ∧ t.rflags.valid = true) ∧
  ∀ (even : Bool) (s u : State) (c e : BitString), HoldsOperand s s.opd[0] c → HoldsOperand u u.opd[0] e →
    c.length = e.length →
    ∃ t v, exec (.vrcVer even) s = .next t ∧ exec (.vrcVer even) u = .next v ∧
      (t.rflags.valid = v.rflags.valid ↔ differences c e % 2 = 0)

/-- 42_lrc.md, the inference from R82 and R84, with R85: against the LRC of the sent blocks, received blocks of the
same shape are accepted exactly when every column holds an even number of flipped bits. -/
def Obligations.LrcRoundTripAndBlindSpot : Prop :=
  ∀ (even : Bool) (s u v : State) (bs cs : List BitString) (rl : BitString) (len : Nat),
    1 ≤ bs.length → bs.length ≤ 64 → HoldsBlocks s bs → (∀ b ∈ bs, b.length = len) →
    exec (.lrcEnc even bs.length) s = .next u → HoldsResult u 0x3000 u.rlenA rl →
    cs.length = bs.length → HoldsBlocks v cs → (∀ b ∈ cs, b.length = len) → HoldsOperand v v.aux rl →
    ∃ t, exec (.lrcVer even bs.length) v = .next t ∧
      (t.rflags.valid = true ↔
        ∀ j < len, differences (columnBits bs j) (columnBits cs j) % 2 = 0)

/-- 43_crc.md, the inference from R91 and R94, with R95: against the divisor of the encoder, a received word of the
codeword's length is accepted exactly when its difference from the codeword is a multiple of the divisor; so the
codeword is, and the codeword with its last bit flipped is not. -/
def Obligations.CrcRoundTripAndBlindSpot : Prop :=
  ∀ (s u v : State) (d g c e : BitString),
    HoldsOperand s s.opd[0] d → HoldsOperand s s.aux g → 2 ≤ g.length → g.head? = some true →
    exec .crcEnc s = .next u → HoldsResult u 0x3000 u.rlenA c →
    e.length = c.length → HoldsOperand v v.opd[0] e → HoldsOperand v v.aux g →
    ∃ t, exec .crcVer v = .next t ∧
      (t.rflags.valid = true ↔ toPoly g ∣ toPoly (List.zipWith (fun x y => x ^^ y) c e)) ∧
      (e = c → t.rflags.valid = true) ∧
      (e = c.dropLast ++ [!(c.getLastD false)] → t.rflags.valid = false)

/-- 44_checksum.md, the inference from R102 and R105, with R107: data followed by their checksum re-sum to all ones
and verify; two data of one length and block size whose block values have the same total get the same verdict. -/
def Obligations.ChecksumRoundTripAndBlindSpot : Prop :=
  (∀ (s u v : State) (d c : BitString), HoldsOperand s s.opd[0] d → 1 ≤ s.blksz.toNat →
    d.length % s.blksz.toNat = 0 → exec .csumEnc s = .next u → HoldsResult u 0x3400 u.rlenB c →
    HoldsOperand v v.opd[0] (d ++ c) → v.blksz = s.blksz →
    ∃ t, exec .csumVer v = .next t ∧ t.rflags.valid = true ∧
      HoldsResult t 0x3000 t.rlenA (List.replicate s.blksz.toNat true)) ∧
  ∀ (s u : State) (d e : BitString), HoldsOperand s s.opd[0] d → HoldsOperand u u.opd[0] e →
    d.length = e.length → s.blksz = u.blksz → 1 ≤ s.blksz.toNat → d.length % s.blksz.toNat = 0 →
    blockSum d s.blksz.toNat = blockSum e s.blksz.toNat →
    ∃ t v, exec .csumVer s = .next t ∧ exec .csumVer u = .next v ∧ t.rflags.valid = v.rflags.valid

/-- 45_hamming.md, the inference from R112 and R116: a codeword of `HAM.ENC` has syndrome 0 and verifies; with the one
bit at position `p` flipped it has syndrome `p` and is corrected. -/
def Obligations.HammingCorrectsSingleErrors : Prop :=
  ∀ (s u v : State) (d c : BitString), HoldsOperand s s.opd[0] d → exec .hamEnc s = .next u →
    HoldsResult u 0x3000 u.rlenA c →
    (HoldsOperand v v.opd[0] c →
      ∃ t, exec .hamVer v = .next t ∧ t.hamSyn = 0#32 ∧ t.hamStat = 0#32 ∧ t.rflags.valid = true) ∧
    ∀ p, 1 ≤ p → p ≤ c.length → HoldsOperand v v.opd[0] (c.set (p - 1) (!(posBit c p))) →
      ∃ t, exec .hamVer v = .next t ∧ t.hamSyn = BitVec.ofNat 32 p ∧ t.hamStat = 1#32 ∧
        t.rflags.valid = false ∧ HoldsResult t 0x3000 t.rlenA c

/-! ### The window -/

/-- An idle core accepts every word written to `CMD`; a busy core drops it and sets `OVR`; nothing else changes
(60_exceptions.md R120). Some number `k <= LAT` of host steps is then to come (R121, 70_reset_and_hazards.md R149): the
model keeps it in its own field `countdown` (log 3), counts the draw in `draws` (log 4), and has no `response` to a
write (log 5). -/
def Obligations.CommandIssueIsAcceptedOrDropped : Prop :=
  (∀ (s : State) (v : Word), s.status.busy = false →
    ∃ k ≤ Config.lat, hostWrite 0x008#16 .w4 v s =
      .next { s with
        cmd := v
        status :=
          { busy := true, done := false, err := false, ovr := s.status.ovr
            errKind := 0#4, errField := 0#4, errIdx := 0#8, errCause := 0#8 }
        countdown := k, draws := s.draws + 1, response := none }) ∧
  ∀ (s : State) (v : Word), s.status.busy = true →
    hostWrite 0x008#16 .w4 v s =
      .next { s with status := { s.status with ovr := true }, response := none }

/-- 10_state.md R25: a write of `v` to `STATUS` clears `OVR` if `v[3] = 1` and has no other effect, busy or not. -/
def Obligations.StatusWriteClearsOverrunOnly : Prop :=
  ∀ (s : State) (v : Word),
    hostWrite 0x00C#16 .w4 v s =
      .next { s with
        status := { s.status with ovr := s.status.ovr && !(v.toNat / 8 % 2 == 1) }
        response := none }

/-- What the host writes to `AUX`, `BLKSZ`, `OPD[i]` (core idle) and `TIDX` (at any time) is what the next read
returns, reserved bits as 0, and nothing else changes (10_state.md R20, R26 to R28, R34; 70_reset_and_hazards.md
R148). -/
def Obligations.OperandRegisterWritesTakeEffect : Prop :=
  (∀ (s : State) (v : Word), s.status.busy = false →
    (∃ t, hostWrite 0x010#16 .w4 v s = .next t ∧ t = { s with aux := v, response := none } ∧
      ReadsAs t 0x010#16 .w4 v) ∧
    (∃ t, hostWrite 0x014#16 .w4 v s = .next t ∧
      t = { s with blksz := BitVec.ofNat 16 v.toNat, response := none } ∧
      ReadsAs t 0x014#16 .w4 (v &&& 0x0000FFFF#32)) ∧
    ∀ i : Fin 64, ∃ t, hostWrite (BitVec.ofNat 16 (0x100 + 4 * i.val)) .w4 v s = .next t ∧
      t = { s with opd := t.opd, response := none } ∧ t.opd[i] = v ∧
      (∀ j : Fin 64, j ≠ i → t.opd[j] = s.opd[j]) ∧
      ReadsAs t (BitVec.ofNat 16 (0x100 + 4 * i.val)) .w4 v) ∧
  ∀ (s : State) (v : Word), ∃ t, hostWrite 0x018#16 .w4 v s = .next t ∧
    t = { s with tidx := BitVec.ofNat 16 v.toNat, response := none } ∧
    ReadsAs t 0x018#16 .w4 (v &&& 0x0000FFFF#32)

/-- The register map (10_state.md R21 to R34): which offset reads which register, while no command is in flight. -/
def Obligations.RegisterReadsFollowTheMap : Prop :=
  ∀ s : State, s.status.busy = false →
    ReadsAs s 0x000#16 .w4 0x45444331#32 ∧ ReadsAs s 0x004#16 .w4 0x00000001#32 ∧
    ReadsAs s 0x008#16 .w4 s.cmd ∧
    (∃ v : Word, ReadsAs s 0x00C#16 .w4 v ∧
      v.getLsbD 0 = false ∧ v.getLsbD 1 = s.status.done ∧ v.getLsbD 2 = s.status.err ∧
      v.getLsbD 3 = s.status.ovr ∧ v.extractLsb' 4 4 = 0#4 ∧ v.extractLsb' 8 4 = s.status.errKind ∧
      v.extractLsb' 12 4 = s.status.errField ∧ v.extractLsb' 16 8 = s.status.errIdx ∧
      v.extractLsb' 24 8 = s.status.errCause) ∧
    ReadsAs s 0x010#16 .w4 s.aux ∧ ReadsAs s 0x014#16 .w4 (BitVec.ofNat 32 s.blksz.toNat) ∧
    ReadsAs s 0x018#16 .w4 (BitVec.ofNat 32 s.tidx.toNat) ∧ ReadsAs s 0x01C#16 .w4 s.tcount ∧
    ReadsAs s 0x020#16 .w4 s.rlenA ∧ ReadsAs s 0x024#16 .w4 s.rlenB ∧ ReadsAs s 0x028#16 .w4 s.rlenC ∧
    ReadsAs s 0x02C#16 .w4 (BitVec.ofNat 32 (s.rflags.valid.toNat + 2 * s.rflags.parity.toNat)) ∧
    ReadsAs s 0x030#16 .w4 s.hamR ∧ ReadsAs s 0x034#16 .w4 s.hamN ∧ ReadsAs s 0x038#16 .w4 s.hamSyn ∧
    ReadsAs s 0x03C#16 .w4 s.hamStat ∧
    (∀ k : Fin 16, ReadsAs s (BitVec.ofNat 16 (0x040 + 4 * k.val)) .w4 s.ppos[k]) ∧
    ∀ i : Fin 64, ReadsAs s (BitVec.ofNat 16 (0x100 + 4 * i.val)) .w4 s.opd[i]

/-- A host access is a bus error exactly when its width or alignment is bad, its offset is reserved, or it writes a
read-only place, in every state (60_exceptions.md R128). That the fault's `kind` is the access's direction is the
model's reading of R128 (log 6). -/
def Obligations.BusErrorsExactly : Prop :=
  ∀ (s : State) (off : BitVec 16) (n : Width),
    (hostRead off n s = .fault (.busError off n .read) ↔ BadAccess off.toNat n.bytes .read) ∧
    ∀ v : Word, hostWrite off n v s = .fault (.busError off n .write) ↔ BadAccess off.toNat n.bytes .write

/-- 70_reset_and_hazards.md R145: while busy, a write of operand state is `HAZARD`; writes of `CMD` (dropped, with
`OVR` set), `STATUS` and `TIDX` are allowed and have their effect, and reads of `IBUF` (of every width, each byte
written), `OPD`, `AUX`, `BLKSZ`, `TIDX`, `CMD`, `STATUS`, `ID` and `VERSION` return their exact values. -/
def Obligations.BusyHazardsOnOperandWrites : Prop :=
  ∀ s : State, s.status.busy = true →
    (∀ (off : BitVec 16) (n : Width) (v : Word), OperandOffset off.toNat →
      ¬ BadAccess off.toNat n.bytes .write → hostWrite off n v s = .fault .hazard) ∧
    (∀ v : Word,
      hostWrite 0x008#16 .w4 v s =
        .next { s with status := { s.status with ovr := true }, response := none } ∧
      hostWrite 0x00C#16 .w4 v s =
        .next { s with
          status := { s.status with ovr := s.status.ovr && !(v.toNat / 8 % 2 == 1) }
          response := none } ∧
      hostWrite 0x018#16 .w4 v s =
        .next { s with tidx := BitVec.ofNat 16 v.toNat, response := none }) ∧
    (∀ (off : BitVec 16) (n : Width) (b : Nat → Byte), 0x2000 ≤ off.toNat → off.toNat < 0x3000 →
      off.toNat % n.bytes = 0 → (∀ j < n.bytes, Memory.read s.mem (off.toNat + j) = some (b j)) →
      ReadsAs s off n (littleEndian b n.bytes)) ∧
    (∀ i : Fin 64, ReadsAs s (BitVec.ofNat 16 (0x100 + 4 * i.val)) .w4 s.opd[i]) ∧
    ReadsAs s 0x010#16 .w4 s.aux ∧ ReadsAs s 0x014#16 .w4 (BitVec.ofNat 32 s.blksz.toNat) ∧
    ReadsAs s 0x018#16 .w4 (BitVec.ofNat 32 s.tidx.toNat) ∧ ReadsAs s 0x008#16 .w4 s.cmd ∧
    ReadsAs s 0x00C#16 .w4 s.status.word ∧ s.status.word.getLsbD 0 = true ∧
    ReadsAs s 0x000#16 .w4 0x45444331#32 ∧ ReadsAs s 0x004#16 .w4 0x00000001#32

/-- A read of result state while busy returns some value of the access's width, whatever the state holds, and changes
nothing of the block (70_reset_and_hazards.md R146). The value is a free draw (log 4): nothing is said of it but its
width. -/
def Obligations.BusyResultReadsReturnSomeValue : Prop :=
  ∀ (s : State) (off : BitVec 16) (n : Width), s.status.busy = true → ResultOffset off.toNat →
    ¬ BadAccess off.toNat n.bytes .read →
    ∃ v : Word, v.toNat < 2 ^ (8 * n.bytes) ∧
      hostRead off n s = .next { s with response := some v, draws := s.draws + 1 }

/-- A byte read of a written `IBUF` byte, in every state, and of any `OBUF` byte, with no command in flight, returns
the byte that stands at its offset (20_memory.md R49, R50) and has no side effect. -/
def Obligations.BufferByteReadsReturnTheStoredByte : Prop :=
  ∀ s : State,
    (∀ a, 0x2000 ≤ a → a < 0x3000 → ∀ b, Memory.read s.mem a = some b →
      ReadsAs s (BitVec.ofNat 16 a) .w1 (BitVec.ofNat 32 b.toNat)) ∧
    (s.status.busy = false → ∀ a, 0x3000 ≤ a → a < 0x3C00 →
      ∃ b, Memory.read s.mem a = some b ∧ ReadsAs s (BitVec.ofNat 16 a) .w1 (BitVec.ofNat 32 b.toNat))

/-- A 2-byte or 4-byte read, of `IBUF` in every state and of any buffer with no command in flight, returns the bytes
that byte reads return, little-endian (20_memory.md R46). -/
def Obligations.WideReadsSeeTheSameBytes : Prop :=
  ∀ (s : State) (off : Nat) (b : Nat → Word),
    ((0x2000 ≤ off ∧ off < 0x3000) ∨
      (s.status.busy = false ∧ ((0x400 ≤ off ∧ off < 0x1400) ∨ (0x3000 ≤ off ∧ off < 0x3C00)))) →
    (off % 2 = 0 → (∀ j < 2, ReadsAs s (BitVec.ofNat 16 (off + j)) .w1 (b j)) →
      ReadsAs s (BitVec.ofNat 16 off) .w2 (b 0 ||| b 1 <<< 8)) ∧
    (off % 4 = 0 → (∀ j < 4, ReadsAs s (BitVec.ofNat 16 (off + j)) .w1 (b j)) →
      ReadsAs s (BitVec.ofNat 16 off) .w4 (b 0 ||| b 1 <<< 8 ||| b 2 <<< 16 ||| b 3 <<< 24))

/-- 20_memory.md R49: a write of `n` bytes into `IBUF` sets those bytes, byte `j` being bits `[8j+7:8j]`, and marks them
written; every other byte and everything else is as before, and a read returns the stored bytes with no side
effect. -/
def Obligations.IbufWriteThenRead : Prop :=
  ∀ (s : State) (off : BitVec 16) (n : Width) (v : Word), s.status.busy = false →
    0x2000 ≤ off.toNat → off.toNat < 0x3000 → off.toNat % n.bytes = 0 →
    ∃ t, hostWrite off n v s = .next t ∧ t = { s with mem := t.mem, response := none } ∧
      (∀ j < n.bytes, Memory.read t.mem (off.toNat + j) = some (v.extractLsb' (8 * j) 8)) ∧
      (∀ a, a < off.toNat ∨ off.toNat + n.bytes ≤ a → Memory.read t.mem a = Memory.read s.mem a) ∧
      ReadsAs t off n (BitVec.ofNat 32 (v.toNat % 2 ^ (8 * n.bytes)))

/-- 10_state.md R36, R37: the trace window shows the record `TIDX` selects, field by field and byte by byte, and all
zeros at or past `TCOUNT`. -/
def Obligations.TraceWindowShowsTheSelectedRecord : Prop :=
  ∀ s : State, s.status.busy = false →
    (∀ rec, s.tidx.toNat < s.tcount.toNat → s.trace[s.tidx.toNat]? = some rec →
      ReadsAs s 0x200#16 .w4
        (match rec.kind with
          | .crcStep => 1#32 | .csumAdd => 2#32 | .csumWrap => 3#32 | .hamParity => 4#32) ∧
      ReadsAs s 0x204#16 .w4 rec.n0 ∧ ReadsAs s 0x208#16 .w4 rec.n1 ∧ ReadsAs s 0x20C#16 .w4 rec.n2 ∧
      ReadsAs s 0x210#16 .w4 (BitVec.ofNat 32 rec.s0.length) ∧
      ReadsAs s 0x214#16 .w4 (BitVec.ofNat 32 rec.s1.length) ∧
      ReadsAs s 0x218#16 .w4 (BitVec.ofNat 32 rec.s2.length) ∧
      ReadsAs s 0x21C#16 .w4 (BitVec.ofNat 32 rec.pos.length) ∧
      (∀ i < 1024,
        ReadsAs s (BitVec.ofNat 16 (0x0800 + i)) .w1 (BitVec.ofNat 32 (fillChar rec.s0 i).toNat) ∧
        ReadsAs s (BitVec.ofNat 16 (0x0C00 + i)) .w1 (BitVec.ofNat 32 (fillChar rec.s1 i).toNat) ∧
        ReadsAs s (BitVec.ofNat 16 (0x1000 + i)) .w1 (BitVec.ofNat 32 (fillChar rec.s2 i).toNat)) ∧
      ∀ j < 512, ReadsAs s (BitVec.ofNat 16 (0x0400 + 2 * j)) .w2
        (BitVec.ofNat 32 ((rec.pos[j]?).getD 0#16).toNat)) ∧
    (s.tcount.toNat ≤ s.tidx.toNat →
      (∀ k < 8, ReadsAs s (BitVec.ofNat 16 (0x200 + 4 * k)) .w4 0#32) ∧
      ∀ a, 0x0400 ≤ a → a < 0x1400 → ReadsAs s (BitVec.ofNat 16 a) .w1 0#32)

/-- 70_reset_and_hazards.md R144: every `IBUF` byte is unwritten after reset; a host read that covers an unwritten byte
is `UNINIT`, and so is the completion of any command whose first operand, once its bounds check passes, covers
one. -/
def Obligations.UnwrittenBytesFault : Prop :=
  (∀ a, 0x2000 ≤ a → a < 0x3000 → Memory.read State.reset.mem a = none) ∧
  (∀ (s : State) (off : BitVec 16) (n : Width), 0x2000 ≤ off.toNat → off.toNat < 0x3000 →
    off.toNat % n.bytes = 0 → (∃ j < n.bytes, Memory.read s.mem (off.toNat + j) = none) →
    hostRead off n s = .fault .uninit) ∧
  ∀ (s : State) (i : Instr),
    (∀ even k, (i = .lrcEnc even k ∨ i = .lrcVer even k) → 1 ≤ k ∧ k ≤ 64) →
    1 ≤ descLen s.opd[0] → descLen s.opd[0] ≤ 512 → descOff s.opd[0] + descLen s.opd[0] ≤ 4096 →
    (∃ j < descLen s.opd[0], Memory.read s.mem (0x2000 + descOff s.opd[0] + j) = none) →
    exec i s = .fault .uninit

/-- Only reset makes an `IBUF` byte unwritten again (70_reset_and_hazards.md R144): a step after which a written byte
is unwritten took a reset event. -/
def Obligations.OnlyResetMakesBytesUnwritten : Prop :=
  ∀ (s t : State) (a : Nat), 0x2000 ≤ a → a < 0x3000 → step s = .next t →
    Memory.read s.mem a ≠ none → Memory.read t.mem a = none →
    coreTurn s = false ∧ ∃ rest, s.pending = .assertReset :: rest

/-! ### What every completion does -/

/-- 60_exceptions.md R125: a completion that reports an error writes only `STATUS` (its `OVR` stays), so every result
register, `OBUF` byte and trace record is as before. -/
def Obligations.FailedCommandsWriteOnlyStatus : Prop :=
  ∀ s t : State, completeCommand s = .next t → t.status.err = true →
    t = { s with status := t.status, countdown := 0 } ∧
    t.status.busy = false ∧ t.status.done = true ∧ t.status.ovr = s.status.ovr

/-- Each cause comes with its one kind, its field and its index, as the table of 60_exceptions.md R124 pairs them. -/
def Obligations.ReportsFollowTheCauseTable : Prop :=
  ∀ s t : State, completeCommand s = .next t → t.status.err = true →
    (1 ≤ t.status.errCause.toNat ∧ t.status.errCause.toNat ≤ 4 ∧ t.status.errKind = 1#4 ∧
      ((t.status.errField = 2#4 ∧ t.status.errIdx.toNat < 64) ∨
        (t.status.errField = 3#4 ∧ t.status.errIdx = 0#8))) ∨
    ((t.status.errCause = 5#8 ∨ t.status.errCause = 6#8) ∧ t.status.errKind = 1#4 ∧
      t.status.errField = 3#4 ∧ t.status.errIdx = 0#8) ∨
    (t.status.errCause = 7#8 ∧ t.status.errKind = 1#4 ∧ t.status.errField = 4#4 ∧
      t.status.errIdx = 0#8) ∨
    ((t.status.errCause = 8#8 ∨ t.status.errCause = 10#8 ∨ t.status.errCause = 11#8) ∧
      t.status.errKind = 2#4 ∧ t.status.errField = 2#4 ∧ t.status.errIdx = 0#8) ∨
    (t.status.errCause = 9#8 ∧ t.status.errKind = 2#4 ∧ t.status.errField = 2#4 ∧
      1 ≤ t.status.errIdx.toNat ∧ t.status.errIdx.toNat < 64) ∨
    ((t.status.errCause = 12#8 ∨ t.status.errCause = 13#8 ∨ t.status.errCause = 14#8) ∧
      t.status.errKind = 3#4 ∧ t.status.errField = 1#4 ∧ t.status.errIdx = 0#8)

/-- What a successful command does not produce is cleared (30_encoding.md R66): `VALID` after an encode, `PARITY`
after all but `VRC.ENC`, the Hamming registers after other units, the trace after VRC, LRC and every verify, and each
result region a command does not fill. -/
def Obligations.SuccessClearsWhatItDoesNotProduce : Prop :=
  ∀ (i : Instr) (s t : State), exec i s = .next t → t.status.err = false →
    (i.mnemonic ∈ [.vrcEnc, .lrcEnc, .crcEnc, .csumEnc, .hamEnc] → t.rflags.valid = false) ∧
    (i.mnemonic ≠ .vrcEnc → t.rflags.parity = false) ∧
    (i.mnemonic ≠ .hamEnc → t.hamR = 0#32 ∧ t.hamN = 0#32 ∧ ∀ k : Fin 16, t.ppos[k] = 0#32) ∧
    (i.mnemonic ≠ .hamVer → t.hamSyn = 0#32 ∧ t.hamStat = 0#32) ∧
    (i.mnemonic ∉ [.crcEnc, .csumEnc, .hamEnc] → t.trace = [] ∧ t.tcount = 0#32) ∧
    (i.mnemonic ∈ [.vrcVer, .crcVer] →
      t.rlenA = 0#32 ∧ ∀ a < 1024, Memory.read t.mem (0x3000 + a) = some 0x00#8) ∧
    (i.mnemonic ∉ [.crcEnc, .crcVer, .csumEnc, .csumVer] →
      t.rlenB = 0#32 ∧ ∀ a < 1024, Memory.read t.mem (0x3400 + a) = some 0x00#8) ∧
    (i.mnemonic ∉ [.crcEnc, .crcVer] →
      t.rlenC = 0#32 ∧ ∀ a < 1024, Memory.read t.mem (0x3800 + a) = some 0x00#8)

/-- The frame of all ten commands: a completion leaves `CMD`, the descriptors, `BLKSZ`, `TIDX`, `OVR`, and every byte
outside the result buffers (so all of `IBUF`, which the core never writes, 20_memory.md R51) as they were; so are the model's own `pending`, `response` and `draws`
(logs 2, 4 and 5). -/
def Obligations.CommandFrame : Prop :=
  ∀ (i : Instr) (s t : State), exec i s = .next t →
    t.cmd = s.cmd ∧ t.aux = s.aux ∧ t.blksz = s.blksz ∧ t.tidx = s.tidx ∧ t.opd = s.opd ∧
    t.status.ovr = s.status.ovr ∧ t.pending = s.pending ∧ t.response = s.response ∧ t.draws = s.draws ∧
    t.status.busy = false ∧ t.status.done = true ∧
    ∀ a, a < 0x3000 ∨ 0x3C00 ≤ a → Memory.read t.mem a = Memory.read s.mem a

/-- A completion never refuses and never faults but on an unwritten byte; so with `IBUF` written throughout, every
command word, legal or not, completes (60_exceptions.md R121, R122, R129; no `xorbits` of unequal lengths is
reached, 40_bitstring.md). -/
def Obligations.CommandsCompleteWhenIbufIsWritten : Prop :=
  ∀ s : State,
    (∀ f, completeCommand s = .fault f → f = .uninit) ∧
    (∀ r, completeCommand s ≠ .refused r) ∧
    ((∀ a, 0x2000 ≤ a → a < 0x3000 → Memory.read s.mem a ≠ none) → ∃ t, completeCommand s = .next t)

/-- Completing the same command again changes nothing (10_state.md, "bit-identical results"). The canonical form the
premise asks for is the model's own (log 1), and every step keeps it (MemoryStaysCanonical). -/
def Obligations.CommandsAreIdempotent : Prop :=
  ∀ (i : Instr) (s t : State), MemoryCanonical s → exec i s = .next t → exec i t = .next t

/-- The outcome of a command depends on `CMD`, the descriptors, `BLKSZ` and the bytes of `IBUF` alone (10_state.md,
the inference from R39): two states that agree on those fault alike, report the same error, or commit the same
results, whatever earlier results, trace or `TIDX` they hold. -/
def Obligations.OutcomeDependsOnOperandsAlone : Prop :=
  ∀ s u : State, s.cmd = u.cmd → s.opd = u.opd → s.aux = u.aux → s.blksz = u.blksz →
    (∀ a, 0x2000 ≤ a → a < 0x3000 → Memory.read s.mem a = Memory.read u.mem a) →
    (∀ f, completeCommand s = .fault f ↔ completeCommand u = .fault f) ∧
    ∀ t, completeCommand s = .next t →
      ∃ v, completeCommand u = .next v ∧ v.status.err = t.status.err ∧
        (t.status.err = true →
          v.status.errKind = t.status.errKind ∧ v.status.errField = t.status.errField ∧
          v.status.errIdx = t.status.errIdx ∧ v.status.errCause = t.status.errCause) ∧
        (t.status.err = false →
          v.rlenA = t.rlenA ∧ v.rlenB = t.rlenB ∧ v.rlenC = t.rlenC ∧ v.rflags = t.rflags ∧
          v.hamR = t.hamR ∧ v.hamN = t.hamN ∧ v.hamSyn = t.hamSyn ∧ v.hamStat = t.hamStat ∧
          v.ppos = t.ppos ∧ v.trace = t.trace ∧ v.tcount = t.tcount ∧
          ∀ a, 0x3000 ≤ a → a < 0x3C00 → Memory.read v.mem a = Memory.read t.mem a)

/-! ### Invariants of every step -/

/-- Every step keeps the buffers' canonical form. The form of the list is the model's own (log 1); what an unlisted
offset reads as is the spec's (10_state.md R41, 70_reset_and_hazards.md R144). -/
def Obligations.MemoryStaysCanonical : Prop :=
  ∀ s t : State, MemoryCanonical s → step s = .next t → MemoryCanonical t

/-- Every step keeps `STATUS` consistent: the error fields are 0 whenever `ERR = 0` (10_state.md R24), and a command in
flight has neither `DONE` nor `ERR` set (60_exceptions.md R120). -/
def Obligations.StatusStaysConsistent : Prop :=
  ∀ s t : State, ReportConsistent s → step s = .next t → ReportConsistent t

/-- Every step keeps the code fields to the values the spec writes (10_state.md R24, 45_hamming.md R117). -/
def Obligations.CodesStayInRange : Prop :=
  ∀ s t : State, CodesInRange s → step s = .next t → CodesInRange t

/-- Every step keeps `TCOUNT = TRACE.len` and the trace within its capacities (10_state.md R35, 00_scope.md R8). -/
def Obligations.TraceStaysCountedAndFits : Prop :=
  ∀ s t : State, TraceCounted s → TraceFits s → step s = .next t → TraceCounted t ∧ TraceFits t

/-- Every step keeps each result region a string of its `RLEN` characters `0x30` or `0x31`, then `0x00`
(20_memory.md R48, 40_bitstring.md R73), and within the region (00_scope.md R8). -/
def Obligations.ResultsStayStrings : Prop :=
  ∀ s t : State, ResultsAreStrings s → step s = .next t → ResultsAreStrings t

/-- Every step keeps an in-flight command within `LAT` host steps of its completion (00_scope.md R7). The countdown is
the model's own field (log 3). -/
def Obligations.LatencyStaysBounded : Prop :=
  ∀ s t : State, LatencyBounded s → step s = .next t → LatencyBounded t

/-- The invariants hold of the reset state (10_state.md R41). Two of them are about what is the model's own: the
canonical form of the buffers' list (log 1), and `countdown`, whose reset value 0 is the model's choice (logs 3
and 17). -/
def Obligations.InvariantsHoldAtReset : Prop :=
  MemoryCanonical State.reset ∧ ReportConsistent State.reset ∧ CodesInRange State.reset ∧
  TraceCounted State.reset ∧ TraceFits State.reset ∧ ResultsAreStrings State.reset ∧
  LatencyBounded State.reset

/-! ### Completion in bounded time -/

/-- A command issued to an idle core by a host that then polls completes after some number `k <= LAT` of the polls
(60_exceptions.md R121, 70_reset_and_hazards.md R147, R149). Which `k` is a free choice (log 3). -/
def Obligations.AcceptedCommandCompletesWithinLat : Prop :=
  ∀ (s : State) (v : Word) (n : Nat) (rest : List HostEvent), s.status.busy = false →
    s.pending = wr 0x008#16 v :: (List.replicate n pollRead ++ rest) → Config.lat ≤ n →
    ∃ k ≤ Config.lat, ∃ response,
      Sys2Proof.core.run (k + 2) s =
        completeCommand
          { acceptCommand v 0 s with
            pending := List.replicate (n - k) pollRead ++ rest
            response := response
            draws := s.draws + 1 }
end

