-- ==== Sys2Proof/Laws/State.lean ====
section
/-! SUPPORT. What each named update of the state does to each field, true by rfl, so that no later proof unfolds a
record update; and the reset state's fields. -/

namespace Sys2Proof.Machine

/-! ### `completeOk` -/

@[simp] theorem completeOk_cmd (r : Result) (s : State) :
    (completeOk r s).cmd = s.cmd := rfl

@[simp] theorem completeOk_status (r : Result) (s : State) :
    (completeOk r s).status = { s.status with busy := false, done := true, err := false } := rfl

@[simp] theorem completeOk_aux (r : Result) (s : State) :
    (completeOk r s).aux = s.aux := rfl

@[simp] theorem completeOk_blksz (r : Result) (s : State) :
    (completeOk r s).blksz = s.blksz := rfl

@[simp] theorem completeOk_tidx (r : Result) (s : State) :
    (completeOk r s).tidx = s.tidx := rfl

@[simp] theorem completeOk_tcount (r : Result) (s : State) :
    (completeOk r s).tcount = BitVec.ofNat 32 r.trace.length := rfl

@[simp] theorem completeOk_rlenA (r : Result) (s : State) :
    (completeOk r s).rlenA = lengthWord r.a := rfl

@[simp] theorem completeOk_rlenB (r : Result) (s : State) :
    (completeOk r s).rlenB = lengthWord r.b := rfl

@[simp] theorem completeOk_rlenC (r : Result) (s : State) :
    (completeOk r s).rlenC = lengthWord r.c := rfl

@[simp] theorem completeOk_rflags (r : Result) (s : State) :
    (completeOk r s).rflags = { valid := r.valid, parity := r.parity } := rfl

@[simp] theorem completeOk_hamR (r : Result) (s : State) :
    (completeOk r s).hamR = BitVec.ofNat 32 r.hamR := rfl

@[simp] theorem completeOk_hamN (r : Result) (s : State) :
    (completeOk r s).hamN = BitVec.ofNat 32 r.hamN := rfl

@[simp] theorem completeOk_hamSyn (r : Result) (s : State) :
    (completeOk r s).hamSyn = BitVec.ofNat 32 r.hamSyn := rfl

@[simp] theorem completeOk_hamStat (r : Result) (s : State) :
    (completeOk r s).hamStat = BitVec.ofNat 32 r.hamStat := rfl

@[simp] theorem completeOk_ppos (r : Result) (s : State) :
    (completeOk r s).ppos = r.ppos := rfl

@[simp] theorem completeOk_opd (r : Result) (s : State) :
    (completeOk r s).opd = s.opd := rfl

@[simp] theorem completeOk_trace (r : Result) (s : State) :
    (completeOk r s).trace = r.trace := rfl

@[simp] theorem completeOk_mem (r : Result) (s : State) :
    (completeOk r s).mem = writeResultMem (writeResultMem (writeResultMem s.mem .a r.a) .b r.b) .c r.c := rfl

@[simp] theorem completeOk_countdown (r : Result) (s : State) :
    (completeOk r s).countdown = 0 := rfl

@[simp] theorem completeOk_pending (r : Result) (s : State) :
    (completeOk r s).pending = s.pending := rfl

@[simp] theorem completeOk_response (r : Result) (s : State) :
    (completeOk r s).response = s.response := rfl

@[simp] theorem completeOk_draws (r : Result) (s : State) :
    (completeOk r s).draws = s.draws := rfl

/-! ### `completeError` -/

@[simp] theorem completeError_cmd (e : ErrReport) (s : State) :
    (completeError e s).cmd = s.cmd := rfl

@[simp] theorem completeError_status (e : ErrReport) (s : State) :
    (completeError e s).status = 
      { s.status with
        busy := false, done := true, err := true
        errKind := e.kind.code, errField := e.field.code
        errIdx := BitVec.ofNat 8 e.idx, errCause := e.cause.code } := rfl

@[simp] theorem completeError_aux (e : ErrReport) (s : State) :
    (completeError e s).aux = s.aux := rfl

@[simp] theorem completeError_blksz (e : ErrReport) (s : State) :
    (completeError e s).blksz = s.blksz := rfl

@[simp] theorem completeError_tidx (e : ErrReport) (s : State) :
    (completeError e s).tidx = s.tidx := rfl

@[simp] theorem completeError_tcount (e : ErrReport) (s : State) :
    (completeError e s).tcount = s.tcount := rfl

@[simp] theorem completeError_rlenA (e : ErrReport) (s : State) :
    (completeError e s).rlenA = s.rlenA := rfl

@[simp] theorem completeError_rlenB (e : ErrReport) (s : State) :
    (completeError e s).rlenB = s.rlenB := rfl

@[simp] theorem completeError_rlenC (e : ErrReport) (s : State) :
    (completeError e s).rlenC = s.rlenC := rfl

@[simp] theorem completeError_rflags (e : ErrReport) (s : State) :
    (completeError e s).rflags = s.rflags := rfl

@[simp] theorem completeError_hamR (e : ErrReport) (s : State) :
    (completeError e s).hamR = s.hamR := rfl

@[simp] theorem completeError_hamN (e : ErrReport) (s : State) :
    (completeError e s).hamN = s.hamN := rfl

@[simp] theorem completeError_hamSyn (e : ErrReport) (s : State) :
    (completeError e s).hamSyn = s.hamSyn := rfl

@[simp] theorem completeError_hamStat (e : ErrReport) (s : State) :
    (completeError e s).hamStat = s.hamStat := rfl

@[simp] theorem completeError_ppos (e : ErrReport) (s : State) :
    (completeError e s).ppos = s.ppos := rfl

@[simp] theorem completeError_opd (e : ErrReport) (s : State) :
    (completeError e s).opd = s.opd := rfl

@[simp] theorem completeError_trace (e : ErrReport) (s : State) :
    (completeError e s).trace = s.trace := rfl

@[simp] theorem completeError_mem (e : ErrReport) (s : State) :
    (completeError e s).mem = s.mem := rfl

@[simp] theorem completeError_countdown (e : ErrReport) (s : State) :
    (completeError e s).countdown = 0 := rfl

@[simp] theorem completeError_pending (e : ErrReport) (s : State) :
    (completeError e s).pending = s.pending := rfl

@[simp] theorem completeError_response (e : ErrReport) (s : State) :
    (completeError e s).response = s.response := rfl

@[simp] theorem completeError_draws (e : ErrReport) (s : State) :
    (completeError e s).draws = s.draws := rfl

/-! ### `acceptCommand` -/

@[simp] theorem acceptCommand_cmd (v : Word) (k : Nat) (s : State) :
    (acceptCommand v k s).cmd = v := rfl

@[simp] theorem acceptCommand_status (v : Word) (k : Nat) (s : State) :
    (acceptCommand v k s).status = 
      { s.status with
        busy := true, done := false, err := false
        errKind := 0#4, errField := 0#4, errIdx := 0#8, errCause := 0#8 } := rfl

@[simp] theorem acceptCommand_aux (v : Word) (k : Nat) (s : State) :
    (acceptCommand v k s).aux = s.aux := rfl

@[simp] theorem acceptCommand_blksz (v : Word) (k : Nat) (s : State) :
    (acceptCommand v k s).blksz = s.blksz := rfl

@[simp] theorem acceptCommand_tidx (v : Word) (k : Nat) (s : State) :
    (acceptCommand v k s).tidx = s.tidx := rfl

@[simp] theorem acceptCommand_tcount (v : Word) (k : Nat) (s : State) :
    (acceptCommand v k s).tcount = s.tcount := rfl

@[simp] theorem acceptCommand_rlenA (v : Word) (k : Nat) (s : State) :
    (acceptCommand v k s).rlenA = s.rlenA := rfl

@[simp] theorem acceptCommand_rlenB (v : Word) (k : Nat) (s : State) :
    (acceptCommand v k s).rlenB = s.rlenB := rfl

@[simp] theorem acceptCommand_rlenC (v : Word) (k : Nat) (s : State) :
    (acceptCommand v k s).rlenC = s.rlenC := rfl

@[simp] theorem acceptCommand_rflags (v : Word) (k : Nat) (s : State) :
    (acceptCommand v k s).rflags = s.rflags := rfl

@[simp] theorem acceptCommand_hamR (v : Word) (k : Nat) (s : State) :
    (acceptCommand v k s).hamR = s.hamR := rfl

@[simp] theorem acceptCommand_hamN (v : Word) (k : Nat) (s : State) :
    (acceptCommand v k s).hamN = s.hamN := rfl

@[simp] theorem acceptCommand_hamSyn (v : Word) (k : Nat) (s : State) :
    (acceptCommand v k s).hamSyn = s.hamSyn := rfl

@[simp] theorem acceptCommand_hamStat (v : Word) (k : Nat) (s : State) :
    (acceptCommand v k s).hamStat = s.hamStat := rfl

@[simp] theorem acceptCommand_ppos (v : Word) (k : Nat) (s : State) :
    (acceptCommand v k s).ppos = s.ppos := rfl

@[simp] theorem acceptCommand_opd (v : Word) (k : Nat) (s : State) :
    (acceptCommand v k s).opd = s.opd := rfl

@[simp] theorem acceptCommand_trace (v : Word) (k : Nat) (s : State) :
    (acceptCommand v k s).trace = s.trace := rfl

@[simp] theorem acceptCommand_mem (v : Word) (k : Nat) (s : State) :
    (acceptCommand v k s).mem = s.mem := rfl

@[simp] theorem acceptCommand_countdown (v : Word) (k : Nat) (s : State) :
    (acceptCommand v k s).countdown = k := rfl

@[simp] theorem acceptCommand_pending (v : Word) (k : Nat) (s : State) :
    (acceptCommand v k s).pending = s.pending := rfl

@[simp] theorem acceptCommand_response (v : Word) (k : Nat) (s : State) :
    (acceptCommand v k s).response = s.response := rfl

@[simp] theorem acceptCommand_draws (v : Word) (k : Nat) (s : State) :
    (acceptCommand v k s).draws = s.draws := rfl

/-! ### `dropCommand` -/

@[simp] theorem dropCommand_cmd (s : State) :
    (dropCommand s).cmd = s.cmd := rfl

@[simp] theorem dropCommand_status (s : State) :
    (dropCommand s).status = { s.status with ovr := true } := rfl

@[simp] theorem dropCommand_aux (s : State) :
    (dropCommand s).aux = s.aux := rfl

@[simp] theorem dropCommand_blksz (s : State) :
    (dropCommand s).blksz = s.blksz := rfl

@[simp] theorem dropCommand_tidx (s : State) :
    (dropCommand s).tidx = s.tidx := rfl

@[simp] theorem dropCommand_tcount (s : State) :
    (dropCommand s).tcount = s.tcount := rfl

@[simp] theorem dropCommand_rlenA (s : State) :
    (dropCommand s).rlenA = s.rlenA := rfl

@[simp] theorem dropCommand_rlenB (s : State) :
    (dropCommand s).rlenB = s.rlenB := rfl

@[simp] theorem dropCommand_rlenC (s : State) :
    (dropCommand s).rlenC = s.rlenC := rfl

@[simp] theorem dropCommand_rflags (s : State) :
    (dropCommand s).rflags = s.rflags := rfl

@[simp] theorem dropCommand_hamR (s : State) :
    (dropCommand s).hamR = s.hamR := rfl

@[simp] theorem dropCommand_hamN (s : State) :
    (dropCommand s).hamN = s.hamN := rfl

@[simp] theorem dropCommand_hamSyn (s : State) :
    (dropCommand s).hamSyn = s.hamSyn := rfl

@[simp] theorem dropCommand_hamStat (s : State) :
    (dropCommand s).hamStat = s.hamStat := rfl

@[simp] theorem dropCommand_ppos (s : State) :
    (dropCommand s).ppos = s.ppos := rfl

@[simp] theorem dropCommand_opd (s : State) :
    (dropCommand s).opd = s.opd := rfl

@[simp] theorem dropCommand_trace (s : State) :
    (dropCommand s).trace = s.trace := rfl

@[simp] theorem dropCommand_mem (s : State) :
    (dropCommand s).mem = s.mem := rfl

@[simp] theorem dropCommand_countdown (s : State) :
    (dropCommand s).countdown = s.countdown := rfl

@[simp] theorem dropCommand_pending (s : State) :
    (dropCommand s).pending = s.pending := rfl

@[simp] theorem dropCommand_response (s : State) :
    (dropCommand s).response = s.response := rfl

@[simp] theorem dropCommand_draws (s : State) :
    (dropCommand s).draws = s.draws := rfl

/-! ### `clearOverrun` -/

@[simp] theorem clearOverrun_cmd (s : State) :
    (clearOverrun s).cmd = s.cmd := rfl

@[simp] theorem clearOverrun_status (s : State) :
    (clearOverrun s).status = { s.status with ovr := false } := rfl

@[simp] theorem clearOverrun_aux (s : State) :
    (clearOverrun s).aux = s.aux := rfl

@[simp] theorem clearOverrun_blksz (s : State) :
    (clearOverrun s).blksz = s.blksz := rfl

@[simp] theorem clearOverrun_tidx (s : State) :
    (clearOverrun s).tidx = s.tidx := rfl

@[simp] theorem clearOverrun_tcount (s : State) :
    (clearOverrun s).tcount = s.tcount := rfl

@[simp] theorem clearOverrun_rlenA (s : State) :
    (clearOverrun s).rlenA = s.rlenA := rfl

@[simp] theorem clearOverrun_rlenB (s : State) :
    (clearOverrun s).rlenB = s.rlenB := rfl

@[simp] theorem clearOverrun_rlenC (s : State) :
    (clearOverrun s).rlenC = s.rlenC := rfl

@[simp] theorem clearOverrun_rflags (s : State) :
    (clearOverrun s).rflags = s.rflags := rfl

@[simp] theorem clearOverrun_hamR (s : State) :
    (clearOverrun s).hamR = s.hamR := rfl

@[simp] theorem clearOverrun_hamN (s : State) :
    (clearOverrun s).hamN = s.hamN := rfl

@[simp] theorem clearOverrun_hamSyn (s : State) :
    (clearOverrun s).hamSyn = s.hamSyn := rfl

@[simp] theorem clearOverrun_hamStat (s : State) :
    (clearOverrun s).hamStat = s.hamStat := rfl

@[simp] theorem clearOverrun_ppos (s : State) :
    (clearOverrun s).ppos = s.ppos := rfl

@[simp] theorem clearOverrun_opd (s : State) :
    (clearOverrun s).opd = s.opd := rfl

@[simp] theorem clearOverrun_trace (s : State) :
    (clearOverrun s).trace = s.trace := rfl

@[simp] theorem clearOverrun_mem (s : State) :
    (clearOverrun s).mem = s.mem := rfl

@[simp] theorem clearOverrun_countdown (s : State) :
    (clearOverrun s).countdown = s.countdown := rfl

@[simp] theorem clearOverrun_pending (s : State) :
    (clearOverrun s).pending = s.pending := rfl

@[simp] theorem clearOverrun_response (s : State) :
    (clearOverrun s).response = s.response := rfl

@[simp] theorem clearOverrun_draws (s : State) :
    (clearOverrun s).draws = s.draws := rfl

/-! ### `assertReset`: everything but the outside's own fields takes its reset value (R141) -/

@[simp] theorem assertReset_cmd (s : State) :
    (assertReset s).cmd = State.reset.cmd := rfl

@[simp] theorem assertReset_status (s : State) :
    (assertReset s).status = State.reset.status := rfl

@[simp] theorem assertReset_aux (s : State) :
    (assertReset s).aux = State.reset.aux := rfl

@[simp] theorem assertReset_blksz (s : State) :
    (assertReset s).blksz = State.reset.blksz := rfl

@[simp] theorem assertReset_tidx (s : State) :
    (assertReset s).tidx = State.reset.tidx := rfl

@[simp] theorem assertReset_tcount (s : State) :
    (assertReset s).tcount = State.reset.tcount := rfl

@[simp] theorem assertReset_rlenA (s : State) :
    (assertReset s).rlenA = State.reset.rlenA := rfl

@[simp] theorem assertReset_rlenB (s : State) :
    (assertReset s).rlenB = State.reset.rlenB := rfl

@[simp] theorem assertReset_rlenC (s : State) :
    (assertReset s).rlenC = State.reset.rlenC := rfl

@[simp] theorem assertReset_rflags (s : State) :
    (assertReset s).rflags = State.reset.rflags := rfl

@[simp] theorem assertReset_hamR (s : State) :
    (assertReset s).hamR = State.reset.hamR := rfl

@[simp] theorem assertReset_hamN (s : State) :
    (assertReset s).hamN = State.reset.hamN := rfl

@[simp] theorem assertReset_hamSyn (s : State) :
    (assertReset s).hamSyn = State.reset.hamSyn := rfl

@[simp] theorem assertReset_hamStat (s : State) :
    (assertReset s).hamStat = State.reset.hamStat := rfl

@[simp] theorem assertReset_ppos (s : State) :
    (assertReset s).ppos = State.reset.ppos := rfl

@[simp] theorem assertReset_opd (s : State) :
    (assertReset s).opd = State.reset.opd := rfl

@[simp] theorem assertReset_trace (s : State) :
    (assertReset s).trace = State.reset.trace := rfl

@[simp] theorem assertReset_mem (s : State) :
    (assertReset s).mem = State.reset.mem := rfl

@[simp] theorem assertReset_countdown (s : State) :
    (assertReset s).countdown = State.reset.countdown := rfl

@[simp] theorem assertReset_pending (s : State) :
    (assertReset s).pending = s.pending := rfl

@[simp] theorem assertReset_response (s : State) :
    (assertReset s).response = State.reset.response := rfl

@[simp] theorem assertReset_draws (s : State) :
    (assertReset s).draws = s.draws := rfl

/-! ### `issueCommand` -/

/-- A busy core drops the word (R120). -/
theorem issueCommand_busy (v : Word) (s : State) (h : s.status.busy = true) :
    issueCommand v s = dropCommand s := by
  simp [issueCommand, h]

/-- An idle core accepts the word and draws its latency (R120). -/
theorem issueCommand_idle (v : Word) (s : State) (h : s.status.busy = false) :
    issueCommand v s =
      { acceptCommand v (Config.latency s.draws) s with draws := s.draws + 1 } := by
  simp [issueCommand, h]

/-- The number of host steps drawn for a command never passes `LAT` (R7, R149). -/
theorem latency_le (d : Nat) : Config.latency d ≤ Config.lat :=
  Nat.le_of_lt_succ (Nat.mod_lt _ (Nat.succ_pos _))

/-! ### `writeReg` and `writeBuffer` -/

@[simp] theorem writeReg_cmd (v : Word) (s : State) : writeReg .cmd v s = issueCommand v s := rfl

@[simp] theorem writeReg_status (v : Word) (s : State) :
    writeReg .status v s = if v.getLsbD 3 then clearOverrun s else s := rfl

@[simp] theorem writeReg_aux (v : Word) (s : State) : writeReg .aux v s = { s with aux := v } := rfl

@[simp] theorem writeReg_blksz (v : Word) (s : State) :
    writeReg .blksz v s = { s with blksz := v.setWidth 16 } := rfl

@[simp] theorem writeReg_tidx (v : Word) (s : State) :
    writeReg .tidx v s = { s with tidx := v.setWidth 16 } := rfl

@[simp] theorem writeReg_opd (i : Fin 64) (v : Word) (s : State) :
    writeReg (.opd i) v s = { s with opd := s.opd.set i v } := rfl

@[simp] theorem writeBuffer_eq (off : Nat) (n : Width) (v : Word) (s : State) :
    writeBuffer off n v s =
      { s with mem := Memory.writeBytes s.mem off (lowBytes v n.bytes) } := rfl

end Sys2Proof.Machine
end

