-- ==== Sys2Proof/Laws/Memory.lean ====
section
/-! SUPPORT. What the byte store's operations do: a read after a write gives the byte written, every other byte is
as before, and every operation keeps the canonical form. -/

namespace Sys2Proof.Machine

/-! ### Entries -/

@[simp] theorem Memory.entry_nil (a : Nat) : Memory.entry [] a = none := rfl

theorem Memory.entry_cons (k : Nat) (v : Byte) (m : Memory) (a : Nat) :
    Memory.entry ((k, v) :: m) a = if k = a then some v else Memory.entry m a := rfl

/-- An offset below every listed one has no entry. -/
theorem Memory.entry_none_of_lt (m : Memory) (a : Nat) (h : ∀ c ∈ m, a < c.1) :
    Memory.entry m a = none := by
  induction m with
  | nil => rfl
  | cons c m ih =>
    obtain ⟨k, v⟩ := c
    have hk : a < k := h (k, v) (by simp)
    rw [Memory.entry_cons, if_neg (by omega)]
    exact ih fun c hc => h c (by simp [hc])

/-- An offset that no cell is listed at has no entry. -/
theorem Memory.entry_none_of_ne (m : Memory) (a : Nat) (h : ∀ c ∈ m, c.1 ≠ a) :
    Memory.entry m a = none := by
  induction m with
  | nil => rfl
  | cons c m ih =>
    obtain ⟨k, v⟩ := c
    rw [Memory.entry_cons, if_neg (h (k, v) (by simp))]
    exact ih fun c hc => h c (by simp [hc])

/-- The entries of two stretches: the first decides where it lists the offset. -/
theorem Memory.entry_append (m n : Memory) (a : Nat) :
    Memory.entry (m ++ n) a = (Memory.entry m a).or (Memory.entry n a) := by
  induction m with
  | nil => simp
  | cons c m ih =>
    obtain ⟨k, v⟩ := c
    simp only [List.cons_append, Memory.entry_cons]
    split <;> simp [ih]

/-- Keeping the cells of some offsets keeps those offsets' entries and drops the others'. -/
theorem Memory.entry_filter (m : Memory) (p : Nat → Bool) (a : Nat) :
    Memory.entry (m.filter (fun c => p c.1)) a = if p a then Memory.entry m a else none := by
  induction m with
  | nil => simp
  | cons c m ih =>
    obtain ⟨k, v⟩ := c
    rw [List.filter_cons]
    by_cases hk : k = a
    · subst hk
      by_cases hp : p k = true
      · simp [hp, Memory.entry_cons]
      · simp [hp, ih]
    · by_cases hp : p k = true
      · simp [hp, Memory.entry_cons, hk, ih]
      · simp [hp, Memory.entry_cons, hk, ih]

/-! ### Insert and erase -/

/-- Insertion lists the new byte at its offset and leaves every other entry. -/
theorem Memory.entry_insert (m : Memory) (a : Nat) (v : Byte) (b : Nat) :
    Memory.entry (Memory.insert m a v) b = if a = b then some v else Memory.entry m b := by
  induction m with
  | nil => simp [Memory.insert, Memory.entry_cons]
  | cons c m ih =>
    obtain ⟨k, w⟩ := c
    simp only [Memory.insert]
    split
    · simp [Memory.entry_cons]
    · split
      · rename_i h
        subst h
        simp only [Memory.entry_cons]
        split <;> simp_all
      · rename_i h1 h2
        simp only [Memory.entry_cons, ih]
        split
        · rename_i h
          rw [if_neg (by omega)]
        · rfl

theorem Memory.entry_erase (m : Memory) (a b : Nat) :
    Memory.entry (Memory.erase m a) b = if a = b then none else Memory.entry m b := by
  have h := Memory.entry_filter m (fun k => k != a) b
  simp only [Memory.erase]
  rw [h]
  by_cases hb : a = b
  · simp [hb]
  · have : b ≠ a := fun h => hb h.symm
    simp [hb, this]

/-- Every cell after an insertion is the new one or an old one at another offset. -/
theorem Memory.mem_insert (m : Memory) (a : Nat) (v : Byte) (c : Host.Cell)
    (h : c ∈ Memory.insert m a v) : c = (a, v) ∨ c ∈ m := by
  induction m with
  | nil => simpa [Memory.insert] using h
  | cons d m ih =>
    obtain ⟨k, w⟩ := d
    simp only [Memory.insert] at h
    split at h
    · simpa using h
    · split at h
      · rcases List.mem_cons.mp h with h | h
        · exact .inl h
        · exact .inr (List.mem_cons_of_mem _ h)
      · rcases List.mem_cons.mp h with h | h
        · exact .inr (by simp [h])
        · rcases ih h with h | h
          · exact .inl h
          · exact .inr (List.mem_cons_of_mem _ h)

/-- Insertion keeps the offsets strictly rising. -/
theorem Memory.insert_pairwise (m : Memory) (a : Nat) (v : Byte)
    (h : m.Pairwise (fun c d => c.1 < d.1)) :
    (Memory.insert m a v).Pairwise (fun c d => c.1 < d.1) := by
  induction m with
  | nil => simp [Memory.insert]
  | cons d m ih =>
    obtain ⟨k, w⟩ := d
    obtain ⟨hd, hm⟩ := List.pairwise_cons.mp h
    simp only [Memory.insert]
    split
    · rename_i hlt
      refine List.pairwise_cons.mpr ⟨?_, h⟩
      intro c hc
      rcases List.mem_cons.mp hc with rfl | hc
      · exact hlt
      · exact Nat.lt_trans hlt (hd c hc)
    · split
      · rename_i heq
        subst heq
        exact List.pairwise_cons.mpr ⟨hd, hm⟩
      · rename_i h1 h2
        refine List.pairwise_cons.mpr ⟨?_, ih hm⟩
        intro c hc
        rcases Memory.mem_insert m a v c hc with rfl | hc
        · show k < a
          omega
        · exact hd c hc

/-! ### Reads -/

@[simp] theorem Memory.read_nil (a : Nat) : Memory.read [] a = Memory.unlisted a := rfl

/-- A result buffer byte always has a value (R50). -/
theorem Memory.read_obuf_isSome (m : Memory) (a : Nat) (h : 0x3000 ≤ a ∧ a < 0x3C00) :
    (Memory.read m a).isSome = true := by
  unfold Memory.read
  split
  · rfl
  · simp [Memory.unlisted, h]

/-- A read depends on the entry at its offset alone. -/
theorem Memory.read_congr (m n : Memory) (a : Nat) (h : Memory.entry m a = Memory.entry n a) :
    Memory.read m a = Memory.read n a := by
  simp [Memory.read, h]

/-- Read after write (R49): the byte written at its offset, every other byte as before. -/
theorem Memory.read_write (m : Memory) (a : Nat) (v : Byte) (b : Nat) :
    Memory.read (Memory.write m a v) b = if a = b then some v else Memory.read m b := by
  unfold Memory.write
  split
  · rename_i h
    simp only [Memory.read, Memory.entry_erase]
    by_cases hb : a = b
    · subst hb
      simp [h]
    · simp [hb]
  · simp only [Memory.read, Memory.entry_insert]
    by_cases hb : a = b <;> simp [hb]

/-- A write of consecutive bytes: those bytes, every other byte as before. -/
theorem Memory.read_writeBytes (m : Memory) (a : Nat) (bs : List Byte) (b : Nat) :
    Memory.read (Memory.writeBytes m a bs) b =
      if a ≤ b ∧ b < a + bs.length then bs[b - a]? else Memory.read m b := by
  induction bs generalizing m a with
  | nil =>
    have : ¬ (a ≤ b ∧ b < a) := by omega
    simp [Memory.writeBytes, this]
  | cons v bs ih =>
    rw [Memory.writeBytes, ih, Memory.read_write]
    by_cases hab : a = b
    · subst hab
      simp
    · by_cases hr : a + 1 ≤ b ∧ b < a + 1 + bs.length
      · have h1 : a ≤ b ∧ b < a + (v :: bs).length := by
          simp only [List.length_cons]; omega
        have h2 : b - a = b - (a + 1) + 1 := by omega
        rw [if_pos hr, if_pos h1, h2, List.getElem?_cons_succ]
      · have h1 : ¬ (a ≤ b ∧ b < a + (v :: bs).length) := by
          simp only [List.length_cons]; omega
        rw [if_neg hr, if_neg h1, if_neg hab]

/-- The canonical entries of consecutive bytes lie in their range. -/
theorem Memory.mem_cellsFrom (a : Nat) (bs : List Byte) (c : Host.Cell)
    (h : c ∈ Memory.cellsFrom a bs) :
    a ≤ c.1 ∧ c.1 < a + bs.length ∧ Memory.unlisted c.1 ≠ some c.2 := by
  induction bs generalizing a with
  | nil => simp [Memory.cellsFrom] at h
  | cons b bs ih =>
    simp only [Memory.cellsFrom] at h
    split at h
    · obtain ⟨h1, h2, h3⟩ := ih (a + 1) h
      exact ⟨by omega, by simp only [List.length_cons]; omega, h3⟩
    · rename_i hb
      rcases List.mem_cons.mp h with rfl | h
      · exact ⟨Nat.le_refl _, by simp, hb⟩
      · obtain ⟨h1, h2, h3⟩ := ih (a + 1) h
        exact ⟨by omega, by simp only [List.length_cons]; omega, h3⟩

/-- Reading one cell past the first. -/
theorem Memory.read_cons (k : Nat) (v : Byte) (m : Memory) (a : Nat) :
    Memory.read ((k, v) :: m) a = if k = a then some v else Memory.read m a := by
  simp only [Memory.read, Memory.entry_cons]
  by_cases h : k = a <;> simp [h]

/-- Reading through the canonical entries gives the listed bytes. -/
theorem Memory.read_cellsFrom (a : Nat) (bs : List Byte) (b : Nat) :
    Memory.read (Memory.cellsFrom a bs) b =
      if a ≤ b ∧ b < a + bs.length then bs[b - a]? else Memory.unlisted b := by
  induction bs generalizing a with
  | nil =>
    have : ¬ (a ≤ b ∧ b < a) := by omega
    simp [Memory.cellsFrom, this]
  | cons v bs ih =>
    have hlen : (v :: bs).length = bs.length + 1 := List.length_cons
    have hstep : Memory.read (Memory.cellsFrom a (v :: bs)) b =
        if a = b then some v else Memory.read (Memory.cellsFrom (a + 1) bs) b := by
      simp only [Memory.cellsFrom]
      split
      · rename_i hu
        by_cases hab : a = b
        · subst hab
          rw [ih, if_neg (by omega), if_pos rfl, hu]
        · rw [if_neg hab]
      · exact Memory.read_cons a v _ b
    rw [hstep, ih]
    by_cases hab : a = b
    · subst hab
      rw [if_pos rfl, if_pos (by omega)]
      simp
    · rw [if_neg hab]
      by_cases hr : a + 1 ≤ b ∧ b < a + 1 + bs.length
      · have h2 : b - a = b - (a + 1) + 1 := by omega
        rw [if_pos hr, if_pos (by omega), h2, List.getElem?_cons_succ]
      · rw [if_neg hr, if_neg (by omega)]

/-- Reading after a range is replaced: the listed bytes, then the rest of the range as unlisted, then every byte
outside the range as before. -/
theorem Memory.read_replaceRange (m : Memory) (base size : Nat) (bs : List Byte) (b : Nat) :
    Memory.read (Memory.replaceRange m base size bs) b =
      if base ≤ b ∧ b < base + size then
        (if b - base < bs.length then bs[b - base]? else Memory.unlisted b)
      else Memory.read m b := by
  have hlow : Memory.entry (m.filter (fun c => decide (c.1 < base))) b =
      if b < base then Memory.entry m b else none := by
    simpa using Memory.entry_filter m (fun k => decide (k < base)) b
  have hhigh : Memory.entry (m.filter (fun c => decide (base + size ≤ c.1))) b =
      if base + size ≤ b then Memory.entry m b else none := by
    simpa using Memory.entry_filter m (fun k => decide (base + size ≤ k)) b
  have hmid := Memory.read_cellsFrom base (bs.take size) b
  unfold Memory.replaceRange
  by_cases hin : base ≤ b ∧ b < base + size
  · rw [if_pos hin]
    rw [← Memory.read_congr (Memory.cellsFrom base (bs.take size)), hmid]
    have hlen : (bs.take size).length = min size bs.length := List.length_take
    by_cases hb : b - base < bs.length
    · rw [if_pos hb, if_pos (by omega), List.getElem?_take_of_lt (by omega)]
    · rw [if_neg hb, if_neg (by omega)]
    · rw [Memory.entry_append, Memory.entry_append, hlow, hhigh, if_neg (by omega), if_neg (by omega)]
      simp
  · rw [if_neg hin]
    have hnone : Memory.entry (Memory.cellsFrom base (bs.take size)) b = none := by
      apply Memory.entry_none_of_ne
      intro c hc hcb
      obtain ⟨h1, h2, _⟩ := Memory.mem_cellsFrom _ _ c hc
      have hlen : (bs.take size).length = min size bs.length := List.length_take
      omega
    simp only [Memory.read, Memory.entry_append, hlow, hhigh, hnone]
    by_cases hlt : b < base
    · rw [if_pos hlt, if_neg (by omega)]
      simp
    · rw [if_neg hlt, if_pos (by omega)]
      simp

/-! ### The canonical form -/

/-- The empty memory is canonical. -/
theorem Memory.wf_nil : Memory.wf [] := by simp [Memory.wf]

/-- Keeping some of a canonical memory's cells keeps the form. -/
theorem Memory.wf_filter (m : Memory) (p : Host.Cell → Bool) (h : Memory.wf m) :
    Memory.wf (m.filter p) :=
  ⟨List.Pairwise.filter p h.1, fun c hc => h.2 c (List.mem_filter.mp hc).1⟩

/-- A write to a stored offset keeps the canonical form. -/
theorem Memory.wf_write (m : Memory) (a : Nat) (v : Byte) (ha : Memory.stores a = true)
    (h : Memory.wf m) : Memory.wf (Memory.write m a v) := by
  unfold Memory.write
  split
  · exact Memory.wf_filter m _ h
  · rename_i hu
    refine ⟨Memory.insert_pairwise m a v h.1, fun c hc => ?_⟩
    rcases Memory.mem_insert m a v c hc with rfl | hc
    · exact ⟨ha, hu⟩
    · exact h.2 c hc

/-- A write of consecutive bytes, all at stored offsets, keeps the canonical form. -/
theorem Memory.wf_writeBytes (m : Memory) (a : Nat) (bs : List Byte)
    (ha : ∀ b, a ≤ b → b < a + bs.length → Memory.stores b = true) (h : Memory.wf m) :
    Memory.wf (Memory.writeBytes m a bs) := by
  induction bs generalizing m a with
  | nil => exact h
  | cons v bs ih =>
    rw [Memory.writeBytes]
    refine ih _ _ (fun b h1 h2 => ha b (by omega) (by simp only [List.length_cons]; omega)) ?_
    exact Memory.wf_write m a v (ha a (Nat.le_refl _) (by simp)) h

/-- The canonical entries of consecutive bytes have strictly rising offsets. -/
theorem Memory.cellsFrom_pairwise (a : Nat) (bs : List Byte) :
    (Memory.cellsFrom a bs).Pairwise (fun c d => c.1 < d.1) := by
  induction bs generalizing a with
  | nil => simp [Memory.cellsFrom]
  | cons b bs ih =>
    simp only [Memory.cellsFrom]
    split
    · exact ih (a + 1)
    · refine List.pairwise_cons.mpr ⟨fun c hc => ?_, ih (a + 1)⟩
      have := (Memory.mem_cellsFrom (a + 1) bs c hc).1
      show a < c.1
      omega

/-- Replacing a range of stored offsets keeps the canonical form. -/
theorem Memory.wf_replaceRange (m : Memory) (base size : Nat) (bs : List Byte)
    (hs : ∀ b, base ≤ b → b < base + size → Memory.stores b = true) (h : Memory.wf m) :
    Memory.wf (Memory.replaceRange m base size bs) := by
  have hmid : ∀ c ∈ Memory.cellsFrom base (bs.take size),
      base ≤ c.1 ∧ c.1 < base + size ∧ Memory.unlisted c.1 ≠ some c.2 := by
    intro c hc
    obtain ⟨h1, h2, h3⟩ := Memory.mem_cellsFrom _ _ c hc
    have : (bs.take size).length = min size bs.length := List.length_take
    exact ⟨h1, by omega, h3⟩
  unfold Memory.replaceRange
  refine ⟨?_, ?_⟩
  · rw [List.append_assoc, List.pairwise_append, List.pairwise_append]
    refine ⟨List.Pairwise.filter _ h.1,
      ⟨Memory.cellsFrom_pairwise _ _, List.Pairwise.filter _ h.1, ?_⟩, ?_⟩
    · intro c hc d hd
      have h1 := hmid c hc
      have h2 := (List.mem_filter.mp hd).2
      simp only [decide_eq_true_eq] at h2
      omega
    · intro c hc d hd
      have h1 := (List.mem_filter.mp hc).2
      simp only [decide_eq_true_eq] at h1
      rcases List.mem_append.mp hd with hd | hd
      · have := hmid d hd
        omega
      · have h2 := (List.mem_filter.mp hd).2
        simp only [decide_eq_true_eq] at h2
        omega
  · intro c hc
    rcases List.mem_append.mp hc with hc | hc
    · rcases List.mem_append.mp hc with hc | hc
      · exact h.2 c (List.mem_filter.mp hc).1
      · have := hmid c hc
        exact ⟨hs c.1 this.1 this.2.1, this.2.2⟩
    · exact h.2 c (List.mem_filter.mp hc).1

/-! ### The result write -/

/-- `WriteResult(X, s)` (R73): the characters of `s`, then `0x00` to the region's end, every other byte as
before. -/
theorem read_writeResultMem (m : Memory) (x : ResultRegion) (s : BitString) (b : Nat) :
    Memory.read (writeResultMem m x s) b =
      if x.base ≤ b ∧ b < x.base + 1024 then some (fillChar s (b - x.base)) else Memory.read m b := by
  have hx : x.base = 0x3000 ∨ x.base = 0x3400 ∨ x.base = 0x3800 := by cases x <;> simp [ResultRegion.base]
  unfold writeResultMem
  rw [Memory.read_replaceRange]
  by_cases hin : x.base ≤ b ∧ b < x.base + 1024
  · rw [if_pos hin, if_pos hin]
    by_cases hb : b - x.base < s.length
    · rw [if_pos (by simpa using hb)]
      simp only [fillChar, List.getElem?_map, List.getElem?_eq_getElem hb, Option.map_some]
      cases s[b - x.base] <;> rfl
    · rw [if_neg (by simpa using hb)]
      have : s[b - x.base]? = none := List.getElem?_eq_none (by omega)
      simp only [fillChar, this, Memory.unlisted]
      rw [if_pos (show 0x3000 ≤ b ∧ b < 0x3C00 by omega)]
  · rw [if_neg hin, if_neg hin]

/-- `WriteResult` keeps the canonical form. -/
theorem wf_writeResultMem (m : Memory) (x : ResultRegion) (s : BitString) (h : Memory.wf m) :
    Memory.wf (writeResultMem m x s) := by
  refine Memory.wf_replaceRange m _ _ _ (fun b h1 h2 => ?_) h
  have hx : x.base = 0x3000 ∨ x.base = 0x3400 ∨ x.base = 0x3800 := by cases x <;> simp [ResultRegion.base]
  have hb : 0x3000 ≤ b ∧ b < 0x3C00 := by
    change b < x.base + 1024 at h2
    omega
  simp only [Memory.stores, decide_eq_true_eq]
  exact .inr hb

end Sys2Proof.Machine
end

