-- ==== Sys2Proof/Laws/Ops.lean ====
section
/-! SUPPORT. One lemma per shared operation that says everything it can do: how `Execute` phases chain, how a command
ends, what an operand fetch reads, what a host access and a step can answer. -/

namespace Sys2Proof.Machine

/-! ### Chaining phases (R122) -/

@[simp] theorem execute_bind_ok {α β : Type} (a : α) (f : α → Execute β) :
    (Except.ok a : Execute α).bind f = f a := rfl

@[simp] theorem execute_bind_error {α β : Type} (e : Stop) (f : α → Execute β) :
    (Except.error e : Execute α).bind f = .error e := rfl

/-- A chain gives a result exactly when its first phase does and the rest does. -/
theorem execute_bind_eq_ok {α β : Type} (x : Execute α) (f : α → Execute β) (b : β) :
    x.bind f = .ok b ↔ ∃ a, x = .ok a ∧ f a = .ok b := by
  cases x with
  | error e => simp
  | ok a => simp

/-- A chain stops exactly when its first phase does, or the rest does. -/
theorem execute_bind_eq_error {α β : Type} (x : Execute α) (f : α → Execute β) (e : Stop) :
    x.bind f = .error e ↔ x = .error e ∨ ∃ a, x = .ok a ∧ f a = .error e := by
  cases x with
  | error e' => simp
  | ok a => simp

/-! ### How a command ends (R121) -/

@[simp] theorem finish_ok (r : Result) (s : State) : finish (.ok r) s = .next (completeOk r s) := rfl

@[simp] theorem finish_error (e : ErrReport) (s : State) :
    finish (.error (.error e)) s = .next (completeError e s) := rfl

@[simp] theorem finish_fault (f : Fault) (s : State) : finish (.error (.fault f)) s = .fault f := rfl

/-- A completion that goes on has committed a result or reported an error. -/
theorem finish_next (out : Execute Result) (s t : State) (h : finish out s = .next t) :
    (∃ r, out = .ok r ∧ t = completeOk r s) ∨
      ∃ e, out = .error (.error e) ∧ t = completeError e s := by
  rcases out with (e | f) | r
  · exact .inr ⟨e, rfl, by simpa using h.symm⟩
  · simp at h
  · exact .inl ⟨r, rfl, by simpa using h.symm⟩

/-- A completion that faults was stopped by that fault. -/
theorem finish_eq_fault (out : Execute Result) (s : State) (f : Fault) (h : finish out s = .fault f) :
    out = .error (.fault f) := by
  rcases out with (e | g) | r
  · simp at h
  · simpa using h
  · simp at h

/-- No completion is refused. -/
theorem finish_ne_refused (out : Execute Result) (s : State) (r : Refusal) :
    finish out s ≠ .refused r := by
  rcases out with (e | g) | x <;> simp

/-! ### The operand port (R51, R71) -/

/-- A fetch gives bytes exactly when every byte of the range has been written, and gives those. -/
theorem fetchBytes_eq_some (s : State) (off n : Nat) (bs : List Byte) :
    fetchBytes s off n = some bs ↔ bs.length = n ∧ ∀ i < n, ibufByte s (off + i) = bs[i]? := by
  induction n generalizing off bs with
  | zero =>
    cases bs with
    | nil => simp [fetchBytes]
    | cons b bs => simp [fetchBytes]
  | succ n ih =>
    cases bs with
    | nil =>
      simp only [fetchBytes]
      constructor
      · intro h
        split at h <;> simp at h
      · rintro ⟨h, _⟩
        simp at h
    | cons b bs =>
      have hcons : fetchBytes s off (n + 1) = some (b :: bs) ↔
          ibufByte s off = some b ∧ fetchBytes s (off + 1) n = some bs := by
        simp only [fetchBytes]
        constructor
        · intro h
          split at h
          · rename_i b' bs' h1 h2
            simp only [Option.some.injEq, List.cons.injEq] at h
            exact ⟨by rw [h1, h.1], by rw [h2, h.2]⟩
          · simp at h
        · rintro ⟨h1, h2⟩
          rw [h1, h2]
      rw [hcons, ih (off + 1) bs]
      constructor
      · rintro ⟨h0, hlen, h⟩
        refine ⟨by simp [hlen], fun i hi => ?_⟩
        cases i with
        | zero => simpa using h0
        | succ i =>
          have := h i (by omega)
          rw [show off + (i + 1) = off + 1 + i by omega, this]
          simp
      · rintro ⟨hlen, h⟩
        refine ⟨by simpa using h 0 (by omega), by simpa using hlen, fun i hi => ?_⟩
        have := h (i + 1) (by omega)
        rw [show off + (i + 1) = off + 1 + i by omega] at this
        simpa using this

/-- A fetch fails exactly when some byte of the range is unwritten. -/
theorem fetchBytes_eq_none (s : State) (off n : Nat) :
    fetchBytes s off n = none ↔ ∃ i < n, ibufByte s (off + i) = none := by
  induction n generalizing off with
  | zero => simp [fetchBytes]
  | succ n ih =>
    have hstep : fetchBytes s off (n + 1) = none ↔
        ibufByte s off = none ∨ fetchBytes s (off + 1) n = none := by
      simp only [fetchBytes]
      cases h1 : ibufByte s off with
      | none => simp
      | some b => cases h2 : fetchBytes s (off + 1) n <;> simp
    rw [hstep, ih]
    constructor
    · rintro (h | ⟨i, hi, h⟩)
      · exact ⟨0, by omega, h⟩
      · exact ⟨i + 1, by omega, by rw [show off + (i + 1) = off + 1 + i by omega]; exact h⟩
    · rintro ⟨i, hi, h⟩
      cases i with
      | zero => exact .inl h
      | succ i =>
        exact .inr ⟨i, by omega, by rw [show off + 1 + i = off + (i + 1) by omega]; exact h⟩

/-- The characters of a bit-string scan back to it (R48, R71). -/
theorem scanBits_map_chr (s : BitString) : scanBits (s.map chr) = some s := by
  induction s with
  | nil => rfl
  | cons b s ih => cases b <;> simp [scanBits, chr, ih]

/-- A scan succeeds only on the characters of the string it gives. -/
theorem scanBits_eq_some (bs : List Byte) (s : BitString) :
    scanBits bs = some s ↔ bs = s.map chr := by
  constructor
  · intro h
    induction bs generalizing s with
    | nil =>
      simp only [scanBits, Option.some.injEq] at h
      subst h
      rfl
    | cons b bs ih =>
      simp only [scanBits] at h
      split at h
      · rename_i hb
        obtain ⟨r, hr, rfl⟩ := Option.map_eq_some_iff.mp h
        simp [ih r hr, hb, chr]
      · split at h
        · rename_i hb
          obtain ⟨r, hr, rfl⟩ := Option.map_eq_some_iff.mp h
          simp [ih r hr, hb, chr]
        · simp at h
  · rintro rfl
    exact scanBits_map_chr s

/-- An operand fetch that succeeds has passed every check of R71, and its bytes are the characters of its bits. -/
theorem readOperand_eq_ok (s : State) (field : ErrField) (idx : Nat) (d : Word) (bits : BitString) :
    readOperand s field idx d = .ok bits ↔
      descLen d ≠ 0 ∧ descLen d ≤ 512 ∧ descOff d + descLen d ≤ 4096 ∧
        fetchBytes s (descOff d) (descLen d) = some (bits.map chr) := by
  unfold readOperand
  by_cases h0 : descLen d = 0
  · simp [h0, raiseInvalidInput]
  by_cases h1 : 512 < descLen d
  · rw [if_neg h0, if_pos h1]
    simp only [raiseInvalidInput, reduceCtorEq, false_iff]
    omega
  by_cases h2 : 4096 < descOff d + descLen d
  · rw [if_neg h0, if_neg h1, if_pos h2]
    simp only [raiseInvalidInput, reduceCtorEq, false_iff]
    omega
  rw [if_neg h0, if_neg h1, if_neg h2]
  have hl : descLen d ≤ 512 := Nat.le_of_not_lt h1
  have hb : descOff d + descLen d ≤ 4096 := Nat.le_of_not_lt h2
  cases hf : fetchBytes s (descOff d) (descLen d) with
  | none => simp
  | some bytes =>
    cases hs : scanBits bytes with
    | none =>
      simp only [hs, raiseInvalidInput, reduceCtorEq, Option.some.injEq, false_iff]
      rintro ⟨_, _, _, rfl⟩
      rw [scanBits_map_chr] at hs
      exact absurd hs (by simp)
    | some r =>
      have := (scanBits_eq_some bytes r).mp hs
      subst this
      simp only [hs, Except.ok.injEq, Option.some.injEq]
      constructor
      · rintro rfl
        exact ⟨h0, hl, hb, rfl⟩
      · rintro ⟨_, _, _, h⟩
        have h1 := scanBits_map_chr r
        rw [h, scanBits_map_chr] at h1
        exact (Option.some.inj h1).symm

/-- An operand fetch faults only on an unwritten byte (R144). -/
theorem readOperand_fault (s : State) (field : ErrField) (idx : Nat) (d : Word) (f : Fault)
    (h : readOperand s field idx d = .error (.fault f)) : f = .uninit := by
  unfold readOperand at h
  split at h
  · simp [raiseInvalidInput] at h
  split at h
  · simp [raiseInvalidInput] at h
  split at h
  · simp [raiseInvalidInput] at h
  split at h
  · simpa using h.symm
  split at h
  · simp [raiseInvalidInput] at h
  · simp at h

/-- The block list is fetched block by block: every block's own fetch succeeds (R81). -/
theorem readBlocks_eq_ok (s : State) (i n : Nat) (bs : List BitString) :
    readBlocks s i n = .ok bs ↔ bs.length = n ∧ ∀ j < n, readOpd s (i + j) = .ok (bs.getD j []) := by
  induction n generalizing i bs with
  | zero =>
    cases bs with
    | nil => simp [readBlocks]
    | cons b bs => simp [readBlocks]
  | succ n ih =>
    rw [readBlocks, execute_bind_eq_ok]
    constructor
    · rintro ⟨b, hb, h⟩
      obtain ⟨bs', hbs, h⟩ := (execute_bind_eq_ok _ _ _).mp h
      obtain ⟨hlen, hall⟩ := (ih (i + 1) bs').mp hbs
      simp only [Except.ok.injEq] at h
      subst h
      refine ⟨by simp [hlen], fun j hj => ?_⟩
      cases j with
      | zero => simpa using hb
      | succ j =>
        rw [show i + (j + 1) = i + 1 + j by omega, hall j (by omega)]
        simp
    · rintro ⟨hlen, hall⟩
      cases bs with
      | nil => simp at hlen
      | cons b bs =>
        refine ⟨b, by simpa using hall 0 (by omega), ?_⟩
        refine (execute_bind_eq_ok _ _ _).mpr ⟨bs, (ih (i + 1) bs).mpr ⟨by simpa using hlen, ?_⟩, rfl⟩
        intro j hj
        have := hall (j + 1) (by omega)
        rw [show i + (j + 1) = i + 1 + j by omega] at this
        simpa using this

/-! ### Host accesses (R44) -/

/-- A host read that goes on leaves the block as it was: only what the host has seen, and the count of draws, may
differ. -/
theorem hostRead_next (off : BitVec 16) (n : Width) (s t : State) (h : hostRead off n s = .next t) :
    t = { s with response := t.response, draws := t.draws } := by
  unfold hostRead at h
  split at h
  · simp at h
  split at h
  · simp only [Host.Outcome.next.injEq] at h
    subst h
    rfl
  split at h
  · simp at h
  · simp only [Host.Outcome.next.injEq] at h
    subst h
    rfl

/-- A host write that goes on has passed the checks and has had its effect. -/
theorem hostWrite_next (off : BitVec 16) (n : Width) (v : Word) (s t : State)
    (h : hostWrite off n v s = .next t) :
    ∃ target, checkAccess off n .write = .ok target ∧
      ¬ (s.status.busy = true ∧ target.isOperand = true) ∧
      t = { writeTarget off.toNat n v s target with response := none } := by
  unfold hostWrite at h
  split at h
  · simp at h
  · rename_i target hc
    split at h
    · simp at h
    · rename_i hb
      exact ⟨target, hc, hb, by simpa using h.symm⟩

/-! ### Whose step it is (R16) -/

/-- In the core's turn the step completes the command. -/
theorem step_core (s : State) (h : coreTurn s = true) : step s = completeCommand s := by
  simp [step, machineStep, h]

/-- Otherwise the step is the outside's. -/
theorem step_outside (s : State) (h : coreTurn s = false) : step s = outsideTurn s := by
  simp [step, machineStep, h]

/-- A completion of a legal word is the command's own. -/
theorem completeCommand_legal (s : State) (i : Instr) (h : decode s.cmd = .ok i) :
    completeCommand s = exec i s := by
  simp [completeCommand, h]

/-- A completion of an illegal word reports it. -/
theorem completeCommand_illegal (s : State) (c : IllegalCause) (h : decode s.cmd = .error c) :
    completeCommand s =
      .next (completeError { kind := .illegalCommand, field := .cmd, idx := 0, cause := causeOfIllegal c } s) := by
  simp [completeCommand, h, raiseIllegalCommand]

/-- The core's turn needs a command in flight. -/
theorem coreTurn_busy (s : State) (h : coreTurn s = true) : s.status.busy = true := by
  simp only [coreTurn, Bool.and_eq_true] at h
  exact h.1

end Sys2Proof.Machine
end

