-- ==== Sys2Proof/Laws/PerInstr.lean ====
section
/-! SUPPORT. Statements about every command, one lemma per constructor of `Instr`. -/

namespace Sys2Proof.Laws

namespace EncodingRow

/-- The word of a well-formed command lies in its mnemonic's row of the opcode map, and in no other (R62). -/
def Statement (i : Instr) : Prop :=
  WellFormed i = true →
    ∀ r ∈ opcodeMap, r.matchesWord (encode i) = true ↔ r.mnemonic = i.mnemonic

theorem vrcEnc (even : Bool) : Statement (.vrcEnc even) := by cases even <;> (intro _; decide)

theorem vrcVer (even : Bool) : Statement (.vrcVer even) := by cases even <;> (intro _; decide)

theorem lrcEnc (even : Bool) (nopd : Nat) : Statement (.lrcEnc even nopd) := by
  intro h
  have hn : nopd < 65 := Nat.lt_succ_of_le (of_decide_eq_true h)
  have key : ∀ n < 65, ∀ r ∈ opcodeMap,
      r.matchesWord (encode (.lrcEnc even n)) = true ↔ r.mnemonic = .lrcEnc := by
    cases even <;> decide
  exact key nopd hn

theorem lrcVer (even : Bool) (nopd : Nat) : Statement (.lrcVer even nopd) := by
  intro h
  have hn : nopd < 65 := Nat.lt_succ_of_le (of_decide_eq_true h)
  have key : ∀ n < 65, ∀ r ∈ opcodeMap,
      r.matchesWord (encode (.lrcVer even n)) = true ↔ r.mnemonic = .lrcVer := by
    cases even <;> decide
  exact key nopd hn

theorem crcEnc : Statement .crcEnc := by intro _; decide

theorem crcVer : Statement .crcVer := by intro _; decide

theorem csumEnc : Statement .csumEnc := by intro _; decide

theorem csumVer : Statement .csumVer := by intro _; decide

theorem hamEnc : Statement .hamEnc := by intro _; decide

theorem hamVer : Statement .hamVer := by intro _; decide

end EncodingRow

end Sys2Proof.Laws
end

