-- ==== Sys2Proof/Tests/Slice0.lean ====
section
/-! SUPPORT. The model's own tests. Expected values are those of spec/95_test_vectors.md (L1, L2) and of the tables of
30_encoding.md, 60_exceptions.md and 10_state.md, or written out by hand from them; each test names its place. At the
end, for every obligation with hypotheses, a state and operands that meet them. -/

namespace Sys2Proof.Tests

open Sys2Proof.Machine Sys2Proof.Claims

/-! ### Helpers -/

/-- A bit-string written with 0 and 1. -/
def bits (l : List Nat) : BitString := l.map (fun n => n == 1)

/-- The state with the characters of a string written into `IBUF` from index `a`. -/
def load (a : Nat) (s : BitString) (st : State) : State :=
  { st with mem := Memory.writeBytes st.mem (0x2000 + a) (s.map chr) }

/-- The reset state with a string in `IBUF` from index 0 and `OPD[0]` naming it. -/
def withOperand (s : BitString) : State :=
  { load 0 s State.reset with opd := State.reset.opd.set 0 (descriptor 0 s.length) }

/-- A state with another string in `IBUF` from index 64 and `AUX` naming it. -/
def withAux (g : BitString) (st : State) : State :=
  { load 64 g st with aux := descriptor 64 g.length }

/-- The state with a block size. -/
def withBlksz (k : Nat) (st : State) : State := { st with blksz := BitVec.ofNat 16 k }

/-- Two blocks at index 0 and 16, named by `OPD[0]` and `OPD[1]`. -/
def withTwoBlocks (a b : BitString) : State :=
  { load 16 b (load 0 a State.reset) with
    opd := (State.reset.opd.set 0 (descriptor 0 a.length)).set 1 (descriptor 16 b.length) }

/-- The state after an outcome, the reset state if there is none. -/
def after : Host.Outcome State Fault Refusal → State
  | .next t => t
  | .fault _ => State.reset
  | .refused _ => State.reset

/-- The outcome is a next state. -/
def goesOn : Host.Outcome State Fault Refusal → Bool
  | .next _ => true
  | .fault _ => false
  | .refused _ => false

/-- The fault of an outcome. -/
def faultOf : Host.Outcome State Fault Refusal → Option Fault
  | .next _ => none
  | .fault f => some f
  | .refused _ => none

theorem eq_next_after (o : Host.Outcome State Fault Refusal) (h : goesOn o = true) : o = .next (after o) := by
  cases o <;> simp_all [goesOn, after]

/-- The state after the command word has been placed and completed. -/
def ran (w : Nat) (st : State) : State := after (step (st.withFetchWord 32 w))

/-- The first `n` bytes of a region. -/
def region (st : State) (base n : Nat) : List (Option Byte) :=
  (List.range n).map (fun i => Memory.read st.mem (base + i))

/-- The characters of a string, as region bytes. -/
def chars (l : List Nat) : List (Option Byte) := l.map (fun n => some (if n = 1 then 0x31#8 else 0x30#8))

/-! ### Well-formed terms (30_encoding.md R58, R62) -/

theorem test_wf_lrcEnc_limit : WellFormed (.lrcEnc true 64) = true := by decide
theorem test_wf_refuses_lrcEnc_65 : WellFormed (.lrcEnc true 65) = false := by decide
theorem test_wf_refuses_lrcVer_127 : WellFormed (.lrcVer false 127) = false := by decide

/-! ### Decoding: words written out bit by bit from the patterns of 30_encoding.md R62 -/

theorem test_decode_vrcEnc_even : decode 0b00000000000000000000000100010001#32 = .ok (.vrcEnc true) := by decide
theorem test_decode_vrcEnc_odd : decode 0b00000000000000000000000100000001#32 = .ok (.vrcEnc false) := by decide
theorem test_decode_vrcVer : decode 0b00000000000000000000000100011001#32 = .ok (.vrcVer true) := by decide
theorem test_decode_lrcEnc : decode 0b00000000000000000000010000010010#32 = .ok (.lrcEnc true 4) := by decide
theorem test_decode_lrcEnc_zero : decode 0b00000000000000000000000000000010#32 = .ok (.lrcEnc false 0) := by decide
theorem test_decode_lrcVer : decode 0b00000000000000000100000000001010#32 = .ok (.lrcVer false 64) := by decide
theorem test_decode_crcEnc : decode 0b00000000000000000000000100000011#32 = .ok .crcEnc := by decide
theorem test_decode_crcVer : decode 0b00000000000000000000000100001011#32 = .ok .crcVer := by decide
theorem test_decode_csumEnc : decode 0b00000000000000000000000100000100#32 = .ok .csumEnc := by decide
theorem test_decode_csumVer : decode 0b00000000000000000000000100001100#32 = .ok .csumVer := by decide
theorem test_decode_hamEnc : decode 0b00000000000000000000000100000101#32 = .ok .hamEnc := by decide
theorem test_decode_hamVer : decode 0b00000000000000000000000100001101#32 = .ok .hamVer := by decide

/-- 95_test_vectors.md, command legality: the rejected words and their causes. -/
theorem test_decode_rejects :
    decode 0x00000000#32 = .error .badUnit ∧ decode 0x00000106#32 = .error .badUnit ∧
    decode 0x80000101#32 = .error .reservedBits ∧ decode 0x00000121#32 = .error .reservedBits ∧
    decode 0x00000113#32 = .error .reservedBits ∧ decode 0x00000001#32 = .error .badNopd ∧
    decode 0x00000205#32 = .error .badNopd ∧ decode 0x00004102#32 = .error .badNopd ∧
    decode 0x80000000#32 = .error .reservedBits := by decide

theorem test_decodeTableWord : decodeTableWord 32 0x0000030A = some (.lrcVer false 3) ∧
    decodeTableWord 32 0x00000107 = none := by decide

/-! ### The ten commands (95_test_vectors.md L1, L2) -/

theorem test_vrcEnc_even_1011001 :
    region (ran 0x111 (withOperand (bits [1,0,1,1,0,0,1]))) 0x3000 9 =
      chars [1,0,1,1,0,0,1,0] ++ [some 0x00#8] := by decide

theorem test_vrcEnc_odd_parity :
    (ran 0x101 (withOperand (bits [1,0,1,1,0,0,1]))).rflags = { valid := false, parity := true } := by decide

theorem test_vrcVer_two_flips_pass :
    (ran 0x119 (withOperand (bits [1,0,1,0,0,0,1,1]))).rflags.valid = true := by decide

theorem test_vrcVer_odd_zero_fails :
    (ran 0x109 (withOperand (bits [0]))).rflags.valid = false := by decide

/-- P5 of 95_test_vectors.md: `1011` and `1001`, even, give `0010`. -/
theorem test_lrcEnc_program5 :
    region (ran 0x212 (withTwoBlocks (bits [1,0,1,1]) (bits [1,0,0,1]))) 0x3000 5 =
      chars [0,0,1,0] ++ [some 0x00#8] := by decide

/-- P5: `1011` and `101` report `LEN_MISMATCH` on `OPD` 1. -/
theorem test_lrcEnc_len_mismatch :
    (ran 0x212 (withTwoBlocks (bits [1,0,1,1]) (bits [1,0,1]))).status.word = 0x09012206#32 := by decide

/-- A received LRC of another length is no error: `VALID = 0` (D21). -/
theorem test_lrcVer_short_received :
    (ran 0x21A (withAux (bits [0,0,1]) (withTwoBlocks (bits [1,0,1,1]) (bits [1,0,0,1])))).rflags.valid = false ∧
    (ran 0x21A (withAux (bits [0,0,1,0]) (withTwoBlocks (bits [1,0,1,1]) (bits [1,0,0,1])))).rflags.valid = true := by
  decide

/-- `EMPTY` on `AUX` precedes `NO_BLOCKS`. -/
theorem test_lrcVer_no_blocks_aux_first :
    (ran 0x01A State.reset).status.word = 0x01003106#32 ∧ (ran 0x012 State.reset).status.word = 0x08002206#32 := by
  decide

theorem test_crcEnc_100100_1101 :
    region (ran 0x103 (withAux (bits [1,1,0,1]) (withOperand (bits [1,0,0,1,0,0])))) 0x3000 10 =
      chars [1,0,0,1,0,0,0,0,1] ++ [some 0x00#8] := by decide

/-- The fifth step of the transcribed trace: leading bit 0, so zeros are XORed. -/
theorem test_crcEnc_trace_step4 :
    (ran 0x103 (withAux (bits [1,1,0,1]) (withOperand (bits [1,0,0,1,0,0])))).trace[4]? =
      some { kind := .crcStep, n0 := 4#32, n1 := 0#32, n2 := 0#32, s0 := bits [0,1,1,0], s1 := bits [0,0,0,0]
             s2 := bits [0,1,1,0], pos := [] } := by decide

/-- The blind spot row: a multiple of the divisor is added. -/
theorem test_crcVer_blind_spot :
    (ran 0x10B (withAux (bits [1,1,0,1]) (withOperand (bits [1,0,0,1,0,1,1,0,0])))).rflags.valid = true ∧
    (ran 0x10B (withAux (bits [1,1,0,1]) (withOperand (bits [1,0,0,1,0,0,0,0,0])))).rflags.valid = false := by decide

/-- `DIV_SHORT` before `DIV_LEAD0` and before `CW_SHORT`; then `CW_SHORT`. -/
theorem test_crcVer_check_order :
    (ran 0x10B (withAux (bits [0]) (withOperand (bits [1,1,0])))).status.word = 0x05003106#32 ∧
    (ran 0x10B (withAux (bits [1,1,0,1]) (withOperand (bits [1,1,0])))).status.word = 0x0B002206#32 := by decide

/-- `1111 1111` at block size 4: the carry wraps. -/
theorem test_csumEnc_wraps :
    region (ran 0x104 (withBlksz 4 (withOperand (bits [1,1,1,1,1,1,1,1])))) 0x3000 5 =
      chars [1,1,1,1] ++ [some 0x00#8] := by decide

theorem test_csumEnc_wrap_record :
    (ran 0x104 (withBlksz 4 (withOperand (bits [1,1,1,1,1,1,1,1])))).trace[2]? =
      some { kind := .csumWrap, n0 := 1#32, n1 := 0#32, n2 := 0#32, s0 := bits [1,1,1,1,0], s1 := bits [1,1,1,1]
             s2 := [], pos := [] } := by decide

/-- `0000 1111` verifies, `0000` alone does not (90_conflicts.md C3). -/
theorem test_csumVer_all_zero :
    (ran 0x10C (withBlksz 4 (withOperand (bits [0,0,0,0,1,1,1,1])))).rflags.valid = true ∧
    (ran 0x10C (withBlksz 4 (withOperand (bits [0,0,0,0])))).rflags.valid = false := by decide

theorem test_csumVer_errors :
    (ran 0x10C (withBlksz 8 (withOperand (bits [1,0,1,0,1,0,0])))).status.word = 0x0A002206#32 ∧
    (ran 0x10C (withOperand (bits [1,0,1]))).status.word = 0x07004106#32 := by decide

theorem test_hamEnc_1011 :
    region (ran 0x105 (withOperand (bits [1,0,1,1]))) 0x3000 8 =
      chars [0,1,1,0,0,1,1] ++ [some 0x00#8] := by decide

theorem test_hamEnc_trace_k2 :
    (ran 0x105 (withOperand (bits [1,0,1,1]))).trace[2]? =
      some { kind := .hamParity, n0 := 2#32, n1 := 4#32, n2 := 0#32, s0 := bits [0,1,1], s1 := [], s2 := []
             pos := [4#16, 5#16, 6#16, 7#16] } := by decide

/-- `m = 502` gives `r = 9`, `m = 503` gives `r = 10`. -/
theorem test_hamEnc_redundancy : redundancy 502 = 9 ∧ redundancy 503 = 10 ∧ redundancy 1 = 2 := by decide

theorem test_hamVer_position3 :
    (ran 0x10D (withOperand (bits [0,1,0,0,0,1,1]))).hamSyn = 3#32 ∧
    region (ran 0x10D (withOperand (bits [0,1,0,0,0,1,1]))) 0x3000 7 = chars [0,1,1,0,0,1,1] := by decide

/-- `10110`: syndrome 6 of a 5-position word is out of range. -/
theorem test_hamVer_out_of_range :
    (ran 0x10D (withOperand (bits [1,0,1,1,0]))).hamStat = 2#32 ∧
    region (ran 0x10D (withOperand (bits [1,0,1,1,0]))) 0x3000 5 = chars [1,0,1,1,0] := by decide

/-! ### Operand fetch (95_test_vectors.md, command legality table) -/

/-- `OUT_OF_BOUNDS` at `OFF = 4095`, `LEN = 2`; `TOO_LONG` at `LEN = 513`. -/
theorem test_operand_bounds :
    (ran 0x105 { State.reset with opd := State.reset.opd.set 0 0x00020FFF#32 }).status.word = 0x03002106#32 ∧
    (ran 0x105 { State.reset with opd := State.reset.opd.set 0 0x02010000#32 }).status.word = 0x02002106#32 := by
  decide

/-- The byte `0x32` is `NON_BINARY`; an unwritten byte is `UNINIT`. -/
theorem test_operand_contents :
    (ran 0x105 { State.reset with
      mem := [(0x2000, 0x31#8), (0x2001, 0x32#8), (0x2002, 0x31#8)]
      opd := State.reset.opd.set 0 0x00030000#32 }).status.word = 0x04002106#32 ∧
    faultOf (exec .hamEnc { State.reset with
      mem := [(0x2000, 0x31#8), (0x2002, 0x31#8)]
      opd := State.reset.opd.set 0 0x00030000#32 }) = some .uninit := by decide

/-- The illegal word 0 completes with `BAD_UNIT`. -/
theorem test_illegal_word : (ran 0 State.reset).status.word = 0x0D001306#32 := by decide

/-! ### Host accesses (95_test_vectors.md, host-access table) -/

/-- The reset state with `BUSY = 1` and two host steps to go. -/
def busyState : State := acceptCommand 0x103#32 2 (withAux (bits [1,1,0,1]) (withOperand (bits [1,0,1,1])))

theorem test_bus_errors :
    faultOf (hostRead 0x002#16 .w2 State.reset) = some (.busError 0x002#16 .w2 .read) ∧
    faultOf (hostWrite 0x000#16 .w4 0#32 State.reset) = some (.busError 0x000#16 .w4 .write) ∧
    faultOf (hostRead 0x080#16 .w4 State.reset) = some (.busError 0x080#16 .w4 .read) ∧
    faultOf (hostWrite 0x3000#16 .w1 0x31#32 State.reset) = some (.busError 0x3000#16 .w1 .write) ∧
    faultOf (hostRead 0x2001#16 .w2 State.reset) = some (.busError 0x2001#16 .w2 .read) := by decide

theorem test_read_id : (after (hostRead 0x000#16 .w4 State.reset)).response = some 0x45444331#32 := by decide

/-- `IBUF[0..3] = 31 30 31 31` reads little-endian. -/
theorem test_ibuf_little_endian :
    (after (hostRead 0x2000#16 .w4 (withOperand (bits [1,0,1,1])))).response = some 0x31313031#32 := by decide

theorem test_ibuf_unwritten : faultOf (hostRead 0x2000#16 .w1 State.reset) = some .uninit := by decide

theorem test_hazards :
    faultOf (hostWrite 0x2000#16 .w1 0x30#32 busyState) = some .hazard ∧
    faultOf (hostWrite 0x100#16 .w4 0#32 busyState) = some .hazard ∧
    (after (hostWrite 0x018#16 .w4 3#32 busyState)).tidx = 3#16 := by decide

/-- A `CMD` write while busy is dropped: `STATUS = 9`, `CMD` unchanged. -/
theorem test_overrun :
    (after (hostWrite 0x008#16 .w4 0x105#32 busyState)).status.word = 0x00000009#32 ∧
    (after (hostWrite 0x008#16 .w4 0x105#32 busyState)).cmd = 0x103#32 := by decide

/-- `STATUS = 0x0A`: writing 8 clears `OVR`, writing 7 changes nothing. -/
theorem test_status_write :
    (after (hostWrite 0x00C#16 .w4 0x8#32
      { State.reset with status := { Status.reset with done := true, ovr := true } })).status.word = 0x2#32 ∧
    (after (hostWrite 0x00C#16 .w4 0x7#32
      { State.reset with status := { Status.reset with done := true, ovr := true } })).status.word = 0xA#32 := by
  decide

/-- The state after `CRC.ENC 100100 / 1101` with `TIDX = 4` (program P2). -/
def tracedState : State :=
  { ran 0x103 (withAux (bits [1,1,0,1]) (withOperand (bits [1,0,0,1,0,0]))) with tidx := 4#16 }

/-- P2: record 4 has `TR_N1 = 0`, `TR_S0 = 0110`; past the end the window reads 0. -/
theorem test_trace_window :
    (after (hostRead 0x208#16 .w4 tracedState)).response = some 0#32 ∧
    (after (hostRead 0x0801#16 .w1 tracedState)).response = some 0x31#32 ∧
    (after (hostRead 0x204#16 .w4 { tracedState with tidx := 7#16 })).response = some 0#32 := by decide

/-- `TR_POS` of the last record of `HAM.ENC 1011` reads as 16-bit entries. -/
theorem test_trace_positions :
    (after (hostRead 0x0402#16 .w2
      { ran 0x105 (withOperand (bits [1,0,1,1])) with tidx := 2#16 })).response = some 5#32 := by decide

/-- The pseudo-instructions `SETOPD 1, 4, 3` and `SETAUX 8, 4` (programs P5, P2). -/
theorem test_notation :
    setOpd 1 4 3 = .write 0x104#16 .w4 0x00030004#32 ∧ setAux 8 4 = .write 0x010#16 .w4 0x00040008#32 ∧
    issue (.lrcEnc true 2) = .write 0x008#16 .w4 0x00000212#32 := by decide

/-- Reset abandons a command in flight and makes `IBUF` unwritten. -/
theorem test_reset_event :
    (after (step { busyState with pending := [.assertReset, pollRead] })).status = Status.reset ∧
    (after (step { busyState with pending := [.assertReset, pollRead] })).mem = [] ∧
    (after (step { busyState with pending := [.assertReset, pollRead] })).pending = [pollRead] := by decide

/-! ### The hypotheses of the obligations can be met -/

/-- A two-character operand. -/
def small : State := withOperand (bits [1,1])

/-- An operand and a divisor. -/
def divisible : State := withAux (bits [1,1]) (withOperand (bits [1,1]))

/-- Two blocks and a received LRC. -/
def blocksState : State := withAux (bits [0,1]) (withTwoBlocks (bits [1,0]) (bits [1,1]))

theorem holds_small : HoldsOperand small small.opd[0] (bits [1,1]) := by decide
theorem holds_divisible : HoldsOperand divisible divisible.opd[0] (bits [1,1]) := by decide
theorem holds_divisor : HoldsOperand divisible divisible.aux (bits [1,1]) := by decide

theorem holds_block_0 : HoldsOperand blocksState blocksState.opd[0] (bits [1,0]) := by decide
theorem holds_block_1 : HoldsOperand blocksState blocksState.opd[1] (bits [1,1]) := by decide

theorem holds_blocks : HoldsBlocks blocksState [bits [1,0], bits [1,1]] := by
  intro i h hi
  have : i = 0 ∨ i = 1 := by simp at hi; omega
  rcases this with rfl | rfl
  · exact holds_block_0
  · exact holds_block_1

theorem holds_received : HoldsOperand blocksState blocksState.aux (bits [0,1]) := by decide

theorem witness_ResetEventRestoresTheResetState :
    coreTurn { busyState with pending := [.assertReset] } = false ∧
    ({ busyState with pending := [.assertReset] } : State).pending = .assertReset :: [] := by decide

theorem witness_StepRunsTheAcceptedCommand :
    (busyState.status.busy = true ∧ busyState.pending = [] ∧ decode busyState.cmd = .ok .crcEnc) ∧
    (small.withFetchWord 32 0x105).status.busy = true ∧ (small.withFetchWord 32 0x105).countdown = 0 ∧
    decode (small.withFetchWord 32 0x105).cmd = .ok .hamEnc := by decide

theorem witness_StepTakesTheNextHostEvent :
    (({ busyState with pending := [pollRead] } : State).pending = pollRead :: [] ∧ busyState.countdown ≠ 0) ∧
    (({ small with pending := [pollRead] } : State).pending = pollRead :: [] ∧ small.status.busy = false) ∧
    State.reset.pending = [] ∧ State.reset.status.busy = false := by decide

theorem witness_DecodeOfEncode : WellFormed (.lrcVer true 64) = true := by decide
theorem witness_EncodeOfDecode : decode 0x0000401A#32 = .ok (.lrcVer true 64) := by decide

/-- LRC with a count of 65, the first past `MAXBLK`; and an idle and a completing state. -/
theorem witness_IllegalWordsCompleteWithIllegalCommand :
    ¬ InOpcodeMap 0x00004102#32 ∧ State.reset.status.busy = false ∧
    (State.reset.withFetchWord 32 0x4102).cmd = 0x00004102#32 ∧
    (State.reset.withFetchWord 32 0x4102).status.busy = true ∧
    (State.reset.withFetchWord 32 0x4102).countdown = 0 := by
  refine ⟨?_, by decide⟩
  unfold InOpcodeMap
  decide

theorem witness_AssemblerAcceptsExactlyItsSyntax :
    assemble ⟨.lrcEnc, some true, some 64⟩ = some 0x00004012#32 ∧ assemble ⟨.lrcEnc, some true, some 65⟩ = none := by
  decide

theorem witness_BitStringValueIsMsbFirst : 226 < 2 ^ 8 ∧ 0 < 2 ^ 0 ∧ 255 < 2 ^ 8 := by decide

/-- A state whose first byte is no character and whose second is unwritten, and descriptors at the edges of each
check. -/
def edgeState : State := { State.reset with mem := [(0x2000, 0x32#8), (0x2FFF, 0x31#8)] }

theorem witness_ReadOperandChecksInOrder :
    descLen 0x0000FFFF#32 = 0 ∧
    512 < descLen 0x02010000#32 ∧
    (1 ≤ descLen 0x00020FFF#32 ∧ descLen 0x00020FFF#32 ≤ 512 ∧
      4096 < descOff 0x00020FFF#32 + descLen 0x00020FFF#32) ∧
    (1 ≤ descLen 0x00020000#32 ∧ descOff 0x00020000#32 + descLen 0x00020000#32 ≤ 4096 ∧
      ∃ i < descLen 0x00020000#32, Memory.read edgeState.mem (0x2000 + descOff 0x00020000#32 + i) = none) ∧
    (1 ≤ descLen 0x00010000#32 ∧
      (∀ i < descLen 0x00010000#32, Memory.read edgeState.mem (0x2000 + descOff 0x00010000#32 + i) ≠ none) ∧
      ∃ i < descLen 0x00010000#32, Memory.read edgeState.mem (0x2000 + descOff 0x00010000#32 + i) ≠ some 0x30#8 ∧
        Memory.read edgeState.mem (0x2000 + descOff 0x00010000#32 + i) ≠ some 0x31#8) ∧
    HoldsOperand edgeState 0x00010FFF#32 [true] ∧
    readOperand edgeState .opd 0 0x00010FFF#32 = .ok [true] := by decide

/-- The operand hypothesis and the failing-operand hypothesis of `VRC.*` and `HAM.*`. -/
theorem witness_VrcEncAppendsTheParityBit :
    HoldsOperand small small.opd[0] (bits [1,1]) ∧
    ∃ stop, readOperand State.reset .opd 0 State.reset.opd[0] = .error stop :=
  ⟨holds_small, _, rfl⟩

theorem witness_VrcVerChecksTheWholeUnit :
    HoldsOperand small small.opd[0] (bits [1,1]) ∧
    ∃ stop, readOperand State.reset .opd 0 State.reset.opd[0] = .error stop :=
  ⟨holds_small, _, rfl⟩

theorem witness_HamEncBuildsTheCodeword :
    HoldsOperand small small.opd[0] (bits [1,1]) ∧
    ∃ stop, readOperand State.reset .opd 0 State.reset.opd[0] = .error stop :=
  ⟨holds_small, _, rfl⟩

theorem witness_HamVerCorrectsTheNamedPosition :
    HoldsOperand small small.opd[0] (bits [1,1]) ∧
    ∃ stop, readOperand State.reset .opd 0 State.reset.opd[0] = .error stop :=
  ⟨holds_small, _, rfl⟩

/-- Readable blocks of one length; the second block missing; blocks of two lengths; a count past `MAXBLK`. -/
theorem witness_LrcEncWritesTheColumnParities :
    HoldsBlocks blocksState [bits [1,0], bits [1,1]] ∧
    (∀ b ∈ [bits [1,0], bits [1,1]], b.length = 2) ∧
    (HoldsBlocks small [] ∧ ([] : List BitString).length < 1 ∧ State.reset.opd[0]? = some 0#32 ∧
      ∃ stop, readOperand State.reset .opd 0 0#32 = .error stop) ∧
    ([bits [1], bits [1,1]].getD 1 []).length ≠ ([bits [1], bits [1,1]].getD 0 []).length ∧ 64 < 65 := by
  refine ⟨holds_blocks, by decide, ⟨?_, by decide, by decide, _, rfl⟩, by decide, by decide⟩
  intro i _ hi
  simp at hi

/-- Two blocks of two lengths. -/
def unequalState : State := withTwoBlocks (bits [1]) (bits [1,1])

theorem holds_unequal_0 : HoldsOperand unequalState unequalState.opd[0] (bits [1]) := by decide
theorem holds_unequal_1 : HoldsOperand unequalState unequalState.opd[1] (bits [1,1]) := by decide

theorem witness_lrc_mismatch_blocks : HoldsBlocks unequalState [bits [1], bits [1,1]] := by
  intro i h hi
  have : i = 0 ∨ i = 1 := by simp at hi; omega
  rcases this with rfl | rfl
  · exact holds_unequal_0
  · exact holds_unequal_1

theorem witness_LrcVerComparesTheColumnParities :
    HoldsBlocks blocksState [bits [1,0], bits [1,1]] ∧ HoldsOperand blocksState blocksState.aux (bits [0,1]) ∧
    (∀ b ∈ [bits [1,0], bits [1,1]], b.length = 2) ∧
    ∃ stop, readOperand State.reset .aux 0 State.reset.aux = .error stop :=
  ⟨holds_blocks, holds_received, by decide, _, rfl⟩

/-- A division; a divisor of one bit; a divisor that leads with 0; a failing `AUX` behind a good `OPD[0]`. -/
theorem witness_CrcEncAppendsTheRemainder :
    (HoldsOperand divisible divisible.opd[0] (bits [1,1]) ∧ HoldsOperand divisible divisible.aux (bits [1,1]) ∧
      2 ≤ (bits [1,1]).length ∧ (bits [1,1]).head? = some true) ∧
    HoldsOperand (withAux (bits [1]) small) (withAux (bits [1]) small).aux (bits [1]) ∧
    (HoldsOperand (withAux (bits [0,1]) small) (withAux (bits [0,1]) small).aux (bits [0,1]) ∧
      (bits [0,1]).head? = some false) ∧
    ∃ stop, readOperand small .aux 0 small.aux = .error stop :=
  ⟨by decide, by decide, by decide, _, rfl⟩

/-- The same with a codeword as short as the divisor, and one shorter. -/
theorem witness_CrcVerAcceptsAZeroRemainder :
    (HoldsOperand divisible divisible.opd[0] (bits [1,1]) ∧ HoldsOperand divisible divisible.aux (bits [1,1]) ∧
      (bits [1,1]).head? = some true ∧ (bits [1,1]).length ≤ (bits [1,1]).length) ∧
    HoldsOperand (withAux (bits [1,0,1]) small) (withAux (bits [1,0,1]) small).aux (bits [1,0,1]) ∧
    (bits [1,1]).length < (bits [1,0,1]).length := by decide

/-- Block sizes 1 and the whole length; block size 0; a block size that does not divide. -/
theorem witness_CsumEncWritesSumAndComplement :
    (HoldsOperand (withBlksz 1 small) (withBlksz 1 small).opd[0] (bits [1,1]) ∧
      1 ≤ (withBlksz 1 small).blksz.toNat ∧ (bits [1,1]).length % (withBlksz 1 small).blksz.toNat = 0) ∧
    (bits [1,1]).length % (withBlksz 2 small).blksz.toNat = 0 ∧ small.blksz.toNat = 0 ∧
    (bits [1,1]).length % (withBlksz 3 small).blksz.toNat ≠ 0 := by decide

theorem witness_CsumVerAcceptsAllOnes :
    (HoldsOperand (withBlksz 1 small) (withBlksz 1 small).opd[0] (bits [1,1]) ∧
      1 ≤ (withBlksz 1 small).blksz.toNat ∧ (bits [1,1]).length % (withBlksz 1 small).blksz.toNat = 0) ∧
    (bits [1,1]).length % (withBlksz 2 small).blksz.toNat = 0 ∧ small.blksz.toNat = 0 ∧
    (bits [1,1]).length % (withBlksz 3 small).blksz.toNat ≠ 0 := by decide

/-- The smallest division, for `Mod2DivStepsFollowLongDivision` and `Mod2DivIsPolynomialDivision`. -/
theorem witness_Mod2DivStepsFollowLongDivision :
    2 ≤ (bits [1,1]).length ∧ (bits [1,1]).head? = some true ∧ (bits [1,1]).length ≤ (bits [1,0]).length := by
  decide

theorem witness_Mod2DivIsPolynomialDivision :
    2 ≤ (bits [1,0,1]).length ∧ (bits [1,0,1]).head? = some true ∧
    (bits [1,0,1]).length ≤ (bits [1,0,0,1]).length := by decide

theorem witness_ChecksumAccumulatesWithEndAroundCarry : 1 ≤ 2 ∧ (bits [1,1,1,0]).length % 2 = 0 := by decide
theorem witness_ChecksumIsTheOnesComplementSum : 1 ≤ 1 ∧ (bits [1,1,1]).length % 1 = 0 := by decide

theorem witness_VrcRoundTripAndBlindSpot :
    (HoldsOperand small small.opd[0] (bits [1,1]) ∧
      exec (.vrcEnc true) small = .next (after (exec (.vrcEnc true) small)) ∧
      HoldsResult (after (exec (.vrcEnc true) small)) 0x3000
        (after (exec (.vrcEnc true) small)).rlenA (bits [1,1,0]) ∧
      HoldsOperand (withOperand (bits [1,1,0])) (withOperand (bits [1,1,0])).opd[0] (bits [1,1,0])) ∧
    HoldsOperand (withOperand (bits [1,0])) (withOperand (bits [1,0])).opd[0] (bits [1,0]) ∧
    (bits [1,1]).length = (bits [1,0]).length :=
  ⟨⟨holds_small, eq_next_after _ (by decide), ⟨by decide, by decide⟩, by decide⟩, by decide, by decide⟩

theorem witness_LrcRoundTripAndBlindSpot :
    HoldsBlocks blocksState [bits [1,0], bits [1,1]] ∧ (∀ b ∈ [bits [1,0], bits [1,1]], b.length = 2) ∧
    exec (.lrcEnc true 2) blocksState = .next (after (exec (.lrcEnc true 2) blocksState)) ∧
    HoldsResult (after (exec (.lrcEnc true 2) blocksState)) 0x3000
      (after (exec (.lrcEnc true 2) blocksState)).rlenA (bits [0,1]) ∧
    HoldsOperand blocksState blocksState.aux (bits [0,1]) :=
  ⟨holds_blocks, by decide, eq_next_after _ (by decide), ⟨by decide, by decide⟩, holds_received⟩

/-- `11 / 11` has the codeword `110`; the received word is the codeword, and the codeword with its last bit flipped. -/
theorem witness_CrcRoundTripAndBlindSpot :
    HoldsOperand divisible divisible.opd[0] (bits [1,1]) ∧ HoldsOperand divisible divisible.aux (bits [1,1]) ∧
    (bits [1,1]).head? = some true ∧ exec .crcEnc divisible = .next (after (exec .crcEnc divisible)) ∧
    HoldsResult (after (exec .crcEnc divisible)) 0x3000 (after (exec .crcEnc divisible)).rlenA (bits [1,1,0]) ∧
    HoldsOperand (withAux (bits [1,1]) (withOperand (bits [1,1,0])))
      (withAux (bits [1,1]) (withOperand (bits [1,1,0]))).opd[0] (bits [1,1,0]) ∧
    HoldsOperand (withAux (bits [1,1]) (withOperand (bits [1,1,1])))
      (withAux (bits [1,1]) (withOperand (bits [1,1,1]))).opd[0] (bits [1,1,1]) ∧
    bits [1,1,1] = (bits [1,1,0]).dropLast ++ [!((bits [1,1,0]).getLastD false)] :=
  ⟨holds_divisible, holds_divisor, by decide, eq_next_after _ (by decide), ⟨by decide, by decide⟩, by decide,
    by decide, by decide⟩

theorem witness_ChecksumRoundTripAndBlindSpot :
    (HoldsOperand (withBlksz 2 small) (withBlksz 2 small).opd[0] (bits [1,1]) ∧
      exec .csumEnc (withBlksz 2 small) = .next (after (exec .csumEnc (withBlksz 2 small))) ∧
      HoldsResult (after (exec .csumEnc (withBlksz 2 small))) 0x3400
        (after (exec .csumEnc (withBlksz 2 small))).rlenB (bits [0,0]) ∧
      HoldsOperand (withBlksz 2 (withOperand (bits [1,1,0,0])))
        (withBlksz 2 (withOperand (bits [1,1,0,0]))).opd[0] (bits [1,1] ++ bits [0,0])) ∧
    blockSum (bits [1,1,0,1]) 2 = blockSum (bits [1,0,1,0]) 2 ∧ (bits [1,1,0,1]).length % 2 = 0 :=
  ⟨⟨by decide, eq_next_after _ (by decide), ⟨by decide, by decide⟩, by decide⟩, by decide, by decide⟩

/-- `1` has the codeword `111`; position 3, the last, is flipped. -/
theorem witness_HammingCorrectsSingleErrors :
    HoldsOperand (withOperand (bits [1])) (withOperand (bits [1])).opd[0] (bits [1]) ∧
    exec .hamEnc (withOperand (bits [1])) = .next (after (exec .hamEnc (withOperand (bits [1])))) ∧
    HoldsResult (after (exec .hamEnc (withOperand (bits [1])))) 0x3000
      (after (exec .hamEnc (withOperand (bits [1])))).rlenA (bits [1,1,1]) ∧
    HoldsOperand (withOperand (bits [1,1,1])) (withOperand (bits [1,1,1])).opd[0] (bits [1,1,1]) ∧
    HoldsOperand (withOperand (bits [1,1,0])) (withOperand (bits [1,1,0])).opd[0]
      ((bits [1,1,1]).set (3 - 1) (!(posBit (bits [1,1,1]) 3))) :=
  ⟨by decide, eq_next_after _ (by decide), ⟨by decide, by decide⟩, by decide, by decide⟩

theorem witness_CommandIssueIsAcceptedOrDropped :
    State.reset.status.busy = false ∧ busyState.status.busy = true := by decide

theorem witness_OperandRegisterWritesTakeEffect : State.reset.status.busy = false := by decide
theorem witness_RegisterReadsFollowTheMap : tracedState.status.busy = false := by decide

/-- The edges of operand state, each with an access that is no bus error. -/
theorem witness_BusyHazardsOnOperandWrites :
    busyState.status.busy = true ∧
    (OperandOffset 0x2000 ∧ ¬ BadAccess 0x2000 1 .write) ∧ (OperandOffset 0x2FFC ∧ ¬ BadAccess 0x2FFC 4 .write) ∧
    (OperandOffset 0x100 ∧ ¬ BadAccess 0x100 4 .write) ∧ (OperandOffset 0x1FC ∧ ¬ BadAccess 0x1FC 4 .write) ∧
    (OperandOffset 0x010 ∧ ¬ BadAccess 0x010 4 .write) ∧ (OperandOffset 0x014 ∧ ¬ BadAccess 0x014 4 .write) ∧
    ((0x2000#16).toNat % Width.w4.bytes = 0 ∧
      ∀ j < Width.w4.bytes,
        Memory.read busyState.mem ((0x2000#16).toNat + j) = some (fillChar (bits [1,0,1,1]) j)) := by
  refine ⟨by decide, ?_, ?_, ?_, ?_, ?_, ?_, by decide⟩ <;> simp [OperandOffset, BadAccess]

/-- `1011` in `IBUF` reads `0x31313031` while busy (20_memory.md R46 to R48). -/
theorem test_busy_wide_read :
    ReadsAs busyState 0x2000#16 .w4 0x31313031#32 := rfl

/-- The edges of result state, each with an access that is no bus error. -/
theorem witness_BusyResultReadsReturnSomeValue :
    busyState.status.busy = true ∧
    (ResultOffset 0x01C ∧ ¬ BadAccess 0x01C 4 .read) ∧ (ResultOffset 0x07C ∧ ¬ BadAccess 0x07C 4 .read) ∧
    (ResultOffset 0x200 ∧ ¬ BadAccess 0x200 4 .read) ∧ (ResultOffset 0x21C ∧ ¬ BadAccess 0x21C 4 .read) ∧
    (ResultOffset 0x400 ∧ ¬ BadAccess 0x400 2 .read) ∧ (ResultOffset 0x13FF ∧ ¬ BadAccess 0x13FF 1 .read) ∧
    (ResultOffset 0x3000 ∧ ¬ BadAccess 0x3000 4 .read) ∧ (ResultOffset 0x3BFF ∧ ¬ BadAccess 0x3BFF 1 .read) := by
  refine ⟨by decide, ?_, ?_, ?_, ?_, ?_, ?_, ?_, ?_⟩ <;> simp [ResultOffset, BadAccess]

/-- Written `IBUF` bytes while idle and while busy, and the first and last `OBUF` bytes after a command. -/
theorem witness_BufferByteReadsReturnTheStoredByte :
    Memory.read small.mem 0x2000 = some 0x31#8 ∧ Memory.read busyState.mem 0x2000 = some 0x31#8 ∧
    (ran 0x111 small).status.busy = false ∧
    Memory.read (ran 0x111 small).mem 0x3000 = some 0x31#8 ∧
    Memory.read (ran 0x111 small).mem 0x3BFF = some 0x00#8 := by decide

/-- Two bytes of `OBUF_A` while idle, and four bytes of `IBUF` while busy. -/
theorem witness_WideReadsSeeTheSameBytes :
    ((ran 0x111 small).status.busy = false ∧ 0x3000 % 2 = 0 ∧
      ∀ j < 2, ReadsAs (ran 0x111 small) (BitVec.ofNat 16 (0x3000 + j)) .w1 0x31#32) ∧
    busyState.status.busy = true ∧ 0x2000 % 4 = 0 ∧
    ∀ j < 4, ReadsAs busyState (BitVec.ofNat 16 (0x2000 + j)) .w1
      (BitVec.ofNat 32 (fillChar (bits [1,0,1,1]) j).toNat) := by
  refine ⟨⟨by decide, by decide, fun j hj => ?_⟩, by decide, by decide, fun j hj => ?_⟩
  · have : j = 0 ∨ j = 1 := by omega
    rcases this with rfl | rfl <;> rfl
  · have : j = 0 ∨ j = 1 ∨ j = 2 ∨ j = 3 := by omega
    rcases this with rfl | rfl | rfl | rfl <;> rfl

/-- `VRC.ENC even` on `11` leaves `110` in `OBUF_A` and fills the rest with `0x00` (41_vrc.md R77, 40_bitstring.md R73). -/
theorem test_obuf_reads :
    (after (hostRead 0x3002#16 .w1 (ran 0x111 small))).response = some 0x30#32 ∧
    (after (hostRead 0x3BFF#16 .w1 (ran 0x111 small))).response = some 0x00#32 := by decide

theorem witness_IbufWriteThenRead :
    State.reset.status.busy = false ∧ 0x2000 ≤ (0x2FFE#16).toNat ∧ (0x2FFE#16).toNat < 0x3000 ∧
    (0x2FFE#16).toNat % Width.w2.bytes = 0 := by decide

theorem witness_TraceWindowShowsTheSelectedRecord :
    tracedState.status.busy = false ∧ tracedState.tidx.toNat < tracedState.tcount.toNat ∧
    (∃ rec, tracedState.trace[tracedState.tidx.toNat]? = some rec) ∧
    State.reset.tcount.toNat ≤ State.reset.tidx.toNat :=
  ⟨by decide, by decide, Option.isSome_iff_exists.mp (by decide), by decide⟩

/-- The unwritten byte at the last offset; an operand whose second byte is unwritten. -/
theorem witness_UnwrittenBytesFault :
    (∃ j < Width.w1.bytes, Memory.read State.reset.mem ((0x2FFF#16).toNat + j) = none) ∧
    1 ≤ descLen (small.opd.set 0 0x00030000#32)[0] ∧
    ∃ j < descLen (small.opd.set 0 0x00030000#32)[0],
      Memory.read small.mem (0x2000 + descOff (small.opd.set 0 0x00030000#32)[0] + j) = none := by decide

/-- A reset takes the written byte at offset `0x2000` away. -/
theorem witness_OnlyResetMakesBytesUnwritten :
    step { small with pending := [.assertReset] } =
      .next (after (step { small with pending := [.assertReset] })) ∧
    Memory.read ({ small with pending := [.assertReset] } : State).mem 0x2000 ≠ none ∧
    Memory.read (after (step { small with pending := [.assertReset] })).mem 0x2000 = none :=
  ⟨eq_next_after _ (by decide), by decide, by decide⟩

theorem witness_FailedCommandsWriteOnlyStatus :
    completeCommand { State.reset with cmd := 0x105#32 } =
      .next (after (completeCommand { State.reset with cmd := 0x105#32 })) ∧
    (after (completeCommand { State.reset with cmd := 0x105#32 })).status.err = true :=
  ⟨eq_next_after _ (by decide), by decide⟩

theorem witness_ReportsFollowTheCauseTable :
    completeCommand State.reset = .next (after (completeCommand State.reset)) ∧
    (after (completeCommand State.reset)).status.err = true :=
  ⟨eq_next_after _ (by decide), by decide⟩

theorem witness_SuccessClearsWhatItDoesNotProduce :
    exec .hamVer small = .next (after (exec .hamVer small)) ∧ (after (exec .hamVer small)).status.err = false :=
  ⟨eq_next_after _ (by decide), by decide⟩

theorem witness_CommandFrame : exec .hamVer small = .next (after (exec .hamVer small)) :=
  eq_next_after _ (by decide)

/-- `IBUF` written throughout: every byte the same. -/
theorem witness_CommandsCompleteWhenIbufIsWritten :
    ∃ m : Memory, ∀ a, 0x2000 ≤ a → a < 0x3000 → Memory.read m a ≠ none := by
  refine ⟨Memory.writeBytes [] 0x2000 (List.replicate 4096 0x30#8), fun a h1 h2 => ?_⟩
  rw [Memory.read_writeBytes, if_pos (by rw [List.length_replicate]; omega),
    List.getElem?_replicate_of_lt (by omega)]
  simp

theorem witness_CommandsAreIdempotent :
    MemoryCanonical small ∧ exec .hamVer small = .next (after (exec .hamVer small)) :=
  ⟨by unfold MemoryCanonical; decide, eq_next_after _ (by decide)⟩

/-- Two states that agree on operands and differ in `TIDX`. -/
theorem witness_OutcomeDependsOnOperandsAlone :
    small.cmd = ({ small with tidx := 1#16 } : State).cmd ∧ small.opd = ({ small with tidx := 1#16 } : State).opd ∧
    small.aux = ({ small with tidx := 1#16 } : State).aux ∧
    small.blksz = ({ small with tidx := 1#16 } : State).blksz ∧
    (∀ a, Memory.read small.mem a = Memory.read ({ small with tidx := 1#16 } : State).mem a) ∧
    completeCommand small = .next (after (completeCommand small)) :=
  ⟨rfl, rfl, rfl, rfl, fun _ => rfl, eq_next_after _ (by decide)⟩

theorem reset_results_are_strings : ResultsAreStrings State.reset := by
  have h : ∀ base, 0x3000 ≤ base → base ≤ 0x3800 → RegionHoldsString State.reset base 0#32 := by
    intro base h1 h2
    refine ⟨by decide, fun a ha => ⟨fun h => absurd h (by simp), fun _ => ?_⟩⟩
    show Memory.unlisted (base + a) = some 0x00#8
    unfold Memory.unlisted
    rw [if_pos (show 0x3000 ≤ base + a ∧ base + a < 0x3C00 by omega)]
  exact ⟨h _ (by decide) (by decide), h _ (by decide) (by decide), h _ (by decide) (by decide)⟩

/-- The invariants' hypotheses: the reset state meets each, and its step goes on. -/
theorem witness_invariants :
    MemoryCanonical State.reset ∧ ReportConsistent State.reset ∧ CodesInRange State.reset ∧
    TraceCounted State.reset ∧ TraceFits State.reset ∧ ResultsAreStrings State.reset ∧
    LatencyBounded State.reset ∧ step State.reset = .next State.reset := by
  refine ⟨?_, ?_, ?_, ?_, ?_, reset_results_are_strings, ?_, rfl⟩
  · unfold MemoryCanonical; decide
  · unfold ReportConsistent; decide
  · unfold CodesInRange; decide
  · unfold TraceCounted; decide
  · unfold TraceFits; decide
  · exact ⟨Nat.zero_le _, fun _ => rfl⟩

/-- A host that issues a command and then polls `LAT` times. -/
theorem witness_AcceptedCommandCompletesWithinLat :
    State.reset.status.busy = false ∧
    ({ State.reset with
      pending := wr 0x008#16 0x105#32 :: (List.replicate Config.lat pollRead ++ []) } : State).pending =
      wr 0x008#16 0x105#32 :: (List.replicate Config.lat pollRead ++ []) ∧ Config.lat ≤ Config.lat :=
  ⟨rfl, rfl, Nat.le_refl _⟩

end Sys2Proof.Tests
end

namespace Sys2Proof.Proofs

open Sys2Proof.Machine Sys2Proof.Claims

/-! ### Host accesses: the place an offset names, and the answer of an access to it (20_memory.md R43 to R45) -/

/-- The number of a window offset written as a 16-bit word. -/
theorem toNat_windowOffset {off : Nat} (hlt : off < 2 ^ 16) : (BitVec.ofNat 16 off).toNat = off := by
  rw [BitVec.toNat_ofNat, Nat.mod_eq_of_lt hlt]

/-- An aligned 4-byte access below `0x300` names the register of that offset. -/
theorem targetAt_reg {off : Nat} {r : Reg} (halign : off % 4 = 0) (hlt : off < 0x300)
    (hr : regAt off = some r) : targetAt off .w4 = some (.reg r) := by
  simp [targetAt, regEnd, halign, hlt, hr]

/-- An aligned access at or above `0x300` names the buffer of that offset. -/
theorem targetAt_buffer {off : Nat} {n : Width} {b : Buffer} (halign : off % n.bytes = 0)
    (hge : 0x300 ≤ off) (hb : findBuffer bufferRows off = some b) :
    targetAt off n = some (.buffer b) := by
  have hnot : ¬ off < regEnd := Nat.not_lt.mpr hge
  simp [targetAt, hnot, halign, hb]

/-- In a table of disjoint rising rows, an offset inside a row is found there. -/
theorem findBuffer_of_mem {rows : List BufferRow} {r : BufferRow} {a : Nat}
    (hrising : rows.Pairwise (fun p q => p.base + p.size ≤ q.base)) (hr : r ∈ rows)
    (hge : r.base ≤ a) (hlt : a < r.base + r.size) : findBuffer rows a = some r.buffer := by
  induction rows with
  | nil => exact absurd hr List.not_mem_nil
  | cons p rows ih =>
    obtain ⟨hp, hrows⟩ := List.pairwise_cons.mp hrising
    rcases List.mem_cons.mp hr with rfl | hr
    · exact if_pos ⟨hge, hlt⟩
    · have hpast : p.base + p.size ≤ r.base := hp r hr
      rw [findBuffer, if_neg (by omega)]
      exact ih hrows hr

/-- An offset inside a region of the window map is in that region's buffer. -/
theorem findBuffer_of_bufferRow {r : BufferRow} {a : Nat} (hr : r ∈ bufferRows) (hge : r.base ≤ a)
    (hlt : a < r.base + r.size) : findBuffer bufferRows a = some r.buffer :=
  findBuffer_of_mem (by decide) hr hge hlt

/-- The checks of a host read pass where the offset names a place. -/
theorem checkAccess_read {off : BitVec 16} {n : Width} {t : Target}
    (ht : targetAt off.toNat n = some t) : checkAccess off n .read = .ok t := by
  simp [checkAccess, ht]

/-- The checks of a host write pass where the offset names a writable place. -/
theorem checkAccess_write {off : BitVec 16} {n : Width} {t : Target}
    (ht : targetAt off.toNat n = some t) (hw : t.writable = true) :
    checkAccess off n .write = .ok t := by
  simp [checkAccess, ht, hw]

/-- A read of a place that is no result state, or with no command in flight, answers the exact value (R44, R146). -/
theorem readsAs_of_targetValue {s : State} {off : BitVec 16} {n : Width} {t : Target} {v : Word}
    (ht : targetAt off.toNat n = some t) (hexact : s.status.busy = false ∨ t.isResult = false)
    (hv : targetValue s off.toNat n t = .ok v) : ReadsAs s off n v := by
  have hnoDraw : ¬ (s.status.busy = true ∧ t.isResult = true) := by
    rcases hexact with h | h <;> simp [h]
  unfold ReadsAs hostRead
  rw [checkAccess_read ht]
  simp only [if_neg hnoDraw, hv]

/-- A write to a writable place that is no operand state, or with no command in flight, has its effect (R44, R145). -/
theorem hostWrite_of_targetAt {s : State} {off : BitVec 16} {n : Width} {t : Target} (v : Word)
    (ht : targetAt off.toNat n = some t) (hw : t.writable = true)
    (hfree : s.status.busy = false ∨ t.isOperand = false) :
    hostWrite off n v s = .next { writeTarget off.toNat n v s t with response := none } := by
  have hnoHazard : ¬ (s.status.busy = true ∧ t.isOperand = true) := by
    rcases hfree with h | h <;> simp [h]
  unfold hostWrite
  rw [checkAccess_write ht hw]
  simp only [if_neg hnoHazard]

/-- A register that is no result state, or any with no command in flight, reads as its value. -/
theorem readsAs_reg {s : State} {off : Nat} {r : Reg} (halign : off % 4 = 0) (hlt : off < 0x300)
    (hr : regAt off = some r) (hexact : s.status.busy = false ∨ r.isResult = false) :
    ReadsAs s (BitVec.ofNat 16 off) .w4 (r.value s) := by
  have hoff := toNat_windowOffset (off := off) (by omega)
  exact readsAs_of_targetValue (t := .reg r) (by rw [hoff]; exact targetAt_reg halign hlt hr) hexact rfl

/-- A write to a writable register that is no operand state, or with no command in flight, has the register's
effect. -/
theorem hostWrite_reg {s : State} {off : Nat} {r : Reg} (v : Word) (halign : off % 4 = 0)
    (hlt : off < 0x300) (hr : regAt off = some r) (hw : r.writable = true)
    (hfree : s.status.busy = false ∨ r.isOperand = false) :
    hostWrite (BitVec.ofNat 16 off) .w4 v s = .next { writeReg r v s with response := none } := by
  have hoff := toNat_windowOffset (off := off) (by omega)
  exact hostWrite_of_targetAt (t := .reg r) v (by rw [hoff]; exact targetAt_reg halign hlt hr) hw hfree

/-- A one-byte value is that byte (20_memory.md R46). -/
theorem bufferValue_one {s : State} {b : Buffer} {off : Nat} {x : Byte}
    (hx : bufferByte s off b = some x) : bufferValue s b off 1 = some x.toNat := by
  simp [bufferValue, hx]

/-- A two-byte value is little-endian (20_memory.md R46). -/
theorem bufferValue_two {s : State} {b : Buffer} {off : Nat} {x y : Byte}
    (hx : bufferByte s off b = some x) (hy : bufferByte s (off + 1) b = some y) :
    bufferValue s b off 2 = some (x.toNat + 256 * y.toNat) := by
  simp [bufferValue, hx, hy]

/-- An aligned read of `IBUF`, or of any buffer with no command in flight, answers the value of its bytes. -/
theorem readsAs_buffer {s : State} {off : Nat} {n : Width} {b : Buffer} {v : Nat}
    (hexact : s.status.busy = false ∨ (Target.buffer b).isResult = false)
    (halign : off % n.bytes = 0) (hge : 0x300 ≤ off) (hlt : off < 2 ^ 16)
    (hb : findBuffer bufferRows off = some b) (hv : bufferValue s b off n.bytes = some v) :
    ReadsAs s (BitVec.ofNat 16 off) n (BitVec.ofNat 32 v) := by
  have hoff := toNat_windowOffset hlt
  refine readsAs_of_targetValue (t := .buffer b) ?_ hexact ?_
  · rw [hoff]; exact targetAt_buffer halign hge hb
  · simp [targetValue, hoff, hv]

/-- A byte read of `IBUF`, or of any buffer with no command in flight, answers the byte. -/
theorem readsAs_bufferByte {s : State} {off : Nat} {b : Buffer} {x : Byte}
    (hexact : s.status.busy = false ∨ (Target.buffer b).isResult = false)
    (hge : 0x300 ≤ off) (hlt : off < 2 ^ 16) (hb : findBuffer bufferRows off = some b)
    (hx : bufferByte s off b = some x) :
    ReadsAs s (BitVec.ofNat 16 off) .w1 (BitVec.ofNat 32 x.toNat) :=
  readsAs_buffer hexact (Nat.mod_one off) hge hlt hb (bufferValue_one hx)

/-! ### The trace window (10_state.md R36, R37) -/

theorem findBuffer_trPos {a : Nat} (h : 0x400 ≤ a) (h' : a < 0x800) :
    findBuffer bufferRows a = some .trPos :=
  findBuffer_of_bufferRow (r := ⟨.trPos, 0x400, 0x400⟩) (by decide) h h'

theorem findBuffer_trS0 {a : Nat} (h : 0x800 ≤ a) (h' : a < 0xC00) :
    findBuffer bufferRows a = some .trS0 :=
  findBuffer_of_bufferRow (r := ⟨.trS0, 0x800, 0x400⟩) (by decide) h h'

theorem findBuffer_trS1 {a : Nat} (h : 0xC00 ≤ a) (h' : a < 0x1000) :
    findBuffer bufferRows a = some .trS1 :=
  findBuffer_of_bufferRow (r := ⟨.trS1, 0xC00, 0x400⟩) (by decide) h h'

theorem findBuffer_trS2 {a : Nat} (h : 0x1000 ≤ a) (h' : a < 0x1400) :
    findBuffer bufferRows a = some .trS2 :=
  findBuffer_of_bufferRow (r := ⟨.trS2, 0x1000, 0x400⟩) (by decide) h h'

/-- The trace window registers in the order of their offsets, `0x200` to `0x21C`. -/
def traceRegs : List Reg := [.trKind, .trN0, .trN1, .trN2, .trL0, .trL1, .trL2, .trLP]

theorem regAt_traceRegs : ∀ k < 8, regAt (0x200 + 4 * k) = traceRegs[k]? := by decide

theorem readsAs_traceReg {s : State} (hidle : s.status.busy = false) {k : Nat} {r : Reg} (hk : k < 8)
    (hr : traceRegs[k]? = some r) : ReadsAs s (BitVec.ofNat 16 (0x200 + 4 * k)) .w4 (r.value s) :=
  readsAs_reg (by omega) (by omega) ((regAt_traceRegs k hk).trans hr) (.inl hidle)

/-- Below `TCOUNT` the window shows the record `TIDX` selects. -/
theorem shownRecord_of_lt {s : State} {rec : TraceRecord} (hlt : s.tidx.toNat < s.tcount.toNat)
    (hrec : s.trace[s.tidx.toNat]? = some rec) : shownRecord s = some rec := by
  simp [shownRecord, hlt, hrec]

/-- At and past `TCOUNT` it shows none. -/
theorem shownRecord_of_ge {s : State} (hge : s.tcount.toNat ≤ s.tidx.toNat) : shownRecord s = none := by
  simp [shownRecord, Nat.not_lt.mpr hge]

theorem shownWord_of_some {s : State} {rec : TraceRecord} (h : shownRecord s = some rec)
    (field : TraceRecord → Word) : shownWord s field = field rec := by
  simp [shownWord, h]

theorem shownWord_of_none {s : State} (h : shownRecord s = none) (field : TraceRecord → Word) :
    shownWord s field = 0#32 := by
  simp [shownWord, h]

/-- A string byte is the character of its bit, and the fill byte past the string's end. -/
theorem shownStringByte_of_some {s : State} {rec : TraceRecord} (h : shownRecord s = some rec)
    (field : TraceRecord → BitString) (i : Nat) : shownStringByte s field i = fillChar (field rec) i := by
  simp only [shownStringByte, h, fillChar]
  cases (field rec)[i]? with
  | none => rfl
  | some b => cases b <;> rfl

theorem shownStringByte_of_none {s : State} (h : shownRecord s = none)
    (field : TraceRecord → BitString) (i : Nat) : shownStringByte s field i = 0#8 := by
  simp [shownStringByte, h]

/-- A position byte is the low or the high byte of the entry it lies in, 0 past the last entry. -/
theorem shownPosByte_of_some {s : State} {rec : TraceRecord} (h : shownRecord s = some rec) (i : Nat) :
    shownPosByte s i = ((rec.pos[i / 2]?).getD 0#16).extractLsb' (8 * (i % 2)) 8 := by
  simp only [shownPosByte, h]
  cases rec.pos[i / 2]? with
  | none => simp
  | some p => rfl

theorem shownPosByte_of_none {s : State} (h : shownRecord s = none) (i : Nat) : shownPosByte s i = 0#8 := by
  simp [shownPosByte, h]

/-- The two bytes of a 16-bit entry, little-endian, are the entry. -/
theorem toNat_bytes_of_entry (p : BitVec 16) :
    (p.extractLsb' 0 8).toNat + 256 * (p.extractLsb' 8 8).toNat = p.toNat := by
  have hp := p.isLt
  simp only [BitVec.extractLsb'_toNat, Nat.shiftRight_eq_div_pow]
  omega

/-- The two-byte value at an even offset of `TR_POS` is the position entry there, 0 past the last one. -/
theorem bufferValue_trPos {s : State} {rec : TraceRecord} (h : shownRecord s = some rec) (j : Nat) :
    bufferValue s .trPos (0x400 + 2 * j) 2 = some ((rec.pos[j]?).getD 0#16).toNat := by
  have hlow : bufferByte s (0x400 + 2 * j) .trPos =
      some (((rec.pos[j]?).getD 0#16).extractLsb' 0 8) := by
    have hoff : 0x400 + 2 * j - 0x400 = 2 * j := by omega
    simp [bufferByte, hoff, shownPosByte_of_some h]
  have hhigh : bufferByte s (0x400 + 2 * j + 1) .trPos =
      some (((rec.pos[j]?).getD 0#16).extractLsb' 8 8) := by
    have hoff : 0x400 + 2 * j + 1 - 0x400 = 2 * j + 1 := by omega
    have hdiv : (2 * j + 1) / 2 = j := by omega
    have hmod : (2 * j + 1) % 2 = 1 := by omega
    simp [bufferByte, hoff, hdiv, hmod, shownPosByte_of_some h]
  rw [bufferValue_two hlow hhigh, toNat_bytes_of_entry]

/-- The trace window registers read 0 when no record is shown (R37). -/
theorem value_traceReg_of_none {s : State} (h : shownRecord s = none) :
    ∀ r ∈ traceRegs, r.value s = 0#32 := by
  simp [traceRegs, Reg.value, shownWord_of_none h]

/-- The trace window bytes read `0x00` when no record is shown (R37). -/
theorem bufferByte_trace_of_none {s : State} (h : shownRecord s = none) {a : Nat} (hge : 0x400 ≤ a)
    (hlt : a < 0x1400) :
    ∃ b, findBuffer bufferRows a = some b ∧ bufferByte s a b = some 0#8 := by
  have hregion : a < 0x800 ∨ (0x800 ≤ a ∧ a < 0xC00) ∨ (0xC00 ≤ a ∧ a < 0x1000) ∨ 0x1000 ≤ a := by omega
  rcases hregion with h1 | ⟨h0, h1⟩ | ⟨h0, h1⟩ | h0
  · exact ⟨.trPos, findBuffer_trPos hge h1, congrArg some (shownPosByte_of_none h _)⟩
  · exact ⟨.trS0, findBuffer_trS0 h0 h1, congrArg some (shownStringByte_of_none h _ _)⟩
  · exact ⟨.trS1, findBuffer_trS1 h0 h1, congrArg some (shownStringByte_of_none h _ _)⟩
  · exact ⟨.trS2, findBuffer_trS2 h0 hlt, congrArg some (shownStringByte_of_none h _ _)⟩

/-- At or past `TCOUNT` the whole trace window reads 0 (R37). -/
theorem traceWindow_reads_zero {s : State} (hidle : s.status.busy = false)
    (hge : s.tcount.toNat ≤ s.tidx.toNat) :
    (∀ k < 8, ReadsAs s (BitVec.ofNat 16 (0x200 + 4 * k)) .w4 0#32) ∧
      ∀ a, 0x400 ≤ a → a < 0x1400 → ReadsAs s (BitVec.ofNat 16 a) .w1 0#32 := by
  have hnone := shownRecord_of_ge hge
  constructor
  · intro k hk
    have hget : traceRegs[k]? = some (traceRegs[k]'hk) := List.getElem?_eq_getElem hk
    have hread := readsAs_traceReg hidle hk hget
    rwa [value_traceReg_of_none hnone _ (List.getElem_mem hk)] at hread
  · intro a h1 h2
    obtain ⟨b, hb, hx⟩ := bufferByte_trace_of_none hnone h1 h2
    exact readsAs_bufferByte (.inl hidle) (by omega) (by omega) hb hx

/-- The trace window registers show the record's words (R36). -/
theorem traceRegs_read_record {s : State} {rec : TraceRecord} (hidle : s.status.busy = false)
    (h : shownRecord s = some rec) :
    ReadsAs s 0x200#16 .w4 rec.kind.code ∧
    ReadsAs s 0x204#16 .w4 rec.n0 ∧ ReadsAs s 0x208#16 .w4 rec.n1 ∧ ReadsAs s 0x20C#16 .w4 rec.n2 ∧
    ReadsAs s 0x210#16 .w4 (lengthWord rec.s0) ∧ ReadsAs s 0x214#16 .w4 (lengthWord rec.s1) ∧
    ReadsAs s 0x218#16 .w4 (lengthWord rec.s2) ∧
    ReadsAs s 0x21C#16 .w4 (BitVec.ofNat 32 rec.pos.length) := by
  have hread : ∀ (k : Nat) (r : Reg) (field : TraceRecord → Word), k < 8 → traceRegs[k]? = some r →
      r.value s = shownWord s field → ReadsAs s (BitVec.ofNat 16 (0x200 + 4 * k)) .w4 (field rec) := by
    intro k r field hk hr hfield
    rw [← shownWord_of_some h field, ← hfield]
    exact readsAs_traceReg hidle hk hr
  exact ⟨hread 0 .trKind (·.kind.code) (by omega) rfl rfl, hread 1 .trN0 (·.n0) (by omega) rfl rfl,
    hread 2 .trN1 (·.n1) (by omega) rfl rfl, hread 3 .trN2 (·.n2) (by omega) rfl rfl,
    hread 4 .trL0 (lengthWord ·.s0) (by omega) rfl rfl, hread 5 .trL1 (lengthWord ·.s1) (by omega) rfl rfl,
    hread 6 .trL2 (lengthWord ·.s2) (by omega) rfl rfl,
    hread 7 .trLP (BitVec.ofNat 32 ·.pos.length) (by omega) rfl rfl⟩

/-- The string windows show the record's three strings (R36). -/
theorem traceStrings_read_record {s : State} {rec : TraceRecord} (hidle : s.status.busy = false)
    (h : shownRecord s = some rec) {i : Nat} (hi : i < 1024) :
    ReadsAs s (BitVec.ofNat 16 (0x800 + i)) .w1 (BitVec.ofNat 32 (fillChar rec.s0 i).toNat) ∧
    ReadsAs s (BitVec.ofNat 16 (0xC00 + i)) .w1 (BitVec.ofNat 32 (fillChar rec.s1 i).toNat) ∧
    ReadsAs s (BitVec.ofNat 16 (0x1000 + i)) .w1 (BitVec.ofNat 32 (fillChar rec.s2 i).toNat) := by
  refine ⟨readsAs_bufferByte (.inl hidle) (by omega) (by omega) (findBuffer_trS0 (by omega) (by omega)) ?_,
    readsAs_bufferByte (.inl hidle) (by omega) (by omega) (findBuffer_trS1 (by omega) (by omega)) ?_,
    readsAs_bufferByte (.inl hidle) (by omega) (by omega) (findBuffer_trS2 (by omega) (by omega)) ?_⟩
  all_goals simp [bufferByte, shownStringByte_of_some h]

/-- The position window shows the record's positions, one 2-byte entry each (R36). -/
theorem tracePositions_read_record {s : State} {rec : TraceRecord} (hidle : s.status.busy = false)
    (h : shownRecord s = some rec) {j : Nat} (hj : j < 512) :
    ReadsAs s (BitVec.ofNat 16 (0x400 + 2 * j)) .w2
      (BitVec.ofNat 32 ((rec.pos[j]?).getD 0#16).toNat) :=
  readsAs_buffer (.inl hidle) (show (0x400 + 2 * j) % 2 = 0 by omega) (by omega) (by omega)
    (findBuffer_trPos (by omega) (by omega)) (bufferValue_trPos h j)

/-- Settles O43: the shown record is `TRACE[TIDX]` below `TCOUNT` and none past it, and every place of the window is
a view of the shown record. -/
theorem traceWindowShowsTheSelectedRecord : Obligations.TraceWindowShowsTheSelectedRecord := by
  intro s hidle
  refine ⟨fun rec hlt hrec => ?_, traceWindow_reads_zero hidle⟩
  have hshown := shownRecord_of_lt hlt hrec
  obtain ⟨hkind, hn0, hn1, hn2, hl0, hl1, hl2, hlp⟩ := traceRegs_read_record hidle hshown
  exact ⟨hkind, hn0, hn1, hn2, hl0, hl1, hl2, hlp,
    fun _ hi => traceStrings_read_record hidle hshown hi,
    fun _ hj => tracePositions_read_record hidle hshown hj⟩

/-! ### Reset (10_state.md R41) -/

/-- An unlisted result buffer byte reads `0x00`. -/
theorem unlisted_obuf {a : Nat} (h : 0x3000 ≤ a) (h' : a < 0x3C00) : Memory.unlisted a = some 0x00#8 :=
  if_pos ⟨h, h'⟩

/-- An unlisted byte below the result buffers has no value: it is unwritten (70_reset_and_hazards.md R144). -/
theorem unlisted_below_obuf {a : Nat} (h : a < 0x3000) : Memory.unlisted a = none :=
  if_neg fun hobuf => Nat.not_le.mpr h hobuf.1

/-- Settles O1: the fields are those of `State.reset`, its memory lists nothing, and its trace window is past
`TCOUNT`. -/
theorem resetStateIsTheTable : Obligations.ResetStateIsTheTable := by
  have hwindow := traceWindow_reads_zero (s := State.reset) rfl (Nat.le_refl 0)
  have hppos : ∀ k : Fin 16, State.reset.ppos[k] = 0#32 := fun k => Vector.getElem_replicate k.isLt
  have hopd : ∀ i : Fin 64, State.reset.opd[i] = 0#32 := fun i => Vector.getElem_replicate i.isLt
  exact ⟨rfl, rfl, rfl, rfl, rfl, rfl, rfl, rfl, rfl, rfl, rfl, rfl, rfl, rfl, rfl, rfl, rfl, hppos, hopd, rfl,
    fun _ => unlisted_obuf, fun _ _ => unlisted_below_obuf, hwindow⟩

/-! ### The `STATUS` write (10_state.md R25) -/

/-- Bit 3 of a word, by its value. -/
theorem getLsbD_three (v : Word) : v.getLsbD 3 = (v.toNat / 8 % 2 == 1) := by
  rw [← BitVec.testBit_toNat, Nat.testBit_eq_decide_div_mod_eq]
  rfl

/-- The effect of a `STATUS` write on the block, whatever bit 3 is. -/
theorem writeReg_status_eq (v : Word) (s : State) :
    writeReg .status v s = { s with status := { s.status with ovr := s.status.ovr && !v.getLsbD 3 } } := by
  rw [writeReg_status]
  cases v.getLsbD 3 <;> simp [clearOverrun]

/-- Settles O34: `STATUS` is writable and is no operand register, so the write has its effect, busy or not. -/
theorem statusWriteClearsOverrunOnly : Obligations.StatusWriteClearsOverrunOnly := by
  intro s v
  have hwrite := hostWrite_reg (s := s) (off := 0x00C) (r := .status) v rfl (by decide) rfl rfl (.inr rfl)
  rw [hwrite, writeReg_status_eq, getLsbD_three]

end Sys2Proof.Proofs

namespace Sys2Proof.Proofs

open Sys2Proof.Machine Sys2Proof.Claims

/-! ### `IBUF` (20_memory.md R46, R49) -/

theorem findBuffer_ibuf {a : Nat} (h : 0x2000 ≤ a) (h' : a < 0x3000) :
    findBuffer bufferRows a = some .ibuf :=
  findBuffer_of_bufferRow (r := ⟨.ibuf, 0x2000, 0x1000⟩) (by decide) h h'

/-- Byte `j` of a word shifted down by one byte is byte `j + 1` of the word. -/
theorem extractByte_shiftRight (v : Word) (j : Nat) :
    (v >>> 8).extractLsb' (8 * j) 8 = v.extractLsb' (8 * (j + 1)) 8 := by
  apply BitVec.eq_of_toNat_eq
  rw [BitVec.extractLsb'_toNat, BitVec.extractLsb'_toNat, BitVec.toNat_ushiftRight, ← Nat.shiftRight_add,
    Nat.mul_succ, Nat.add_comm 8]

@[simp] theorem length_lowBytes (v : Word) (n : Nat) : (lowBytes v n).length = n := by
  induction n generalizing v with
  | zero => rfl
  | succ n ih => rw [lowBytes, List.length_cons, ih]

/-- Byte `j` of the low bytes is bits `[8j+7:8j]`. -/
theorem getElem?_lowBytes (v : Word) {n j : Nat} (hj : j < n) :
    (lowBytes v n)[j]? = some (v.extractLsb' (8 * j) 8) := by
  induction n generalizing v j with
  | zero => exact absurd hj (Nat.not_lt_zero j)
  | succ n ih =>
    rw [lowBytes]
    cases j with
    | zero => exact congrArg some (BitVec.setWidth_eq_extractLsb' (by decide))
    | succ j => rw [List.getElem?_cons_succ, ih _ (Nat.lt_of_succ_lt_succ hj), extractByte_shiftRight]

/-- A written byte range reads back byte by byte. -/
theorem read_writeLowBytes_of_lt (m : Memory) (off : Nat) (v : Word) {n j : Nat} (hj : j < n) :
    Memory.read (Memory.writeBytes m off (lowBytes v n)) (off + j) = some (v.extractLsb' (8 * j) 8) := by
  rw [Memory.read_writeBytes, length_lowBytes, if_pos (by omega), Nat.add_sub_cancel_left,
    getElem?_lowBytes v hj]

/-- Every byte outside the written range is as before. -/
theorem read_writeLowBytes_of_outside (m : Memory) (off : Nat) (v : Word) {n a : Nat}
    (ha : a < off ∨ off + n ≤ a) :
    Memory.read (Memory.writeBytes m off (lowBytes v n)) a = Memory.read m a := by
  rw [Memory.read_writeBytes, length_lowBytes, if_neg (by omega)]

/-- The low byte and the rest above it make up the low `n + 1` bytes of a word. -/
theorem toNat_lowByte_add (v : Word) (n : Nat) :
    (v.extractLsb' 0 8).toNat + 256 * ((v >>> 8).toNat % 2 ^ (8 * n)) = v.toNat % 2 ^ (8 * (n + 1)) := by
  rw [BitVec.extractLsb'_toNat, BitVec.toNat_ushiftRight, Nat.shiftRight_zero, Nat.shiftRight_eq_div_pow,
    Nat.mul_succ, Nat.add_comm (8 * n) 8, Nat.pow_add, Nat.mod_mul]

/-- A buffer that holds the bytes of a word, little-endian, has the value of the word's low bytes (R46). -/
theorem bufferValue_of_bytes {s : State} {b : Buffer} {n off : Nat} {v : Word}
    (hbytes : ∀ j < n, bufferByte s (off + j) b = some (v.extractLsb' (8 * j) 8)) :
    bufferValue s b off n = some (v.toNat % 2 ^ (8 * n)) := by
  induction n generalizing off v with
  | zero => simp [bufferValue, Nat.mod_one]
  | succ n ih =>
    have hlow : bufferByte s off b = some (v.extractLsb' 0 8) := hbytes 0 (Nat.succ_pos n)
    have hrest : bufferValue s b (off + 1) n = some ((v >>> 8).toNat % 2 ^ (8 * n)) := by
      refine ih fun j hj => ?_
      rw [Nat.add_right_comm, extractByte_shiftRight]
      exact hbytes (j + 1) (Nat.succ_lt_succ hj)
    rw [bufferValue, hlow, hrest]
    exact congrArg some (toNat_lowByte_add v n)

/-- An aligned `IBUF` write with no command in flight stores the low bytes of the value (R49). -/
theorem hostWrite_ibuf {s : State} {off : BitVec 16} {n : Width} (v : Word)
    (hidle : s.status.busy = false) (hge : 0x2000 ≤ off.toNat) (hlt : off.toNat < 0x3000)
    (halign : off.toNat % n.bytes = 0) :
    hostWrite off n v s =
      .next { s with mem := Memory.writeBytes s.mem off.toNat (lowBytes v n.bytes), response := none } :=
  hostWrite_of_targetAt v (targetAt_buffer halign (by omega) (findBuffer_ibuf hge hlt)) rfl (.inl hidle)

/-- An aligned `IBUF` read of bytes that hold a word answers the word's low bytes, busy or not (R46). -/
theorem readsAs_ibuf_of_bytes {s : State} {off : BitVec 16} {n : Width} {v : Word}
    (hge : 0x2000 ≤ off.toNat) (hlt : off.toNat < 0x3000) (halign : off.toNat % n.bytes = 0)
    (hbytes : ∀ j < n.bytes, Memory.read s.mem (off.toNat + j) = some (v.extractLsb' (8 * j) 8)) :
    ReadsAs s off n (BitVec.ofNat 32 (v.toNat % 2 ^ (8 * n.bytes))) := by
  have hvalue : bufferValue s .ibuf off.toNat n.bytes = some (v.toNat % 2 ^ (8 * n.bytes)) :=
    bufferValue_of_bytes hbytes
  have hread := readsAs_buffer (.inr rfl) halign (by omega) off.isLt (findBuffer_ibuf hge hlt) hvalue
  rwa [BitVec.ofNat_toNat, BitVec.setWidth_eq] at hread

/-- Settles O42: the write stores the low bytes of the value, and those bytes in place are what the read answers. -/
theorem ibufWriteThenRead : Obligations.IbufWriteThenRead := by
  intro s off n v hidle hge hlt halign
  have hbytes := fun j (hj : j < n.bytes) => read_writeLowBytes_of_lt s.mem off.toNat v hj
  exact ⟨_, hostWrite_ibuf v hidle hge hlt halign, rfl, hbytes,
    fun _ ha => read_writeLowBytes_of_outside s.mem off.toNat v ha,
    readsAs_ibuf_of_bytes hge hlt halign hbytes⟩

end Sys2Proof.Proofs

namespace Sys2Proof.Proofs

open Sys2Proof.Machine Sys2Proof.Claims

/-! ### The fields of a command word, by its value (30_encoding.md R58) -/

theorem toNat_unitField (w : Word) : (unitField w).toNat = w.toNat % 8 := by
  simp [unitField, BitVec.extractLsb'_toNat]

theorem dirField_eq (w : Word) : dirField w = (w.toNat / 8 % 2 == 1) :=
  getLsbD_three w

theorem evenField_eq (w : Word) : evenField w = (w.toNat / 16 % 2 == 1) := by
  rw [evenField, ← BitVec.testBit_toNat, Nat.testBit_eq_decide_div_mod_eq]
  rfl

theorem toNat_reservedLow (w : Word) : (reservedLow w).toNat = w.toNat / 32 % 8 := by
  simp [reservedLow, BitVec.extractLsb'_toNat, Nat.shiftRight_eq_div_pow]

theorem toNat_nopdField (w : Word) : (nopdField w).toNat = w.toNat / 256 % 128 := by
  simp [nopdField, BitVec.extractLsb'_toNat, Nat.shiftRight_eq_div_pow]

theorem toNat_reservedHigh (w : Word) : (reservedHigh w).toNat = w.toNat / 2 ^ 15 := by
  have hlt : w.toNat / 2 ^ 15 < 2 ^ 17 := by have := w.isLt; omega
  rw [reservedHigh, BitVec.extractLsb'_toNat, Nat.shiftRight_eq_div_pow, Nat.mod_eq_of_lt hlt]

/-- A reserved bit of R58 outside `EVEN` is set, in the words of R61's first check. -/
theorem reserved_ne_zero_iff (w : Word) :
    (reservedHigh w ≠ 0 ∨ reservedLow w ≠ 0) ↔ (w.toNat / 2 ^ 15 ≠ 0 ∨ w.toNat / 32 % 8 ≠ 0) := by
  rw [← toNat_reservedHigh, ← toNat_reservedLow, ne_eq, ne_eq, ← BitVec.toNat_inj, ← BitVec.toNat_inj]
  rfl

theorem reserved_eq_zero_iff {w : Word} :
    (reservedHigh w = 0#17 ∧ reservedLow w = 0#3) ↔ ¬ (w.toNat / 2 ^ 15 ≠ 0 ∨ w.toNat / 32 % 8 ≠ 0) := by
  rw [← reserved_ne_zero_iff, not_or, not_not, not_not]
  rfl

/-- The fields make up the word, each at its place. -/
theorem toNat_eq_fields (w : Word) :
    w.toNat = w.toNat % 8 + 8 * (w.toNat / 8 % 2) + 16 * (w.toNat / 16 % 2) + 32 * (w.toNat / 32 % 8) +
      256 * (w.toNat / 256 % 128) + 2 ^ 15 * (w.toNat / 2 ^ 15) := by
  omega

/-- Two one-bit numbers read as the same bit are the same. -/
theorem mod_two_inj {a b : Nat} (h : (a % 2 == 1) = (b % 2 == 1)) : a % 2 = b % 2 := by
  rw [Bool.eq_iff_iff, beq_iff_eq, beq_iff_eq] at h
  omega

/-- Two words with the same fields are one. -/
theorem word_eq_iff_fields {x y : Word} :
    x = y ↔ reservedHigh x = reservedHigh y ∧ reservedLow x = reservedLow y ∧ unitField x = unitField y ∧
      dirField x = dirField y ∧ evenField x = evenField y ∧ nopdField x = nopdField y := by
  refine ⟨fun h => by simp [h], fun ⟨hhigh, hlow, hunit, hdir, heven, hnopd⟩ => ?_⟩
  rw [← BitVec.toNat_inj, toNat_reservedHigh, toNat_reservedHigh] at hhigh
  rw [← BitVec.toNat_inj, toNat_reservedLow, toNat_reservedLow] at hlow
  rw [← BitVec.toNat_inj, toNat_unitField, toNat_unitField] at hunit
  rw [← BitVec.toNat_inj, toNat_nopdField, toNat_nopdField] at hnopd
  rw [dirField_eq, dirField_eq] at hdir
  rw [evenField_eq, evenField_eq] at heven
  rw [← BitVec.toNat_inj, toNat_eq_fields x, toNat_eq_fields y, hunit, mod_two_inj hdir, mod_two_inj heven,
    hlow, hnopd, hhigh]

/-! ### The units (30_encoding.md R58, R60) -/

/-- A `UNIT` field selects the unit of that code. -/
theorem unitOfCode_eq_some_iff {c : Nat} {u : CodecUnit} : unitOfCode c = some u ↔ c = u.code := by
  constructor
  · intro h
    unfold unitOfCode at h
    split_ifs at h with h1 h2 h3 h4 h5
    all_goals
      obtain rfl := Option.some.inj h
      assumption
  · rintro rfl
    cases u <;> rfl

/-- The reserved `UNIT` values are 0, 6 and 7. -/
theorem unitOfCode_eq_none_iff {c : Nat} : unitOfCode c = none ↔ c = 0 ∨ 5 < c := by
  unfold unitOfCode
  split_ifs
  all_goals simp; omega

theorem unitCode_le (u : CodecUnit) : u.code ≤ 5 := by cases u <;> decide

theorem unitCode_inj {u t : CodecUnit} (h : u.code = t.code) : u = t :=
  Option.some.inj ((unitOfCode_eq_some_iff.mpr rfl).symm.trans (unitOfCode_eq_some_iff.mpr h))

theorem eq_lrc_iff_code {u : CodecUnit} : u = .lrc ↔ u.code = 2 := by cases u <;> decide

theorem evenReserved_iff {u : CodecUnit} : u.evenReserved = true ↔ 3 ≤ u.code := by
  cases u <;> decide

theorem nopdOk_iff {u : CodecUnit} {n : Nat} :
    u.nopdOk n = true ↔ (u = .lrc → n ≤ 64) ∧ (u ≠ .lrc → n = 1) := by
  cases u <;> simp [CodecUnit.nopdOk]

/-! ### The decoder's checks, in numbers (30_encoding.md R61) -/

theorem decode_of_reserved {w : Word} (h : w.toNat / 2 ^ 15 ≠ 0 ∨ w.toNat / 32 % 8 ≠ 0) :
    decode w = .error .reservedBits := by
  rw [decode, if_pos ((reserved_ne_zero_iff w).mpr h)]

theorem decode_of_no_unit {w : Word} (hres : ¬ (w.toNat / 2 ^ 15 ≠ 0 ∨ w.toNat / 32 % 8 ≠ 0))
    (hu : unitOfCode (w.toNat % 8) = none) : decode w = .error .badUnit := by
  rw [decode, if_neg (mt (reserved_ne_zero_iff w).mp hres), toNat_unitField, hu]

/-- The checks past the unit: `EVEN`, then `NOPD`; a word that passes them selects the unit's command. -/
theorem decode_of_unit {w : Word} {u : CodecUnit} (hres : ¬ (w.toNat / 2 ^ 15 ≠ 0 ∨ w.toNat / 32 % 8 ≠ 0))
    (hu : w.toNat % 8 = u.code) :
    decode w =
      if u.evenReserved = true ∧ w.toNat / 16 % 2 = 1 then .error .reservedBits
      else if u.nopdOk (w.toNat / 256 % 128) = true then
        .ok (selectInstr u (w.toNat / 8 % 2 == 1) (w.toNat / 16 % 2 == 1) (w.toNat / 256 % 128))
      else .error .badNopd := by
  rw [decode, if_neg (mt (reserved_ne_zero_iff w).mp hres), toNat_unitField, unitOfCode_eq_some_iff.mpr hu]
  simp only [dirField_eq, evenField_eq, toNat_nopdField, beq_iff_eq]

/-- A word the decoder rejects is rejected by the completion that finds it in `CMD`, with the same cause (R61, R124). -/
theorem rejectedWith_of_decode {w : Word} {c : IllegalCause} (h : decode w = .error c) : RejectedWith w c := by
  refine ⟨h, fun s hcmd => ⟨_, completeCommand_illegal s c (hcmd ▸ h), ?_⟩⟩
  cases c <;> rfl

/-- Settles O6: each check of the rule is the decoder's check of that place, past the unit in terms of its code. -/
theorem legalityChecksInOrder : Obligations.LegalityChecksInOrder := by
  intro w
  split
  case isTrue hres => exact rejectedWith_of_decode (decode_of_reserved hres)
  case isFalse hres =>
    split
    case isTrue hunit =>
      exact rejectedWith_of_decode (decode_of_no_unit hres (unitOfCode_eq_none_iff.mpr hunit))
    case isFalse hunit =>
      obtain ⟨u, hu⟩ := Option.ne_none_iff_exists'.mp (mt unitOfCode_eq_none_iff.mp hunit)
      have hcode := unitOfCode_eq_some_iff.mp hu
      have hdecode := decode_of_unit hres hcode
      simp only [evenReserved_iff, nopdOk_iff, ne_eq, eq_lrc_iff_code, ← hcode] at hdecode
      split_ifs with heven hone hlrc
      · exact rejectedWith_of_decode (by rw [hdecode, if_pos heven])
      · exact rejectedWith_of_decode (by rw [hdecode, if_neg heven, if_neg (by omega)])
      · exact rejectedWith_of_decode (by rw [hdecode, if_neg heven, if_neg (by omega)])
      · rw [if_neg heven, if_pos (by omega)] at hdecode
        exact ⟨_, hdecode, fun s hcmd => completeCommand_legal s _ (hcmd ▸ hdecode)⟩

/-! ### The opcode map by unit and direction (30_encoding.md R62) -/

/-- The bits a unit's rows fix: all but `EVEN` on VRC, all but `EVEN` and `NOPD` on LRC. -/
def rowMask : CodecUnit → Word
  | .vrc => 0xFFFFFFEF#32
  | .lrc => 0xFFFF80EF#32
  | .crc => 0xFFFFFFFF#32
  | .csum => 0xFFFFFFFF#32
  | .ham => 0xFFFFFFFF#32

/-- The row of a unit and a direction: its free fields are 0 in the row's bits. -/
def rowOf (u : CodecUnit) (verify : Bool) : OpcodeRow :=
  { mnemonic := (selectInstr u verify false 0).mnemonic
    bits := encodeFields u verify false (if u = .lrc then 0 else 1)
    mask := rowMask u }

/-- The ten rows are those of the five units in two directions. -/
theorem opcodeMap_eq :
    opcodeMap = [.vrc, .lrc, .crc, .csum, .ham].flatMap (fun u => [rowOf u false, rowOf u true]) := by
  decide

theorem mem_opcodeMap_iff {r : OpcodeRow} : r ∈ opcodeMap ↔ ∃ u verify, r = rowOf u verify := by
  have hunits : ∀ u : CodecUnit, u ∈ [CodecUnit.vrc, .lrc, .crc, .csum, .ham] := fun u => by cases u <;> decide
  simp only [opcodeMap_eq, List.mem_flatMap, hunits, true_and, Bool.exists_bool, List.mem_cons,
    List.not_mem_nil, or_false]

theorem rowInstr_rowOf (u : CodecUnit) (verify even : Bool) (n : Nat) :
    rowInstr (rowOf u verify).mnemonic even n = selectInstr u verify even n := by
  cases u <;> cases verify <;> rfl

theorem mnemonic_rowOf_lrc_iff (u : CodecUnit) (verify : Bool) :
    ((rowOf u verify).mnemonic = .lrcEnc ∨ (rowOf u verify).mnemonic = .lrcVer) ↔ u = .lrc := by
  cases u <;> cases verify <;> decide

/-- The fields of a word in the row of a unit and a direction, but for the bound on an LRC count (R58, R62). -/
structure InRow (w : Word) (u : CodecUnit) (verify : Bool) : Prop where
  reserved : ¬ (w.toNat / 2 ^ 15 ≠ 0 ∨ w.toNat / 32 % 8 ≠ 0)
  unit     : w.toNat % 8 = u.code
  dir      : (w.toNat / 8 % 2 == 1) = verify
  even     : u.evenReserved = true → ¬ w.toNat / 16 % 2 = 1
  nopd     : u ≠ .lrc → w.toNat / 256 % 128 = 1

/-- Which fields a row's mask keeps, and what the row's bits ask of them. -/
theorem fields_rowOf (u : CodecUnit) (verify : Bool) :
    (reservedHigh (rowOf u verify).mask = BitVec.allOnes 17 ∧ reservedHigh (rowOf u verify).bits = 0#17) ∧
    (reservedLow (rowOf u verify).mask = BitVec.allOnes 3 ∧ reservedLow (rowOf u verify).bits = 0#3) ∧
    (unitField (rowOf u verify).mask = BitVec.allOnes 3 ∧ (unitField (rowOf u verify).bits).toNat = u.code) ∧
    (dirField (rowOf u verify).mask = true ∧ dirField (rowOf u verify).bits = verify) ∧
    (evenField (rowOf u verify).mask = u.evenReserved ∧ evenField (rowOf u verify).bits = false) ∧
    (nopdField (rowOf u verify).mask = (if u = .lrc then 0#7 else BitVec.allOnes 7) ∧
      nopdField (rowOf u verify).bits = if u = .lrc then 0#7 else 1#7) := by
  cases u <;> cases verify <;> decide

/-- Masking a word masks each field. -/
theorem fields_and (w m : Word) :
    reservedHigh (w &&& m) = reservedHigh w &&& reservedHigh m ∧
    reservedLow (w &&& m) = reservedLow w &&& reservedLow m ∧
    unitField (w &&& m) = unitField w &&& unitField m ∧
    dirField (w &&& m) = (dirField w && dirField m) ∧
    evenField (w &&& m) = (evenField w && evenField m) ∧
    nopdField (w &&& m) = nopdField w &&& nopdField m :=
  ⟨BitVec.extractLsb'_and, BitVec.extractLsb'_and, BitVec.extractLsb'_and, BitVec.getLsbD_and,
    BitVec.getLsbD_and, BitVec.extractLsb'_and⟩

/-- A row that keeps `EVEN` asks for 0 there; one that leaves it free asks for nothing. -/
theorem maskedEven_eq_false_iff {w : Word} {reserved : Bool} :
    (evenField w && reserved) = false ↔ (reserved = true → ¬ w.toNat / 16 % 2 = 1) := by
  rw [evenField_eq]
  cases reserved <;> simp

/-- A row that keeps `NOPD` asks for 1 there; an LRC row leaves it free. -/
theorem maskedNopd_eq_iff {w : Word} {u : CodecUnit} :
    (nopdField w &&& if u = .lrc then 0#7 else BitVec.allOnes 7) = (if u = .lrc then 0#7 else 1#7) ↔
      (u ≠ .lrc → w.toNat / 256 % 128 = 1) := by
  rw [← toNat_nopdField]
  by_cases hlrc : u = .lrc
  · simp [hlrc]
  · rw [if_neg hlrc, if_neg hlrc, BitVec.and_allOnes, ← BitVec.toNat_inj]
    exact ⟨fun h _ => h, fun h => h hlrc⟩

/-- A word matches a row under mask and match exactly when its fields are the row's (R62). -/
theorem matches_rowOf_iff {w : Word} {u : CodecUnit} {verify : Bool} :
    w &&& (rowOf u verify).mask = (rowOf u verify).bits ↔ InRow w u verify := by
  obtain ⟨⟨hmh, hbh⟩, ⟨hml, hbl⟩, ⟨hmu, hbu⟩, ⟨hmd, hbd⟩, ⟨hme, hbe⟩, ⟨hmn, hbn⟩⟩ := fields_rowOf u verify
  obtain ⟨hh, hl, hu, hd, he, hn⟩ := fields_and w (rowOf u verify).mask
  have hunit : unitField w = unitField (rowOf u verify).bits ↔ w.toNat % 8 = u.code := by
    rw [← BitVec.toNat_inj, hbu, toNat_unitField]
  rw [word_eq_iff_fields, hh, hl, hu, hd, he, hn, hmh, hml, hmu, hmd, hme, hmn, hbh, hbl, hbd, hbe, hbn,
    BitVec.and_allOnes, BitVec.and_allOnes, BitVec.and_allOnes, Bool.and_true, hunit,
    maskedEven_eq_false_iff, maskedNopd_eq_iff, ← and_assoc, reserved_eq_zero_iff, dirField_eq]
  exact ⟨fun ⟨hres, hcode, hdir, heven, hnopd⟩ => ⟨hres, hcode, hdir, heven, hnopd⟩,
    fun ⟨hres, hcode, hdir, heven, hnopd⟩ => ⟨hres, hcode, hdir, heven, hnopd⟩⟩

/-- A word lies in at most one row: its `UNIT` and `DIR` fields name the row. -/
theorem InRow.unique {w : Word} {u t : CodecUnit} {v v' : Bool} (h : InRow w u v) (h' : InRow w t v') :
    rowOf u v = rowOf t v' := by
  rw [unitCode_inj (h.unit.symm.trans h'.unit), h.dir.symm.trans h'.dir]

/-- A word decodes exactly when it lies in a row and an LRC count is at most `MAXBLK`; the command is the row's. -/
theorem decode_eq_ok_iff {w : Word} {i : Instr} :
    decode w = .ok i ↔
      ∃ u verify, InRow w u verify ∧ (u = .lrc → w.toNat / 256 % 128 ≤ 64) ∧
        i = selectInstr u verify (w.toNat / 16 % 2 == 1) (w.toNat / 256 % 128) := by
  constructor
  · intro h
    by_cases hres : w.toNat / 2 ^ 15 ≠ 0 ∨ w.toNat / 32 % 8 ≠ 0
    · rw [decode_of_reserved hres] at h
      cases h
    cases hunit : unitOfCode (w.toNat % 8) with
    | none =>
      rw [decode_of_no_unit hres hunit] at h
      cases h
    | some u =>
      have hcode := unitOfCode_eq_some_iff.mp hunit
      rw [decode_of_unit hres hcode] at h
      split_ifs at h with heven hok
      obtain ⟨hlrc, hone⟩ := nopdOk_iff.mp hok
      exact ⟨u, _, ⟨hres, hcode, rfl, fun hu hbit => heven ⟨hu, hbit⟩, hone⟩, hlrc, (Except.ok.inj h).symm⟩
  · rintro ⟨u, verify, hrow, hlrc, rfl⟩
    have heven : ¬ (u.evenReserved = true ∧ w.toNat / 16 % 2 = 1) := fun h => hrow.even h.1 h.2
    rw [decode_of_unit hrow.reserved hrow.unit, if_neg heven,
      if_pos (nopdOk_iff.mpr ⟨hlrc, hrow.nopd⟩), hrow.dir]

/-- Settles O7: in both directions by the fields of the row a word lies in. -/
theorem decoderAgreesWithTheOpcodeMap : Obligations.DecoderAgreesWithTheOpcodeMap := by
  constructor
  · intro w i
    rw [decode_eq_ok_iff]
    constructor
    · rintro ⟨u, verify, hrow, hlrc, rfl⟩
      exact ⟨rowOf u verify, mem_opcodeMap_iff.mpr ⟨u, verify, rfl⟩, matches_rowOf_iff.mpr hrow,
        fun h => hlrc ((mnemonic_rowOf_lrc_iff u verify).mp h), (rowInstr_rowOf ..).symm⟩
    · rintro ⟨r, hr, hmatch, hlrc, rfl⟩
      obtain ⟨u, verify, rfl⟩ := mem_opcodeMap_iff.mp hr
      exact ⟨u, verify, matches_rowOf_iff.mp hmatch,
        fun h => hlrc ((mnemonic_rowOf_lrc_iff u verify).mpr h), rowInstr_rowOf ..⟩
  · intro w r hr q hq hmatch hmatch'
    obtain ⟨u, verify, rfl⟩ := mem_opcodeMap_iff.mp hr
    obtain ⟨t, verify', rfl⟩ := mem_opcodeMap_iff.mp hq
    exact (matches_rowOf_iff.mp hmatch).unique (matches_rowOf_iff.mp hmatch')

/-! ### An illegal word from the write to the report (30_encoding.md R63) -/

/-- A word in the opcode map decodes (R62). -/
theorem inOpcodeMap_of_decode {w : Word} {i : Instr} (h : decode w = .ok i) : InOpcodeMap w := by
  obtain ⟨r, hr, hmatch, hlrc, -⟩ := (decoderAgreesWithTheOpcodeMap.1 w i).mp h
  exact ⟨r, hr, hmatch, hlrc⟩

theorem coreTurn_of_busy {s : State} (hbusy : s.status.busy = true)
    (hturn : s.countdown = 0 ∨ s.pending = []) : coreTurn s = true := by
  rcases hturn with h | h <;> simp [coreTurn, hbusy, h]

/-- A write of a word to `CMD` of an idle core is accepted, whatever the word (60_exceptions.md R120). -/
theorem hostWrite_cmd_idle (w : Word) {s : State} (hidle : s.status.busy = false) :
    hostWrite 0x008#16 .w4 w s =
      .next { acceptCommand w (Config.latency s.draws) s with draws := s.draws + 1, response := none } := by
  have hwrite := hostWrite_reg (off := 0x008) (r := .cmd) w rfl (by decide) rfl rfl (.inl hidle)
  rw [hwrite, writeReg_cmd, issueCommand_idle w s hidle]

/-- Settles O10: `CMD` is writable and no operand register, so the word is accepted; it does not decode, so the
core's turn reports the cause its decoder gives. -/
theorem illegalWordsCompleteWithIllegalCommand : Obligations.IllegalWordsCompleteWithIllegalCommand := by
  intro w hillegal
  refine ⟨fun s hidle => ⟨_, hostWrite_cmd_idle w hidle⟩, ?_⟩
  cases hdecode : decode w with
  | ok i => exact absurd (inOpcodeMap_of_decode hdecode) hillegal
  | error c =>
    refine ⟨c, rfl, fun s hcmd hbusy hturn => ?_⟩
    rw [step_core s (coreTurn_of_busy hbusy hturn)]
    exact (rejectedWith_of_decode hdecode).2 s hcmd

/-! ### The word of a command decodes to it (30_encoding.md R58, R62) -/

/-- The fields of an encoded word stand at their places; a count of 7 bits overflows nothing. -/
theorem toNat_encodeFields (u : CodecUnit) (verify even : Bool) {n : Nat} (hn : n < 128) :
    (encodeFields u verify even n).toNat = u.code + 8 * verify.toNat + 16 * even.toNat + 256 * n := by
  have hu := unitCode_le u
  have hv := verify.toNat_le
  have he := even.toNat_le
  rw [encodeFields, BitVec.toNat_ofNat, Nat.mod_eq_of_lt (by omega)]

theorem toNat_mod_two_beq (b : Bool) : (b.toNat % 2 == 1) = b := by cases b <;> rfl

/-- Fields the unit admits are read back from their word. -/
theorem decode_encodeFields {u : CodecUnit} {verify even : Bool} {n : Nat}
    (heven : u.evenReserved = true → even = false) (hn : u.nopdOk n = true) :
    decode (encodeFields u verify even n) = .ok (selectInstr u verify even n) := by
  have hlt : n < 128 := by
    obtain ⟨hlrc, hone⟩ := nopdOk_iff.mp hn
    by_cases h : u = .lrc
    · exact Nat.lt_of_le_of_lt (hlrc h) (by decide)
    · exact hone h ▸ by decide
  have hword := toNat_encodeFields u verify even hlt
  have hu := unitCode_le u
  have hv := verify.toNat_le
  have he := even.toNat_le
  have hres : ¬ ((encodeFields u verify even n).toNat / 2 ^ 15 ≠ 0 ∨
      (encodeFields u verify even n).toNat / 32 % 8 ≠ 0) := by omega
  have hdir : (encodeFields u verify even n).toNat / 8 % 2 = verify.toNat % 2 := by omega
  have hbit : (encodeFields u verify even n).toNat / 16 % 2 = even.toNat % 2 := by omega
  have hcount : (encodeFields u verify even n).toNat / 256 % 128 = n := by omega
  rw [decode_of_unit hres (u := u) (by omega), hdir, hbit, hcount, toNat_mod_two_beq, toNat_mod_two_beq,
    if_neg, if_pos hn]
  rintro ⟨hreserved, hone⟩
  rw [heven hreserved] at hone
  cases hone

/-- Every well-formed command is what its word decodes to. -/
theorem decode_encode {i : Instr} (h : WellFormed i = true) : decode (encode i) = .ok i := by
  cases i with
  | vrcEnc even => exact decode_encodeFields nofun rfl
  | vrcVer even => exact decode_encodeFields nofun rfl
  | lrcEnc even n => exact decode_encodeFields nofun h
  | lrcVer even n => exact decode_encodeFields nofun h
  | crcEnc => exact decode_encodeFields (fun _ => rfl) rfl
  | crcVer => exact decode_encodeFields (fun _ => rfl) rfl
  | csumEnc => exact decode_encodeFields (fun _ => rfl) rfl
  | csumVer => exact decode_encodeFields (fun _ => rfl) rfl
  | hamEnc => exact decode_encodeFields (fun _ => rfl) rfl
  | hamVer => exact decode_encodeFields (fun _ => rfl) rfl

/-! ### The assembler (30_encoding.md R68) -/

/-- The mnemonics whose grammar has a parity keyword. -/
abbrev takesParity (m : Mnemonic) : Bool := m == .vrcEnc || m == .vrcVer || m == .lrcEnc || m == .lrcVer

/-- The mnemonics whose grammar has a block count. -/
abbrev takesCount (m : Mnemonic) : Bool := m == .lrcEnc || m == .lrcVer

/-- A line the assembler accepts: a parity keyword and a count exactly where the grammar has them, the count at most
`MAXBLK` (it reads as 1 where none stands). -/
def FollowsSyntax (l : AsmLine) : Prop :=
  l.parity.isSome = takesParity l.mnemonic ∧ l.count.isSome = takesCount l.mnemonic ∧ l.count.getD 1 ≤ 64

/-- The assembler's lines and their commands. Each of the four shapes of a line, by what stands in it, is the grammar
of the mnemonics of one group: CRC, CSUM and HAM; VRC; LRC; none. -/
theorem instr_eq_some_iff {l : AsmLine} {i : Instr} :
    l.instr = some i ↔ FollowsSyntax l ∧ rowInstr l.mnemonic (l.parity.getD false) (l.count.getD 1) = i := by
  obtain ⟨m, parity, count⟩ := l
  rcases parity with - | even <;> rcases count with - | n
  all_goals cases m <;> simp [AsmLine.instr, FollowsSyntax, rowInstr]

/-- What stands where it may not, or does not stand where it must, or a count past `MAXBLK` (R68's refusals). -/
theorem not_followsSyntax_iff {l : AsmLine} :
    ¬ FollowsSyntax l ↔
      (l.parity.isSome ≠ takesParity l.mnemonic) ∨ (l.count.isSome ≠ takesCount l.mnemonic) ∨
        ∃ n, l.count = some n ∧ 64 < n := by
  have hcount : 64 < l.count.getD 1 ↔ ∃ n, l.count = some n ∧ 64 < n := by
    cases l.count <;> simp
  rw [FollowsSyntax, not_and_or, not_and_or, not_le, hcount]

theorem wellFormed_rowInstr (m : Mnemonic) (even : Bool) {n : Nat} (hn : n ≤ 64) :
    WellFormed (rowInstr m even n) = true := by
  cases m <;> simp [WellFormed, rowInstr, hn]

/-- A word is assembled from a line exactly when the line follows the grammar; it is the word of the line's command. -/
theorem assemble_eq_some_iff {l : AsmLine} {w : Word} :
    assemble l = some w ↔
      FollowsSyntax l ∧ encode (rowInstr l.mnemonic (l.parity.getD false) (l.count.getD 1)) = w := by
  simp only [assemble, Option.map_eq_some_iff, instr_eq_some_iff]
  exact ⟨fun ⟨_, ⟨hsyntax, hi⟩, hw⟩ => ⟨hsyntax, hi ▸ hw⟩, fun ⟨hsyntax, hw⟩ => ⟨_, ⟨hsyntax, rfl⟩, hw⟩⟩

/-- Settles O11: a line is refused exactly when it does not follow the grammar, and an accepted line's command is
well-formed, so its word decodes to it. -/
theorem assemblerAcceptsExactlyItsSyntax : Obligations.AssemblerAcceptsExactlyItsSyntax := by
  refine ⟨fun l => ?_, fun l w hw => ?_, rfl, rfl, rfl⟩
  · rw [← not_followsSyntax_iff, Option.eq_none_iff_forall_ne_some]
    exact ⟨fun hnone hsyntax => hnone _ (assemble_eq_some_iff.mpr ⟨hsyntax, rfl⟩),
      fun hsyntax w hw => hsyntax (assemble_eq_some_iff.mp hw).1⟩
  · obtain ⟨⟨-, -, hle⟩, rfl⟩ := assemble_eq_some_iff.mp hw
    exact decode_encode (wellFormed_rowInstr _ _ hle)

end Sys2Proof.Proofs

namespace Sys2Proof.Proofs

open Sys2Proof.Machine Sys2Proof.Claims

/-! ### The operand port (40_bitstring.md R71) -/

/-- Inside a string, the characters in a buffer are those of its bits (R48). -/
theorem getElem?_map_chr {bits : BitString} {i : Nat} (hi : i < bits.length) :
    (bits.map chr)[i]? = some (fillChar bits i) := by
  cases hbit : bits[i] <;> simp [fillChar, hi, hbit, chr]

/-- A scan fails exactly on a string with a character that is neither `'0'` nor `'1'`. -/
theorem scanBits_eq_none_iff {bs : List Byte} :
    scanBits bs = none ↔ ∃ b ∈ bs, b ≠ 0x30#8 ∧ b ≠ 0x31#8 := by
  induction bs with
  | nil => simp [scanBits]
  | cons b bs ih =>
    by_cases h0 : b = 0x30#8
    · simp [scanBits, h0, ih]
    · by_cases h1 : b = 0x31#8 <;> simp [scanBits, h0, h1, ih]

/-- The descriptor names a string exactly when its length and bounds are legal and the fetch gives the string's
characters. -/
theorem holdsOperand_iff_fetchBytes {s : State} {d : Word} {bits : BitString} :
    HoldsOperand s d bits ↔
      descLen d ≠ 0 ∧ descLen d ≤ 512 ∧ descOff d + descLen d ≤ 4096 ∧
        fetchBytes s (descOff d) (descLen d) = some (bits.map chr) := by
  rw [HoldsOperand, fetchBytes_eq_some, List.length_map, Nat.one_le_iff_ne_zero]
  have hbytes (hlen : bits.length = descLen d) :
      (∀ i < bits.length, Memory.read s.mem (0x2000 + descOff d + i) = some (fillChar bits i)) ↔
        ∀ i < descLen d, ibufByte s (descOff d + i) = (bits.map chr)[i]? := by
    rw [← hlen]
    refine forall₂_congr fun i hi => ?_
    rw [getElem?_map_chr hi, ibufByte, ← Nat.add_assoc]
  constructor
  · rintro ⟨hlen, hpos, hmax, hend, hread⟩
    exact ⟨hpos, hmax, hend, hlen, (hbytes hlen).mp hread⟩
  · rintro ⟨hpos, hmax, hend, hlen, hread⟩
    exact ⟨hlen, hpos, hmax, hend, (hbytes hlen).mpr hread⟩

/-- An operand fetch answers the string that stands at the descriptor, and only that. -/
theorem readOperand_eq_ok_iff {s : State} {field : ErrField} {idx : Nat} {d : Word} {bits : BitString} :
    readOperand s field idx d = .ok bits ↔ HoldsOperand s d bits :=
  (readOperand_eq_ok s field idx d bits).trans holdsOperand_iff_fetchBytes.symm

section InBounds
/-! What an operand fetch does with a descriptor that passes its length and bounds checks. -/

variable {s : State} {d : Word} (field : ErrField) (idx : Nat)
  (hpos : 1 ≤ descLen d) (hmax : descLen d ≤ 512) (hend : descOff d + descLen d ≤ 4096)

include hpos hmax hend

/-- A descriptor with an unwritten byte is the fault of R144. -/
theorem readOperand_of_fetch_none (hf : fetchBytes s (descOff d) (descLen d) = none) :
    readOperand s field idx d = .error (.fault .uninit) := by
  simp [readOperand, Nat.one_le_iff_ne_zero.mp hpos, Nat.not_lt.mpr hmax, Nat.not_lt.mpr hend, hf]

/-- Written bytes that are no string of `'0'` and `'1'` are reported as such. -/
theorem readOperand_of_scan_none {bytes : List Byte}
    (hf : fetchBytes s (descOff d) (descLen d) = some bytes) (hs : scanBits bytes = none) :
    readOperand s field idx d = raiseInvalidInput field idx .nonBinary := by
  simp [readOperand, Nat.one_le_iff_ne_zero.mp hpos, Nat.not_lt.mpr hmax, Nat.not_lt.mpr hend, hf, hs]

end InBounds

/-- The fetch of a written range that has a byte other than `'0'` and `'1'` gives bytes that no scan accepts. -/
theorem fetchBytes_of_nonBinary {s : State} {off n : Nat}
    (hwritten : ∀ i < n, ibufByte s (off + i) ≠ none)
    (hbad : ∃ i < n, ibufByte s (off + i) ≠ some 0x30#8 ∧ ibufByte s (off + i) ≠ some 0x31#8) :
    ∃ bytes, fetchBytes s off n = some bytes ∧ scanBits bytes = none := by
  have hfetch : fetchBytes s off n ≠ none := by
    rw [Ne, fetchBytes_eq_none]
    rintro ⟨i, hi, hnone⟩
    exact hwritten i hi hnone
  obtain ⟨bytes, hbytes⟩ := Option.ne_none_iff_exists'.mp hfetch
  obtain ⟨hlen, hread⟩ := (fetchBytes_eq_some s off n bytes).mp hbytes
  obtain ⟨i, hi, hne0, hne1⟩ := hbad
  rw [hread i hi, List.getElem?_eq_getElem (hlen ▸ hi), Ne, Option.some_inj] at hne0 hne1
  exact ⟨bytes, hbytes, scanBits_eq_none_iff.mpr ⟨_, List.getElem_mem _, hne0, hne1⟩⟩

/-- Settles O13: the first three checks are those of the descriptor alone; past them the fetch and then the scan decide,
and each fails exactly on the byte its check names. -/
theorem readOperandChecksInOrder : Obligations.ReadOperandChecksInOrder := by
  intro s field idx d
  have hbyte (i : Nat) : Memory.read s.mem (0x2000 + descOff d + i) = ibufByte s (descOff d + i) := by
    rw [ibufByte, ← Nat.add_assoc]
  refine ⟨fun hempty => ?_, fun hlong => ?_, fun hpos hmax hout => ?_, fun hpos hmax hend hunwritten => ?_,
    fun hpos hmax hend hwritten hbad => ?_, fun _ => readOperand_eq_ok_iff.mpr, fun _ => readOperand_eq_ok_iff.mp⟩
  · exact if_pos hempty
  · simp [readOperand, Nat.ne_zero_of_lt hlong, hlong]
  · simp [readOperand, Nat.one_le_iff_ne_zero.mp hpos, Nat.not_lt.mpr hmax, hout]
  · simp only [hbyte] at hunwritten
    exact readOperand_of_fetch_none field idx hpos hmax hend
      ((fetchBytes_eq_none s (descOff d) (descLen d)).mpr hunwritten)
  · simp only [hbyte] at hwritten hbad
    obtain ⟨bytes, hbytes, hscan⟩ := fetchBytes_of_nonBinary hwritten hbad
    exact readOperand_of_scan_none field idx hpos hmax hend hbytes hscan

end Sys2Proof.Proofs

namespace Sys2Proof.Proofs

open Sys2Proof.Machine Sys2Proof.Claims

/-! ### How a completion ends (60_exceptions.md R121, R125) -/

/-- `WriteResult` puts the string's characters in its region, then the fill byte (40_bitstring.md R73). -/
theorem read_writeResultMem_inside {x : ResultRegion} {base : Nat} (hx : x.base = base) (m : Memory)
    (bits : BitString) {a : Nat} (ha : a < 1024) :
    Memory.read (writeResultMem m x bits) (base + a) = some (fillChar bits a) := by
  subst hx
  rw [read_writeResultMem, if_pos (by omega), Nat.add_sub_cancel_left]

/-- `WriteResult` leaves every byte outside its region (R73). -/
theorem read_writeResultMem_outside {x : ResultRegion} {base : Nat} (hx : x.base = base) (m : Memory)
    (bits : BitString) {a : Nat} (ha : a < base ∨ base + 1024 ≤ a) :
    Memory.read (writeResultMem m x bits) a = Memory.read m a := by
  subst hx
  rw [read_writeResultMem, if_neg (by omega)]

/-- The state a successful completion leaves: each region is in place, since no later write overwrites it. -/
theorem committed_completeOk (r : Result) (s : State) : Committed s (completeOk r s) r where
  obufA a ha := by
    rw [completeOk_mem, read_writeResultMem_outside (base := 0x3800) rfl _ _ (by omega),
      read_writeResultMem_outside (base := 0x3400) rfl _ _ (by omega)]
    exact read_writeResultMem_inside rfl _ _ ha
  obufB a ha := by
    rw [completeOk_mem, read_writeResultMem_outside (base := 0x3800) rfl _ _ (by omega)]
    exact read_writeResultMem_inside rfl _ _ ha
  obufC a ha := read_writeResultMem_inside rfl _ _ ha
  elsewhere a ha := by
    rw [completeOk_mem, read_writeResultMem_outside (base := 0x3800) rfl _ _ (by omega),
      read_writeResultMem_outside (base := 0x3400) rfl _ _ (by omega),
      read_writeResultMem_outside (base := 0x3000) rfl _ _ (by omega)]
  rlenA := rfl
  rlenB := rfl
  rlenC := rfl
  valid := rfl
  parity := rfl
  hamR := rfl
  hamN := rfl
  hamSyn := rfl
  hamStat := rfl
  ppos := rfl
  trace := rfl
  tcount := rfl
  status := rfl
  operands := ⟨rfl, rfl, rfl, rfl, rfl⟩
  outside := ⟨rfl, rfl, rfl⟩

theorem reported_completeError (e : ErrReport) (s : State) :
    Reported s (completeError e s) e.kind.code.toNat e.field.code.toNat e.idx e.cause.code.toNat := by
  simp only [Reported, BitVec.ofNat_toNat, BitVec.setWidth_eq]
  rfl

theorem stopsAs_finish (stop : Stop) (s : State) : StopsAs (finish (.error stop) s) s stop := by
  cases stop with
  | error e => exact ⟨_, rfl, reported_completeError e s⟩
  | fault f => rfl

/-! ### Commands whose operand is `OPD[0]` (30_encoding.md R65) -/

theorem readOpd_of_lt (s : State) {i : Nat} (hi : i < 64) : readOpd s i = readOperand s .opd i s.opd[i] := by
  rw [readOpd, opdAt, Vector.getElem?_eq_getElem hi, Option.getD_some]

/-- A command whose only phase is the fetch of `OPD[0]` commits the result of the string there. -/
theorem finish_readOpd_of_holds {s : State} {d : BitString} (hd : HoldsOperand s s.opd[0] d)
    (result : BitString → Result) :
    ∃ t, finish ((readOpd s 0).bind fun d => .ok (result d)) s = .next t ∧ Committed s t (result d) := by
  rw [readOpd_of_lt s (by decide), readOperand_eq_ok_iff.mpr hd]
  exact ⟨_, rfl, committed_completeOk (result d) s⟩

/-- A command whose first phase is the fetch of `OPD[0]` ends as that fetch stopped. -/
theorem stopsAs_finish_readOpd {s : State} {stop : Stop} (hstop : readOperand s .opd 0 s.opd[0] = .error stop)
    (rest : BitString → Execute Result) : StopsAs (finish ((readOpd s 0).bind rest) s) s stop := by
  rw [readOpd_of_lt s (by decide), hstop]
  exact stopsAs_finish stop s

/-! ### Parity (40_bitstring.md R75) -/

theorem onesCount_eq_count (s : BitString) : onesCount s = s.count true := by
  induction s with
  | nil => rfl
  | cons b s ih => cases b <;> simp [onesCount, ih, Nat.add_comm]

/-- The parity bit brings the count of ones to the policy's parity. -/
theorem count_add_parityBit (s : BitString) (even : Bool) :
    (s.count true + (parityBit s even).toNat) % 2 = policyParity even := by
  rw [parityBit, onesCount_eq_count]
  rcases Nat.mod_two_eq_zero_or_one (s.count true) with h | h <;> cases even <;>
    simp [h, policyParity, Nat.add_mod]

/-! ### The VRC unit (41_vrc.md R77, R78) -/

theorem exec_vrcEnc (even : Bool) (s : State) :
    exec (.vrcEnc even) s = finish ((readOpd s 0).bind fun d => .ok (vrcEncResult even d)) s := rfl

theorem exec_vrcVer (even : Bool) (s : State) :
    exec (.vrcVer even) s = finish ((readOpd s 0).bind fun rcv => .ok (vrcVerResult even rcv)) s := rfl

theorem count_codeword_vrcEnc (d : BitString) (even : Bool) :
    (d ++ [parityBit d even]).count true % 2 = policyParity even := by
  have hbit : [parityBit d even].count true = (parityBit d even).toNat := by
    cases parityBit d even <;> rfl
  rw [List.count_append, hbit, count_add_parityBit]

/-- The verdict is whether the whole unit's count of ones has the policy's parity. -/
theorem vrcVerResult_eq (even : Bool) (rcv : BitString) :
    vrcVerResult even rcv = { valid := decide (rcv.count true % 2 = policyParity even) } := by
  rw [vrcVerResult, onesCount_eq_count]
  rfl

/-- Settles O14: the bit appended is the parity bit, which brings the count of ones to the policy's parity. -/
theorem vrcEncAppendsTheParityBit : Obligations.VrcEncAppendsTheParityBit := by
  intro even s
  refine ⟨by cases even <;> rfl, fun d hd => ?_, fun stop hstop => ?_⟩
  · obtain ⟨t, hexec, hcommitted⟩ := finish_readOpd_of_holds hd (vrcEncResult even)
    exact ⟨parityBit d even, t, hexec, count_codeword_vrcEnc d even, hcommitted⟩
  · rw [exec_vrcEnc]
    exact stopsAs_finish_readOpd hstop _

/-- Settles O15: the unit is fetched whole and its count of ones decides. -/
theorem vrcVerChecksTheWholeUnit : Obligations.VrcVerChecksTheWholeUnit := by
  intro even s
  refine ⟨by cases even <;> rfl, fun rcv hrcv => ?_, fun stop hstop => ?_⟩
  · rw [exec_vrcVer, ← vrcVerResult_eq]
    exact finish_readOpd_of_holds hrcv (vrcVerResult even)
  · rw [exec_vrcVer]
    exact stopsAs_finish_readOpd hstop _

end Sys2Proof.Proofs

namespace Sys2Proof.Proofs

open Sys2Proof.Machine Sys2Proof.Claims

/-! ### The block list (42_lrc.md R81) -/

/-- A block list that names its strings is fetched as those strings. -/
theorem readBlocks_of_holdsBlocks {s : State} {bs : List BitString} (hle : bs.length ≤ 64)
    (hbs : HoldsBlocks s bs) : readBlocks s 0 bs.length = .ok bs := by
  refine (readBlocks_eq_ok s 0 bs.length bs).mpr ⟨rfl, fun j hj => ?_⟩
  have hj' : j < 64 := Nat.lt_of_lt_of_le hj hle
  rw [Nat.zero_add, readOpd_of_lt s hj']
  exact readOperand_eq_ok_iff.mpr (hbs j hj' hj)

/-- Fetching `m + n` blocks is fetching the first `m`, then the `n` after them. -/
theorem readBlocks_add (s : State) (i m n : Nat) :
    readBlocks s i (m + n) =
      (readBlocks s i m).bind fun bs => (readBlocks s (i + m) n).bind fun cs => .ok (bs ++ cs) := by
  induction m generalizing i with
  | zero => rw [Nat.zero_add, Nat.add_zero]; cases readBlocks s i n <;> rfl
  | succ m ih =>
    rw [Nat.add_right_comm, readBlocks, readBlocks, ih, Nat.add_right_comm i 1 m, Nat.add_assoc i m 1]
    cases readOpd s i with
    | error stop => rfl
    | ok b =>
      cases readBlocks s (i + 1) m with
      | error stop => rfl
      | ok bs => cases readBlocks s (i + (m + 1)) n <;> rfl

/-- The fetch of a block list ends as the first block that fails stops. -/
theorem readBlocks_of_stop {s : State} {bs : List BitString} {k : Nat} {stop : Stop} (hk : k ≤ 64)
    (hlt : bs.length < k) (hbs : HoldsBlocks s bs) (hstop : readOpd s bs.length = .error stop) :
    readBlocks s 0 k = .error stop := by
  obtain ⟨n, rfl⟩ := Nat.exists_eq_add_of_lt hlt
  rw [Nat.add_assoc, readBlocks_add, readBlocks_of_holdsBlocks (by omega) hbs, Nat.zero_add, readBlocks, hstop]
  rfl

/-! ### The dimension checks (R81) -/

/-- The search for a block of another length passes over blocks of length `len`. -/
theorem firstMismatch_eq_none {len : Nat} {bs : List BitString} (i : Nat) (hlen : ∀ b ∈ bs, b.length = len) :
    firstMismatch len i bs = none := by
  induction bs generalizing i with
  | nil => rfl
  | cons b bs ih =>
    obtain ⟨hb, hbs⟩ := List.forall_mem_cons.mp hlen
    rw [firstMismatch, if_pos hb, ih (i + 1) hbs]

/-- The search answers the first block of another length. -/
theorem firstMismatch_eq_some {len : Nat} {bs : List BitString} {j : Nat} (i : Nat) (hj : j < bs.length)
    (hne : (bs.getD j []).length ≠ len) (hfirst : ∀ l < j, (bs.getD l []).length = len) :
    firstMismatch len i bs = some (i + j) := by
  induction bs generalizing i j with
  | nil => exact absurd hj (Nat.not_lt_zero j)
  | cons b bs ih =>
    cases j with
    | zero => exact if_neg hne
    | succ j =>
      have hb : b.length = len := hfirst 0 (Nat.succ_pos j)
      have hbs : ∀ l < j, (bs.getD l []).length = len := fun l hl => hfirst (l + 1) (Nat.succ_lt_succ hl)
      rw [firstMismatch, if_pos hb, ih (i + 1) (Nat.lt_of_succ_lt_succ hj) hne hbs, Nat.add_assoc,
        Nat.add_comm 1]

/-- One or more blocks of one length pass. -/
theorem lrcDimensions_eq_ok {bs : List BitString} {len : Nat} (hpos : 1 ≤ bs.length)
    (hlen : ∀ b ∈ bs, b.length = len) : lrcDimensions bs = .ok () := by
  cases bs with
  | nil => cases hpos
  | cons b bs =>
    obtain ⟨rfl, hbs⟩ := List.forall_mem_cons.mp hlen
    rw [lrcDimensions, firstMismatch_eq_none 1 hbs]

/-- The first block whose length is not that of block 0 is reported by its index. -/
theorem lrcDimensions_of_mismatch {bs : List BitString} {j : Nat} (hj : j < bs.length)
    (hne : (bs.getD j []).length ≠ (bs.getD 0 []).length)
    (hfirst : ∀ l < j, (bs.getD l []).length = (bs.getD 0 []).length) :
    lrcDimensions bs = raiseDimensionMismatch .opd j .lenMismatch := by
  cases bs with
  | nil => exact absurd hj (Nat.not_lt_zero j)
  | cons b bs =>
    cases j with
    | zero => exact absurd rfl hne
    | succ j =>
      have hbs : ∀ l < j, (bs.getD l []).length = b.length := fun l hl => hfirst (l + 1) (Nat.succ_lt_succ hl)
      have hother : (bs.getD j []).length ≠ b.length := hne
      rw [lrcDimensions, firstMismatch_eq_some 1 (Nat.lt_of_succ_lt_succ hj) hother hbs, Nat.add_comm 1]

/-! ### The column parities (R82) -/

/-- The LRC of blocks of one length has that length. -/
theorem length_lrcOf {bs : List BitString} {len : Nat} (even : Bool) (hpos : 1 ≤ bs.length)
    (hlen : ∀ b ∈ bs, b.length = len) : (lrcOf bs even).length = len := by
  cases bs with
  | nil => cases hpos
  | cons b bs => simpa [lrcOf, blockLength] using hlen b (List.mem_cons_self ..)

theorem getD_lrcOf {bs : List BitString} {even : Bool} {j : Nat} (hj : j < (lrcOf bs even).length) :
    (lrcOf bs even).getD j false = parityBit (columnBits bs j) even := by
  rw [List.getD_eq_getElem _ _ hj]
  simp [lrcOf, column, columnBits]

/-- Each bit of the LRC gives its column the policy's parity. -/
theorem count_columnBits_add_lrcOf {bs : List BitString} {len : Nat} (even : Bool) (hpos : 1 ≤ bs.length)
    (hlen : ∀ b ∈ bs, b.length = len) {j : Nat} (hj : j < len) :
    ((columnBits bs j).count true + ((lrcOf bs even).getD j false).toNat) % 2 = policyParity even := by
  rw [← length_lrcOf even hpos hlen] at hj
  rw [getD_lrcOf hj, count_add_parityBit]

/-! ### The phases of an LRC command (R81, R83, R84) -/

/-- The phases both LRC commands share: the count, the blocks, the received LRC where there is one, the dimension
checks, the result. -/
def finishLrc {α : Type} (received : Execute α) (result : List BitString → α → Result) (k : Nat) (s : State) :
    Host.Outcome State Fault Refusal :=
  finish
    (if 64 < k then raiseIllegalCommand .badNopd
     else
      (readBlocks s 0 k).bind fun bs =>
        received.bind fun r => (lrcDimensions bs).bind fun _ => .ok (result bs r)) s

theorem exec_lrcEnc (even : Bool) (k : Nat) (s : State) :
    exec (.lrcEnc even k) s = finishLrc (.ok ()) (fun bs _ => lrcEncResult even bs) k s := rfl

theorem exec_lrcVer (even : Bool) (k : Nat) (s : State) :
    exec (.lrcVer even k) s = finishLrc (readAux s) (lrcVerResult even) k s := rfl

theorem reports_finish (e : ErrReport) (s : State) :
    Reports (finish (.error (.error e)) s) s e.kind.code.toNat e.field.code.toNat e.idx e.cause.code.toNat :=
  ⟨_, rfl, reported_completeError e s⟩

section Phases

variable {α : Type} {received : Execute α} (result : List BitString → α → Result) {s : State}
  {bs : List BitString} {r : α} {k : Nat} {stop : Stop}

/-- A count past `MAXBLK` is reported before anything is fetched. -/
theorem finishLrc_of_count (hk : 64 < k) : Reports (finishLrc received result k s) s 3 1 0 14 := by
  rw [finishLrc, if_pos hk]
  exact reports_finish _ s

/-- A failing block ends the command. -/
theorem finishLrc_of_block (hk : k ≤ 64) (hlt : bs.length < k) (hbs : HoldsBlocks s bs)
    (hstop : readOpd s bs.length = .error stop) : StopsAs (finishLrc received result k s) s stop := by
  rw [finishLrc, if_neg (Nat.not_lt.mpr hk), readBlocks_of_stop hk hlt hbs hstop]
  exact stopsAs_finish stop s

/-- Past the blocks, the received LRC is fetched and then the dimensions are checked. -/
theorem finishLrc_of_blocks (hle : bs.length ≤ 64) (hbs : HoldsBlocks s bs) :
    finishLrc received result bs.length s =
      finish (received.bind fun r => (lrcDimensions bs).bind fun _ => .ok (result bs r)) s := by
  rw [finishLrc, if_neg (Nat.not_lt.mpr hle), readBlocks_of_holdsBlocks hle hbs, execute_bind_ok]

/-- A received LRC that cannot be fetched ends the command after every block was read. -/
theorem finishLrc_of_received (hle : bs.length ≤ 64) (hbs : HoldsBlocks s bs) (hstop : received = .error stop) :
    StopsAs (finishLrc received result bs.length s) s stop := by
  rw [finishLrc_of_blocks result hle hbs, hstop]
  exact stopsAs_finish stop s

/-- A failed dimension check is reported once all operands are read. -/
theorem finishLrc_of_dimensions (hle : bs.length ≤ 64) (hbs : HoldsBlocks s bs) (hr : received = .ok r)
    {e : ErrReport} (hdim : lrcDimensions bs = .error (.error e)) :
    Reports (finishLrc received result bs.length s) s e.kind.code.toNat e.field.code.toNat e.idx
      e.cause.code.toNat := by
  rw [finishLrc_of_blocks result hle hbs, hr, execute_bind_ok, hdim]
  exact reports_finish e s

/-- With every operand read and one or more blocks of one length, the result is committed. -/
theorem finishLrc_commits {len : Nat} (hpos : 1 ≤ bs.length) (hle : bs.length ≤ 64) (hbs : HoldsBlocks s bs)
    (hr : received = .ok r) (hlen : ∀ b ∈ bs, b.length = len) :
    ∃ t, finishLrc received result bs.length s = .next t ∧ Committed s t (result bs r) := by
  rw [finishLrc_of_blocks result hle hbs, hr, execute_bind_ok, lrcDimensions_eq_ok hpos hlen]
  exact ⟨_, rfl, committed_completeOk (result bs r) s⟩

end Phases

theorem holdsBlocks_nil (s : State) : HoldsBlocks s [] := fun i _ hi => absurd hi (Nat.not_lt_zero i)

/-- A command with the phases of an LRC command makes the checks of R81 in order, when its fetch of a received LRC
is that of `AUX` wherever it verifies. -/
theorem lrcValidates_of_phases {α : Type} {i : Nat → Instr} {verify : Bool} {received : State → Execute α}
    {result : List BitString → α → Result}
    (hexec : ∀ k s, exec (i k) s = finishLrc (received s) result k s)
    (hstop : ∀ s stop, verify = true → readAux s = .error stop → received s = .error stop)
    (hok : ∀ s, (verify = true → ∃ rl, HoldsOperand s s.aux rl) → ∃ r, received s = .ok r) :
    LrcValidates i verify := by
  intro s
  simp only [hexec]
  refine ⟨fun k hk => finishLrc_of_count result hk, fun k bs stop hk hlt hbs d hd hfail => ?_,
    fun bs stop hverify hle hbs hfail => finishLrc_of_received result hle hbs (hstop s stop hverify hfail),
    fun hread => ?_⟩
  · have hblock : readOpd s bs.length = .error stop := by
      rw [readOpd, opdAt, hd]
      exact hfail
    exact finishLrc_of_block result hk hlt hbs hblock
  · obtain ⟨r, hr⟩ := hok s hread
    refine ⟨?_, fun bs j hle hbs hj hne hfirst => ?_⟩
    · exact finishLrc_of_dimensions (bs := []) result (Nat.zero_le 64) (holdsBlocks_nil s) hr rfl
    · exact finishLrc_of_dimensions result hle hbs hr (lrcDimensions_of_mismatch hj hne hfirst)

/-! ### The LRC unit (R83, R84) -/

/-- Settles O16: bit `j` is the parity bit of column `j`, and the checks are those of the shared phases with no `AUX`
to fetch. -/
theorem lrcEncWritesTheColumnParities : Obligations.LrcEncWritesTheColumnParities := by
  intro even
  refine ⟨fun k hk => ?_, fun s bs len hpos hle hbs hlen => ?_, ?_⟩
  · exact toNat_encodeFields .lrc false even (by omega)
  · obtain ⟨t, hnext, hcommitted⟩ :=
      finishLrc_commits (fun bs _ => lrcEncResult even bs) hpos hle hbs (r := ()) rfl hlen
    exact ⟨lrcOf bs even, t, (exec_lrcEnc even _ s).trans hnext, length_lrcOf even hpos hlen,
      fun _ => count_columnBits_add_lrcOf even hpos hlen, hcommitted⟩
  · exact lrcValidates_of_phases (exec_lrcEnc even) (fun _ _ hverify => absurd hverify Bool.false_ne_true)
      fun _ _ => ⟨(), rfl⟩

/-- Settles O17: the LRC is recomputed as the encoder computes it and compared with the string at `AUX`, which is
fetched after the blocks. -/
theorem lrcVerComparesTheColumnParities : Obligations.LrcVerComparesTheColumnParities := by
  intro even
  refine ⟨fun k hk => ?_, fun s bs len rl hpos hle hbs hrl hlen => ?_, ?_⟩
  · exact toNat_encodeFields .lrc true even (by omega)
  · obtain ⟨t, hnext, hcommitted⟩ :=
      finishLrc_commits (lrcVerResult even) hpos hle hbs (readOperand_eq_ok_iff.mpr hrl) hlen
    exact ⟨lrcOf bs even, t, (exec_lrcVer even _ s).trans hnext, length_lrcOf even hpos hlen,
      fun _ => count_columnBits_add_lrcOf even hpos hlen, hcommitted⟩
  · refine lrcValidates_of_phases (exec_lrcVer even) (fun _ _ _ hstop => hstop) fun s hread => ?_
    obtain ⟨rl, hrl⟩ := hread rfl
    exact ⟨rl, readOperand_eq_ok_iff.mpr hrl⟩

end Sys2Proof.Proofs

namespace Sys2Proof.Proofs

open Sys2Proof.Machine Sys2Proof.Claims

/-! ### Long division, window by window (43_crc.md R88, R93) -/

/-- On strings of one length `xorbits` is the XOR bit by bit (00_scope.md R12). -/
theorem xorbits_eq_zipWith {a b : BitString} (hlen : a.length = b.length) :
    xorbits a b = some (List.zipWith (fun x y => x ^^ y) a b) := by
  induction a generalizing b with
  | nil => rw [List.length_eq_zero_iff.mp hlen.symm]; rfl
  | cons x a ih =>
    cases b with
    | nil => cases hlen
    | cons y b => rw [xorbits, ih (Nat.succ.inj hlen)]; rfl

@[simp] theorem length_stepPattern (g w : BitString) : (stepPattern g w).length = g.length := by
  cases h : leadingBit w <;> simp [stepPattern, zeros, h]

/-- The window of a step XORed with its pattern (R88). -/
def stepXor (g w : BitString) : BitString := List.zipWith (fun x y => x ^^ y) w (stepPattern g w)

/-- The window after one in which `b` is brought down (R88). -/
def nextWindow (g w : BitString) (b : Bool) : BitString := (stepXor g w).tail ++ [b]

/-- The window `j` steps after `w`, with the bits of `rest` brought down in turn (R88). -/
def windowAt (g w rest : BitString) (j : Nat) : BitString := (rest.take j).foldl (nextWindow g) w

/-- What the steps from window `w` give, the first of them numbered `i`: each quotient bit and record is read off its
own window (R88, R93). -/
def divisionFrom (g : BitString) (i : Nat) (w rest : BitString) : Division where
  rem := (stepXor g (windowAt g w rest rest.length)).tail
  quot := (List.range (rest.length + 1)).map fun j => leadingBit (windowAt g w rest j)
  steps := (List.range (rest.length + 1)).map fun j =>
    let v := windowAt g w rest j
    crcStepRecord (i + j) v (stepPattern g v) (stepXor g v)

/-- The division of `d` by `g` as its windows give it. -/
def longDivision (d g : BitString) : Division := divisionFrom g 0 (d.take g.length) (d.drop g.length)

@[simp] theorem windowAt_zero (g w rest : BitString) : windowAt g w rest 0 = w := rfl

@[simp] theorem windowAt_cons_succ (g w : BitString) (b : Bool) (rest : BitString) (j : Nat) :
    windowAt g w (b :: rest) (j + 1) = windowAt g (nextWindow g w b) rest j := rfl

/-- Each step brings down the next bit. -/
theorem windowAt_succ (g w : BitString) {rest : BitString} {j : Nat} (hj : j < rest.length) :
    windowAt g w rest (j + 1) = nextWindow g (windowAt g w rest j) rest[j] := by
  rw [windowAt, ← List.take_concat_get' rest j hj, List.foldl_append]
  rfl

section Windows

variable {g w : BitString} (hw : w.length = g.length)

include hw

theorem xorbits_stepPattern : xorbits w (stepPattern g w) = some (stepXor g w) :=
  xorbits_eq_zipWith (hw.trans (length_stepPattern g w).symm)

theorem length_stepXor : (stepXor g w).length = g.length := by simp [stepXor, hw]

theorem length_nextWindow (hpos : 1 ≤ g.length) (b : Bool) : (nextWindow g w b).length = g.length := by
  simp [nextWindow, length_stepXor hw, hpos]

/-- The window keeps the divisor's length. -/
theorem length_windowAt (hpos : 1 ≤ g.length) (rest : BitString) (j : Nat) :
    (windowAt g w rest j).length = g.length := by
  induction rest generalizing w j with
  | nil => simpa [windowAt] using hw
  | cons b rest ih =>
    cases j with
    | zero => exact hw
    | succ j => exact ih (length_nextWindow hw hpos b) j

/-- With a divisor that leads with 1, the XOR of a step leads with 0. -/
theorem head?_stepXor (hlead : g.head? = some true) : (stepXor g w).head? = some false := by
  obtain ⟨gs, rfl⟩ := List.head?_eq_some_iff.mp hlead
  cases w with
  | nil => cases hw
  | cons b ws => cases b <;> rfl

end Windows

/-- The division from a window is that window's step, then the division from the next window. -/
theorem divisionFrom_cons (g : BitString) (i : Nat) (w : BitString) (b : Bool) (rest : BitString) :
    divisionFrom g i w (b :: rest) =
      { rem := (divisionFrom g (i + 1) (nextWindow g w b) rest).rem
        quot := leadingBit w :: (divisionFrom g (i + 1) (nextWindow g w b) rest).quot
        steps := crcStepRecord i w (stepPattern g w) (stepXor g w) ::
          (divisionFrom g (i + 1) (nextWindow g w b) rest).steps } := by
  have hrange : List.range ((b :: rest).length + 1) = 0 :: (List.range (rest.length + 1)).map (· + 1) :=
    List.range_succ_eq_map
  simp only [divisionFrom]
  rw [hrange]
  simp [Function.comp_def, Nat.add_assoc, Nat.add_comm 1]

/-- The steps of `Mod2Div` never XOR strings of unequal lengths, and give what their windows say. -/
theorem divSteps_eq {g w : BitString} (hpos : 1 ≤ g.length) (hw : w.length = g.length) (i : Nat)
    (rest : BitString) : divSteps g i w rest = some (divisionFrom g i w rest) := by
  induction rest generalizing i w with
  | nil => rw [divSteps, xorbits_stepPattern hw]; rfl
  | cons b rest ih =>
    have hnext : divSteps g (i + 1) ((stepXor g w).tail ++ [b]) rest =
        some (divisionFrom g (i + 1) (nextWindow g w b) rest) :=
      ih (length_nextWindow hw hpos b) (i + 1)
    simp only [divSteps, xorbits_stepPattern hw, hnext, divisionFrom_cons]

section LongDivision

variable {d g : BitString} (hpos : 1 ≤ g.length) (hle : g.length ≤ d.length)

include hpos hle

theorem mod2Div_eq_longDivision : mod2Div d g = some (longDivision d g) :=
  divSteps_eq hpos (List.length_take_of_le hle) 0 (d.drop g.length)

theorem divide_eq_longDivision : divide d g = .ok (longDivision d g) := by
  rw [divide, mod2Div_eq_longDivision hpos hle]

theorem length_rem_longDivision : (longDivision d g).rem.length = g.length - 1 := by
  have hwindow := length_windowAt (List.length_take_of_le hle) hpos (d.drop g.length) (d.drop g.length).length
  rw [longDivision, divisionFrom, List.length_tail, length_stepXor hwindow]

end LongDivision

@[simp] theorem length_quot_longDivision (d g : BitString) :
    (longDivision d g).quot.length = d.length - g.length + 1 := by
  simp [longDivision, divisionFrom]

@[simp] theorem length_steps_longDivision (d g : BitString) :
    (longDivision d g).steps.length = d.length - g.length + 1 := by
  simp [longDivision, divisionFrom]

theorem leadingBit_eq_getD (w : BitString) : leadingBit w = w.getD 0 false := by cases w <;> rfl

theorem getElem?_zero_eq_leadingBit {w : BitString} (hw : 1 ≤ w.length) : w[0]? = some (leadingBit w) := by
  cases w with
  | nil => cases hw
  | cons b w => rfl

/-- Settles O24: the windows are those the rule brings down, and the division is read off them. -/
theorem mod2DivStepsFollowLongDivision : Obligations.Mod2DivStepsFollowLongDivision := by
  intro d g hlen hlead hle
  have hpos : 1 ≤ g.length := Nat.le_of_succ_le hlen
  let W := windowAt g (d.take g.length) (d.drop g.length)
  have hW (i : Nat) : (W i).length = g.length := length_windowAt (List.length_take_of_le hle) hpos _ i
  refine ⟨longDivision d g, W, fun i => stepPattern g (W i), fun i => stepXor g (W i),
    mod2Div_eq_longDivision hpos hle, length_quot_longDivision d g, length_steps_longDivision d g, rfl,
    fun i hi => ⟨hW i, ?_, rfl, head?_stepXor (hW i) hlead, ?_, fun hnext => ?_, ?_⟩, ?_⟩
  · rw [← leadingBit_eq_getD]; rfl
  · rw [getElem?_zero_eq_leadingBit (hpos.trans_eq (hW i).symm)]
    simp [longDivision, divisionFrom, hi, W]
  · have hbit : i < (d.drop g.length).length := by rw [List.length_drop]; omega
    rw [List.getD_eq_getElem d false (by omega : g.length + i < d.length), ← List.getElem_drop (h := hbit)]
    exact windowAt_succ g _ hbit
  · simp [longDivision, divisionFrom, hi, W, crcStepRecord, leadingBit_eq_getD]
  · simp [longDivision, divisionFrom, W]

/-! ### The phases of a CRC command (R87) -/

/-- The divisor checks pass a divisor of 2 or more bits that leads with 1. -/
theorem crcDivisorChecks_eq_ok {g : BitString} (hlen : 2 ≤ g.length) (hlead : g.head? = some true) :
    crcDivisorChecks g = .ok () := by
  obtain ⟨gs, rfl⟩ := List.head?_eq_some_iff.mp hlead
  exact if_neg (Nat.not_lt.mpr hlen)

/-- A divisor of 2 or more bits that leads with 0 is reported as such. -/
theorem crcDivisorChecks_of_lead0 {g : BitString} (hlen : 2 ≤ g.length) (hlead : g.head? = some false) :
    crcDivisorChecks g = raiseInvalidInput .aux 0 .divLead0 := by
  obtain ⟨gs, rfl⟩ := List.head?_eq_some_iff.mp hlead
  exact if_neg (Nat.not_lt.mpr hlen)

/-- The phases both CRC commands share: the unit, the divisor, the divisor checks, then what the command does with
both strings. -/
def finishCrc (rest : BitString → BitString → Execute Result) (s : State) : Host.Outcome State Fault Refusal :=
  finish
    ((readOpd s 0).bind fun x => (readAux s).bind fun g => (crcDivisorChecks g).bind fun _ => rest x g) s

/-- `CRC.ENC` past the divisor checks (R91). -/
def encodeCrc (d g : BitString) : Execute Result :=
  (divide (d ++ zeros (g.length - 1)) g).bind fun r => .ok (crcEncResult d r)

/-- `CRC.VER` past the divisor checks (R87, R94). -/
def verifyCrc (cw g : BitString) : Execute Result :=
  (crcCodewordCheck cw g).bind fun _ => (divide cw g).bind fun r => .ok (crcVerResult g r)

theorem exec_crcEnc (s : State) : exec .crcEnc s = finishCrc encodeCrc s := rfl

theorem exec_crcVer (s : State) : exec .crcVer s = finishCrc verifyCrc s := rfl

theorem verifyCrc_of_short {cw g : BitString} (hlt : cw.length < g.length) :
    verifyCrc cw g = raiseDimensionMismatch .opd 0 .cwShort := by
  rw [verifyCrc, crcCodewordCheck, if_pos hlt]
  rfl

theorem length_augmented (d : BitString) (n : Nat) : (d ++ zeros (n - 1)).length = d.length + (n - 1) := by
  simp [zeros]

theorem encodeCrc_eq_ok {d g : BitString} (hpos : 1 ≤ g.length)
    (hle : g.length ≤ (d ++ zeros (g.length - 1)).length) :
    encodeCrc d g = .ok (crcEncResult d (longDivision (d ++ zeros (g.length - 1)) g)) := by
  rw [encodeCrc, divide_eq_longDivision hpos hle]
  rfl

theorem verifyCrc_eq_ok {cw g : BitString} (hpos : 1 ≤ g.length) (hle : g.length ≤ cw.length) :
    verifyCrc cw g = .ok (crcVerResult g (longDivision cw g)) := by
  rw [verifyCrc, crcCodewordCheck, if_neg (Nat.not_lt.mpr hle), execute_bind_ok, divide_eq_longDivision hpos hle]
  rfl

section Phases

variable {rest : BitString → BitString → Execute Result} {s : State} {x g : BitString}

/-- With both strings fetched, the divisor checks come next. -/
theorem finishCrc_of_operands (hx : HoldsOperand s s.opd[0] x) (hg : HoldsOperand s s.aux g) :
    finishCrc rest s = finish ((crcDivisorChecks g).bind fun _ => rest x g) s := by
  rw [finishCrc, readOpd_of_lt s (by decide), readOperand_eq_ok_iff.mpr hx, execute_bind_ok, readAux,
    readOperand_eq_ok_iff.mpr hg, execute_bind_ok]

/-- With a legal divisor, the command does its own work. -/
theorem finishCrc_of_divisor (hx : HoldsOperand s s.opd[0] x) (hg : HoldsOperand s s.aux g)
    (hlen : 2 ≤ g.length) (hlead : g.head? = some true) : finishCrc rest s = finish (rest x g) s := by
  rw [finishCrc_of_operands hx hg, crcDivisorChecks_eq_ok hlen hlead, execute_bind_ok]

/-- With a legal divisor, the result of the command's own work is committed. -/
theorem finishCrc_commits {result : Result} (hx : HoldsOperand s s.opd[0] x) (hg : HoldsOperand s s.aux g)
    (hlen : 2 ≤ g.length) (hlead : g.head? = some true) (hresult : rest x g = .ok result) :
    ∃ t, finishCrc rest s = .next t ∧ Committed s t result := by
  rw [finishCrc_of_divisor hx hg hlen hlead, hresult]
  exact ⟨_, rfl, committed_completeOk result s⟩

/-- A divisor that cannot be fetched ends the command after the unit was read. -/
theorem finishCrc_of_aux {stop : Stop} (hx : HoldsOperand s s.opd[0] x)
    (hstop : readOperand s .aux 0 s.aux = .error stop) : StopsAs (finishCrc rest s) s stop := by
  rw [finishCrc, readOpd_of_lt s (by decide), readOperand_eq_ok_iff.mpr hx, execute_bind_ok, readAux, hstop]
  exact stopsAs_finish stop s

end Phases

/-- A command with the phases of a CRC command makes the checks of R87 in order, when its own work on a codeword
shorter than the divisor is the last of them wherever it verifies. -/
theorem crcValidates_of_phases {i : Instr} {verify : Bool} {rest : BitString → BitString → Execute Result}
    (hexec : ∀ s, exec i s = finishCrc rest s)
    (hshort : ∀ x g : BitString, verify = true → x.length < g.length →
      rest x g = raiseDimensionMismatch .opd 0 .cwShort) :
    CrcValidates i verify := by
  intro s
  rw [hexec]
  refine ⟨fun stop hstop => stopsAs_finish_readOpd hstop _, fun x stop hx hstop => finishCrc_of_aux hx hstop,
    fun x g hx hg => ⟨fun hlt => ?_, fun hlen hlead => ?_, fun hlen hlead hverify hlt => ?_⟩⟩
  · rw [finishCrc_of_operands hx hg, crcDivisorChecks, if_pos hlt]
    exact reports_finish _ s
  · rw [finishCrc_of_operands hx hg, crcDivisorChecks_of_lead0 hlen hlead]
    exact reports_finish _ s
  · rw [finishCrc_of_divisor hx hg hlen hlead, hshort x g hverify hlt]
    exact reports_finish _ s

/-! ### The CRC unit (R91, R94) -/

/-- Settles O18: past the shared phases the augmented data are divided, and there is no other check. -/
theorem crcEncAppendsTheRemainder : Obligations.CrcEncAppendsTheRemainder := by
  refine ⟨rfl, fun s d g hd hg hlen hlead => ?_,
    crcValidates_of_phases exec_crcEnc fun _ _ hverify => absurd hverify Bool.false_ne_true⟩
  have hpos : 1 ≤ g.length := Nat.le_of_succ_le hlen
  have hdata : 1 ≤ d.length := by
    obtain ⟨hlength, hlength_pos, -⟩ := hd
    exact hlength_pos.trans_eq hlength.symm
  have haugmented := length_augmented d g.length
  have hle : g.length ≤ (d ++ zeros (g.length - 1)).length := by omega
  have hsteps : (d ++ zeros (g.length - 1)).length - g.length + 1 = d.length := by omega
  obtain ⟨t, hnext, hcommitted⟩ := finishCrc_commits hd hg hlen hlead (encodeCrc_eq_ok hpos hle)
  exact ⟨_, _, _, t, (exec_crcEnc s).trans hnext, mod2Div_eq_longDivision hpos hle,
    length_rem_longDivision hpos hle, (length_quot_longDivision _ g).trans hsteps,
    (length_steps_longDivision _ g).trans hsteps, hcommitted⟩

/-- Settles O19: past the shared phases only the codeword's length is checked, and the remainder decides. -/
theorem crcVerAcceptsAZeroRemainder : Obligations.CrcVerAcceptsAZeroRemainder := by
  refine ⟨rfl, fun s cw g hcw hg hlen hlead hle => ?_,
    crcValidates_of_phases exec_crcVer fun _ _ _ hlt => verifyCrc_of_short hlt⟩
  have hpos : 1 ≤ g.length := Nat.le_of_succ_le hlen
  obtain ⟨t, hnext, hcommitted⟩ := finishCrc_commits hcw hg hlen hlead (verifyCrc_eq_ok hpos hle)
  exact ⟨_, _, _, t, (exec_crcVer s).trans hnext, mod2Div_eq_longDivision hpos hle,
    length_rem_longDivision hpos hle, length_quot_longDivision cw g, hcommitted⟩

end Sys2Proof.Proofs

namespace Sys2Proof.Proofs

open Sys2Proof.Machine Sys2Proof.Claims

/-! ### The folded sum fits in a block (44_checksum.md R99 to R101) -/

theorem maskOf_eq (k : Nat) : maskOf k = 2 ^ k - 1 := rfl

theorem le_maskOf_iff_lt {k v : Nat} : v ≤ maskOf k ↔ v < 2 ^ k := by
  rw [maskOf_eq, Nat.le_sub_one_iff_lt (Nat.two_pow_pos k)]

/-- The end-around carry adds what stands above bit `k - 1` to what stands below (R99). -/
theorem foldCarry_eq_mod_add_div (k sum : Nat) : foldCarry k sum = sum % 2 ^ k + sum / 2 ^ k := by
  rw [foldCarry, maskOf_eq, Nat.and_two_pow_sub_one_eq_mod, Nat.shiftRight_eq_div_pow]

/-- A fold of a sum past the mask is smaller than it: each carried unit stood for `2 ^ k ≥ 2`. -/
theorem foldCarry_lt {k sum : Nat} (hk : 1 ≤ k) (hsum : maskOf k < sum) : foldCarry k sum < sum := by
  have hle : 2 ^ k ≤ sum := by rwa [← Nat.not_le, le_maskOf_iff_lt, Nat.not_lt] at hsum
  have hcarry : 1 ≤ sum / 2 ^ k := Nat.div_pos hle (Nat.two_pow_pos k)
  have hweight : 2 * (sum / 2 ^ k) ≤ 2 ^ k * (sum / 2 ^ k) :=
    Nat.mul_le_mul_right _ (Nat.le_self_pow (Nat.ne_of_gt hk) 2)
  have hsplit := Nat.mod_add_div sum (2 ^ k)
  rw [foldCarry_eq_mod_add_div]
  omega

/-- Folding with as much fuel as the sum ends within the mask, since each fold is smaller. -/
theorem sum_foldWhile_le {k j fuel sum : Nat} (hk : 1 ≤ k) (hfuel : sum ≤ fuel) :
    (foldWhile k j fuel sum).sum ≤ maskOf k := by
  induction fuel generalizing sum with
  | zero => exact (Nat.le_zero.mp hfuel).trans_le (Nat.zero_le _)
  | succ fuel ih =>
    rw [foldWhile]
    split
    next hpast => exact ih (Nat.le_of_lt_succ ((foldCarry_lt hk hpast).trans_le hfuel))
    next hwithin => exact Nat.not_lt.mp hwithin

/-- The running sum stays within the mask from block to block. -/
theorem sum_accumulate_le {k j sum : Nat} {bs : List BitString} (hk : 1 ≤ k) (hsum : sum ≤ maskOf k) :
    (accumulate k j sum bs).sum ≤ maskOf k := by
  induction bs generalizing j sum with
  | nil => exact hsum
  | cons b bs ih => exact ih (sum_foldWhile_le hk le_rfl)

theorem sum_checksumOf_le {k : Nat} (d : BitString) (hk : 1 ≤ k) : (checksumOf d k).sum ≤ maskOf k :=
  sum_accumulate_le hk (Nat.zero_le _)

/-! ### The verdict (R105) -/

/-- The complement of a sum is all zeros exactly when every bit of the sum is 1. -/
theorem complement_binOf_eq_zeros_iff_testBit {k v : Nat} :
    complement (binOf k v) = zeros k ↔ ∀ i < k, v.testBit i = true := by
  have hbits : complement (binOf k v) = zeros k ↔ ∀ i < k, v.testBit (k - 1 - i) = true := by
    simp [complement, binOf, zeros, List.eq_replicate_iff]
  rw [hbits]
  refine ⟨fun h i hi => ?_, fun h i hi => h _ (by omega)⟩
  have hmirror : k - 1 - (k - 1 - i) = i := by omega
  exact hmirror ▸ h (k - 1 - i) (by omega)

/-- Among the numbers of `k` bits only the mask has every bit 1. -/
theorem complement_binOf_eq_zeros_iff {k v : Nat} (hv : v ≤ maskOf k) :
    complement (binOf k v) = zeros k ↔ v = maskOf k := by
  rw [complement_binOf_eq_zeros_iff_testBit, maskOf_eq]
  constructor
  · intro hbits
    refine Nat.eq_of_testBit_eq fun i => ?_
    rw [Nat.testBit_two_pow_sub_one]
    by_cases hi : i < k
    · rw [hbits i hi, decide_eq_true hi]
    · rw [decide_eq_false hi, Nat.testBit_eq_false_of_lt]
      exact (le_maskOf_iff_lt.mp hv).trans_le (Nat.pow_le_pow_right (by decide) (Nat.not_lt.mp hi))
  · rintro rfl i hi
    rw [Nat.testBit_two_pow_sub_one, decide_eq_true hi]

/-- `CSUM.VER` accepts exactly the sum `2 ^ k - 1`. -/
theorem csumVerResult_eq {k : Nat} (d : BitString) (hk : 1 ≤ k) :
    csumVerResult d k =
      { a := binOf k (checksumOf d k).sum
        b := complement (binOf k (checksumOf d k).sum)
        valid := decide ((checksumOf d k).sum = maskOf k) } := by
  simp only [csumVerResult, complement_binOf_eq_zeros_iff (sum_checksumOf_le d hk)]

/-! ### The phases of a CSUM command (R97) -/

/-- A non-zero block size that divides the length of the data passes. -/
theorem csumChecks_eq_ok {d : BitString} {k : Nat} (hk : 1 ≤ k) (hdvd : d.length % k = 0) :
    csumChecks d k = .ok () := by
  rw [csumChecks, if_neg (Nat.ne_of_gt hk), if_neg (not_not.mpr hdvd)]

/-- A block size 0 is reported first. -/
theorem csumChecks_of_zero {d : BitString} {k : Nat} (hk : k = 0) :
    csumChecks d k = raiseInvalidInput .blksz 0 .zeroBlksz := if_pos hk

/-- A non-zero block size that does not divide the length of the data is reported as such. -/
theorem csumChecks_of_notMultiple {d : BitString} {k : Nat} (hk : k ≠ 0) (hndvd : d.length % k ≠ 0) :
    csumChecks d k = raiseDimensionMismatch .opd 0 .notMultiple := by
  rw [csumChecks, if_neg hk, if_pos hndvd]

/-- The phases both CSUM commands share: the data, the checks of the block size, the result. -/
def finishCsum (result : BitString → Nat → Result) (s : State) : Host.Outcome State Fault Refusal :=
  finish
    ((readOpd s 0).bind fun d =>
      (csumChecks d s.blksz.toNat).bind fun _ => .ok (result d s.blksz.toNat)) s

theorem exec_csumEnc (s : State) : exec .csumEnc s = finishCsum csumEncResult s := rfl

theorem exec_csumVer (s : State) : exec .csumVer s = finishCsum csumVerResult s := rfl

section Phases

variable (result : BitString → Nat → Result) {s : State} {d : BitString} (hd : HoldsOperand s s.opd[0] d)

include hd

/-- With the data fetched, the checks of the block size come next. -/
theorem finishCsum_of_operand :
    finishCsum result s =
      finish ((csumChecks d s.blksz.toNat).bind fun _ => .ok (result d s.blksz.toNat)) s := by
  rw [finishCsum, readOpd_of_lt s (by decide), readOperand_eq_ok_iff.mpr hd, execute_bind_ok]

/-- With a non-zero block size that divides the length of the data, the result is committed. -/
theorem finishCsum_commits (hk : 1 ≤ s.blksz.toNat) (hdvd : d.length % s.blksz.toNat = 0) :
    ∃ t, finishCsum result s = .next t ∧ Committed s t (result d s.blksz.toNat) := by
  rw [finishCsum_of_operand result hd, csumChecks_eq_ok hk hdvd]
  exact ⟨_, rfl, committed_completeOk (result d s.blksz.toNat) s⟩

/-- A failed check of the block size is reported. -/
theorem finishCsum_of_checks {e : ErrReport} (hcheck : csumChecks d s.blksz.toNat = .error (.error e)) :
    Reports (finishCsum result s) s e.kind.code.toNat e.field.code.toNat e.idx e.cause.code.toNat := by
  rw [finishCsum_of_operand result hd, hcheck]
  exact reports_finish e s

end Phases

/-- A command with the phases of a CSUM command makes the checks of R97 in order. -/
theorem csumValidates_of_phases {i : Instr} {result : BitString → Nat → Result}
    (hexec : ∀ s, exec i s = finishCsum result s) : CsumValidates i := by
  intro s
  rw [hexec]
  exact ⟨fun stop hstop => stopsAs_finish_readOpd hstop _,
    fun d hd => ⟨fun hzero => finishCsum_of_checks result hd (csumChecks_of_zero hzero),
      fun hk hndvd => finishCsum_of_checks result hd (csumChecks_of_notMultiple hk hndvd)⟩⟩

/-! ### The checksum unit (R102, R105) -/

/-- Settles O20: once the operand and the block size pass, the result is committed as computed. -/
theorem csumEncWritesSumAndComplement : Obligations.CsumEncWritesSumAndComplement := by
  refine ⟨rfl, fun s d hd hk hdvd => ?_, csumValidates_of_phases exec_csumEnc⟩
  rw [exec_csumEnc]
  exact finishCsum_commits csumEncResult hd hk hdvd

/-- Settles O21: the sum fits in `k` bits, so its complement is zero exactly when the sum is all ones. -/
theorem csumVerAcceptsAllOnes : Obligations.CsumVerAcceptsAllOnes := by
  refine ⟨rfl, fun s d hd hk hdvd => ?_, csumValidates_of_phases exec_csumVer⟩
  obtain ⟨t, hnext, hcommitted⟩ := finishCsum_commits csumVerResult hd hk hdvd
  rw [csumVerResult_eq d hk] at hcommitted
  exact ⟨t, (exec_csumVer s).trans hnext, hcommitted⟩

end Sys2Proof.Proofs

namespace Sys2Proof.Proofs

open Sys2Proof.Machine Sys2Proof.Claims

/-! ### The words of the Hamming claims in the unit's own terms (45_hamming.md R108, R111, R112) -/

theorem posBit_eq_bitAt (c : BitString) (p : Nat) : posBit c p = bitAt c p := rfl

theorem coveredBy_eq_covered (k n : Nat) : coveredBy k n = covered k n := by
  refine List.filter_congr fun p _ => ?_
  rw [Nat.testBit_eq_decide_div_mod_eq]
  rfl

/-- The bits the claims XOR for check `k` are the bits the encoder XORs (R112). -/
theorem map_posBit_coveredBy_ne (c : BitString) (k n : Nat) :
    ((coveredBy k n).filter (fun p => p != 2 ^ k)).map (posBit c) = parityInputs c k n := by
  rw [coveredBy_eq_covered]
  rfl

/-- The XOR of a string is the parity of its count of ones. -/
theorem toNat_xorAll (s : BitString) : (xorAll s).toNat = s.count true % 2 := by
  induction s with
  | nil => rfl
  | cons b s ih =>
    cases b with
    | false => simpa [xorAll] using ih
    | true =>
      have hnot : (!xorAll s).toNat = 1 - (xorAll s).toNat := by cases xorAll s <;> rfl
      rw [xorAll, Bool.true_xor, hnot, ih, List.count_cons_self]
      omega

theorem xorAll_eq_decide (s : BitString) : xorAll s = decide (s.count true % 2 = 1) := by
  rw [← toNat_xorAll]
  cases xorAll s <;> rfl

/-! ### The number of parity bits (R109) -/

/-- The search answers the least solution, when there is one within its fuel and none before its start. -/
theorem leastRedundancy_isLeast {m fuel r : Nat} (hbelow : ∀ q < r, 2 ^ q < m + q + 1)
    (hfuel : m + (r + fuel) + 1 ≤ 2 ^ (r + fuel)) :
    m + leastRedundancy m fuel r + 1 ≤ 2 ^ leastRedundancy m fuel r ∧
      ∀ q < leastRedundancy m fuel r, 2 ^ q < m + q + 1 := by
  induction fuel generalizing r with
  | zero => exact ⟨hfuel, hbelow⟩
  | succ fuel ih =>
    rw [leastRedundancy]
    split
    next hr => exact ⟨hr, hbelow⟩
    next hr =>
      refine ih (fun q hq => ?_) (by rwa [Nat.succ_add_eq_add_succ])
      rcases Nat.lt_succ_iff_lt_or_eq.mp hq with hlt | rfl
      · exact hbelow q hlt
      · exact Nat.lt_of_not_le hr

theorem redundancy_isLeast (m : Nat) :
    m + redundancy m + 1 ≤ 2 ^ redundancy m ∧ ∀ q < redundancy m, 2 ^ q < m + q + 1 := by
  have hpow : m < 2 ^ m := Nat.lt_two_pow_self
  exact leastRedundancy_isLeast (fun q hq => absurd hq (Nat.not_lt_zero q)) (by rw [Nat.zero_add, pow_succ]; omega)

/-- The parity positions inside the codeword are those of the indices below `r` (R110). -/
theorem two_pow_le_hamLength_iff {m k : Nat} : 2 ^ k ≤ hamLength m ↔ k < redundancy m := by
  obtain ⟨hsolves, hleast⟩ := redundancy_isLeast m
  rw [hamLength]
  refine ⟨fun hle => ?_, fun hk => ?_⟩
  · exact (Nat.pow_lt_pow_iff_right (by decide)).mp (show 2 ^ k < 2 ^ redundancy m by omega)
  · have := hleast k hk
    omega

/-! ### Parity and data positions (R110) -/

theorem isParityPosition_iff {p : Nat} : isParityPosition p = true ↔ ∃ k, 2 ^ k = p := by
  rw [isParityPosition, beq_iff_eq]
  refine ⟨fun h => ⟨p.log2, h⟩, ?_⟩
  rintro ⟨k, rfl⟩
  rw [Nat.log2_two_pow]

/-- In a codeword the listed parity positions are the powers of two. -/
theorem dataPositions_eq_filter (m : Nat) :
    dataPositions (redundancy m) (hamLength m) =
      (List.range' 1 (hamLength m)).filter (fun p => !isParityPosition p) := by
  refine List.filter_congr fun p hp => congrArg (! ·) ?_
  have hle : p ≤ hamLength m := by
    have := List.mem_range'_1.mp hp
    omega
  rw [Bool.eq_iff_iff, isParityPosition_iff, List.contains_iff_mem, List.mem_map]
  refine ⟨fun ⟨k, _, hk⟩ => ⟨k, hk⟩, ?_⟩
  rintro ⟨k, rfl⟩
  exact ⟨k, List.mem_range.mpr (two_pow_le_hamLength_iff.mp hle), rfl⟩

/-- A codeword holds each of its `r` parity positions once. -/
theorem length_parityPositions (m : Nat) :
    ((List.range' 1 (hamLength m)).filter ((List.range (redundancy m)).map (fun k => 2 ^ k)).contains).length =
      redundancy m := by
  have hinj : Function.Injective (fun k : Nat => 2 ^ k) := Nat.pow_right_injective (Nat.le_refl 2)
  have hperm : ((List.range' 1 (hamLength m)).filter
      ((List.range (redundancy m)).map (fun k => 2 ^ k)).contains).Perm
      ((List.range (redundancy m)).map (fun k => 2 ^ k)) := by
    refine (List.perm_ext_iff_of_nodup ((List.nodup_range' ..).filter _) (List.nodup_range.map hinj)).mpr fun p => ?_
    rw [List.mem_filter, List.contains_iff_mem, and_iff_right_iff_imp]
    intro hp
    obtain ⟨k, hk, rfl⟩ := List.mem_map.mp hp
    have hle := two_pow_le_hamLength_iff.mpr (List.mem_range.mp hk)
    exact List.mem_range'_1.mpr ⟨Nat.one_le_two_pow, by omega⟩
  rw [hperm.length_eq, List.length_map, List.length_range]

/-- So it has one data position for each data bit: its `m + r` positions less the `r` parity positions. -/
theorem length_dataPositions (m : Nat) : (dataPositions (redundancy m) (hamLength m)).length = m := by
  have hsplit := List.length_eq_length_filter_add (l := List.range' 1 (hamLength m))
    ((List.range (redundancy m)).map (fun k => 2 ^ k)).contains
  rw [length_parityPositions, List.length_range'] at hsplit
  exact Nat.add_left_cancel (hsplit.symm.trans (Nat.add_comm m _))

/-! ### Positions of a word (R108) -/

@[simp] theorem length_setBitAt (c : BitString) (p : Nat) (b : Bool) : (setBitAt c p b).length = c.length :=
  List.length_set

theorem bitAt_setBitAt_same {c : BitString} {p : Nat} (hpos : 1 ≤ p) (hle : p ≤ c.length) (b : Bool) :
    bitAt (setBitAt c p b) p = b := by
  have hlt : p - 1 < c.length := by omega
  simp [bitAt, setBitAt, hlt]

theorem bitAt_setBitAt_of_ne {c : BitString} {p q : Nat} (hp : 1 ≤ p) (hq : 1 ≤ q) (hne : p ≠ q) (b : Bool) :
    bitAt (setBitAt c p b) q = bitAt c q := by
  have hne' : p - 1 ≠ q - 1 := by omega
  simp [bitAt, setBitAt, List.getElem?_set_ne hne']

/-! ### The data in their positions (R110) -/

@[simp] theorem length_placeData (p n : Nat) (d : BitString) : (placeData p n d).length = n := by
  induction n generalizing p d with
  | zero => rfl
  | succ n ih => rw [placeData]; split <;> simp [ih]

/-- Read at the data positions, `placeData` gives the data back. `front` is the word before position `p`. -/
theorem map_bitAt_placeData {p n : Nat} {front d : BitString} (hfront : front.length + 1 = p)
    (hcount : ((List.range' p n).filter (fun q => !isParityPosition q)).length = d.length) :
    ((List.range' p n).filter (fun q => !isParityPosition q)).map (bitAt (front ++ placeData p n d)) = d := by
  induction n generalizing p front d with
  | zero => exact (List.eq_nil_of_length_eq_zero hcount.symm).symm
  | succ n ih =>
    rw [List.range'_succ] at hcount ⊢
    cases hp : isParityPosition p with
    | true =>
      rw [List.filter_cons_of_neg (by simp [hp])] at hcount ⊢
      rw [placeData, if_pos hp, List.append_cons]
      exact ih (by simp [hfront]) hcount
    | false =>
      rw [List.filter_cons_of_pos (by simp [hp])] at hcount ⊢
      cases d with
      | nil => cases hcount
      | cons b d =>
        have hbit : bitAt (front ++ b :: placeData (p + 1) n d) p = b := by
          simp [bitAt, ← hfront]
        rw [placeData, if_neg (by simp [hp]), List.headD_cons, List.tail_cons, List.map_cons, hbit,
          List.append_cons, ih (by simp [hfront]) (Nat.succ.inj hcount)]

/-! ### The parity bits in their positions (R112, R113) -/

theorem pos_of_mem_covered {k n p : Nat} (hp : p ∈ covered k n) : 1 ≤ p :=
  (List.mem_range'_1.mp (List.mem_of_mem_filter hp)).1

/-- No parity position is an input of a parity bit (R112). -/
theorem two_pow_notMem_solvedFrom (j k n : Nat) : 2 ^ j ∉ solvedFrom k n := by
  intro hmem
  obtain ⟨hcovered, hne⟩ := List.mem_filter.mp hmem
  have hbit : (2 ^ j).testBit k = true := (List.mem_filter.mp hcovered).2
  rw [Nat.testBit_two_pow, decide_eq_true_iff] at hbit
  simp [hbit] at hne

/-- So writing one parity bit leaves the inputs of every parity bit. -/
theorem parityInputs_setBitAt (c : BitString) (j k n : Nat) (b : Bool) :
    parityInputs (setBitAt c (2 ^ j) b) k n = parityInputs c k n := by
  refine List.map_congr_left fun p hp => bitAt_setBitAt_of_ne Nat.one_le_two_pow ?_ ?_ b
  · exact pos_of_mem_covered (List.mem_of_mem_filter hp)
  · rintro rfl
    exact two_pow_notMem_solvedFrom j k n hp

theorem codeword_solveParity_cons (n k : Nat) (ks : List Nat) (c : BitString) :
    (solveParity n (k :: ks) c).codeword =
      (solveParity n ks (setBitAt c (2 ^ k) (xorAll (parityInputs c k n)))).codeword := rfl

@[simp] theorem length_codeword_solveParity (n : Nat) (ks : List Nat) (c : BitString) :
    (solveParity n ks c).codeword.length = c.length := by
  induction ks generalizing c with
  | nil => rfl
  | cons k ks ih => rw [codeword_solveParity_cons, ih, length_setBitAt]

theorem parityInputs_solveParity (n : Nat) (ks : List Nat) (c : BitString) (k : Nat) :
    parityInputs (solveParity n ks c).codeword k n = parityInputs c k n := by
  induction ks generalizing c with
  | nil => rfl
  | cons j ks ih => rw [codeword_solveParity_cons, ih, parityInputs_setBitAt]

/-- Solving the listed indices writes their positions only. -/
theorem bitAt_solveParity_of_ne {n : Nat} {ks : List Nat} {c : BitString} {p : Nat} (hp : 1 ≤ p)
    (hne : ∀ k ∈ ks, 2 ^ k ≠ p) : bitAt (solveParity n ks c).codeword p = bitAt c p := by
  induction ks generalizing c with
  | nil => rfl
  | cons k ks ih =>
    obtain ⟨hk, hks⟩ := List.forall_mem_cons.mp hne
    rw [codeword_solveParity_cons, ih hks, bitAt_setBitAt_of_ne Nat.one_le_two_pow hp hk]

/-- Each listed index gets the XOR of its inputs, which no solving changes. -/
theorem bitAt_solveParity_two_pow {n : Nat} {ks : List Nat} {c : BitString} {k : Nat} (hk : k ∈ ks)
    (hle : 2 ^ k ≤ c.length) :
    bitAt (solveParity n ks c).codeword (2 ^ k) = xorAll (parityInputs c k n) := by
  induction ks generalizing c with
  | nil => cases hk
  | cons j ks ih =>
    rw [codeword_solveParity_cons]
    by_cases hks : k ∈ ks
    · rw [ih hks (by rwa [length_setBitAt]), parityInputs_setBitAt]
    · obtain rfl : k = j := (List.mem_cons.mp hk).resolve_right hks
      have hne : ∀ j ∈ ks, 2 ^ j ≠ 2 ^ k := fun j hj heq =>
        hks (Nat.pow_right_injective (Nat.le_refl 2) heq ▸ hj)
      rw [bitAt_solveParity_of_ne Nat.one_le_two_pow hne, bitAt_setBitAt_same Nat.one_le_two_pow hle]

/-- A record depends on its parity bit's inputs alone. -/
theorem hamParityRecord_congr {c e : BitString} {k n : Nat} (h : parityInputs c k n = parityInputs e k n) :
    hamParityRecord c k n = hamParityRecord e k n := by
  rw [hamParityRecord, h]
  rfl

/-- The records, though made on the way, show the finished codeword (R115). -/
theorem recs_solveParity (n : Nat) (ks : List Nat) (c : BitString) :
    (solveParity n ks c).recs = ks.map (fun k => hamParityRecord (solveParity n ks c).codeword k n) := by
  induction ks generalizing c with
  | nil => rfl
  | cons k ks ih =>
    rw [List.map_cons, hamParityRecord_congr (parityInputs_solveParity n (k :: ks) c k), codeword_solveParity_cons,
      ← ih]
    rfl

/-! ### The codeword of the encoder (R113, R115) -/

theorem length_hamEncode (d : BitString) : (hamEncode d).codeword.length = hamLength d.length := by
  rw [hamEncode, length_codeword_solveParity, length_placeData]

theorem recs_hamEncode (d : BitString) :
    (hamEncode d).recs = (List.range (redundancy d.length)).map
      (fun k => hamParityRecord (hamEncode d).codeword k (hamLength d.length)) := by
  rw [hamEncode, recs_solveParity]

/-- Each parity bit of the codeword is the XOR of the bits it covers. -/
theorem bitAt_hamEncode_two_pow {d : BitString} {k : Nat} (hk : k < redundancy d.length) :
    bitAt (hamEncode d).codeword (2 ^ k) =
      xorAll (parityInputs (hamEncode d).codeword k (hamLength d.length)) := by
  have hle : 2 ^ k ≤ (placeData 1 (hamLength d.length) d).length := by
    rw [length_placeData]
    exact two_pow_le_hamLength_iff.mpr hk
  rw [hamEncode, bitAt_solveParity_two_pow (List.mem_range.mpr hk) hle, parityInputs_solveParity]

/-- The data positions of the codeword hold the data in order. -/
theorem map_bitAt_hamEncode (d : BitString) :
    (dataPositions (redundancy d.length) (hamLength d.length)).map (bitAt (hamEncode d).codeword) = d := by
  have hcount := length_dataPositions d.length
  rw [dataPositions_eq_filter] at hcount ⊢
  calc
    _ = ((List.range' 1 (hamLength d.length)).filter (fun p => !isParityPosition p)).map
          (bitAt (placeData 1 (hamLength d.length) d)) := by
      refine List.map_congr_left fun p hp => ?_
      obtain ⟨hrange, hdata⟩ := List.mem_filter.mp hp
      refine bitAt_solveParity_of_ne (List.mem_range'_1.mp hrange).1 fun k _ hk => ?_
      simp [isParityPosition_iff.mpr ⟨k, hk⟩] at hdata
    _ = d := map_bitAt_placeData (front := []) rfl hcount

theorem pposOf_eq_ofFn (r : Nat) :
    pposOf r = Vector.ofFn (fun k : Fin 16 => if k.val < r then BitVec.ofNat 32 (2 ^ k.val) else 0#32) := by
  ext k hk
  simp [pposOf]

/-! ### The syndrome (R116) -/

/-- A predicate that, down a list, never turns from false to true holds of the members `takeWhile` keeps and of no
others. -/
theorem mem_takeWhile_iff_of_pairwise {α : Type} {p : α → Bool} {l : List α}
    (hdown : l.Pairwise (fun a b => p b = true → p a = true)) {x : α} :
    x ∈ l.takeWhile p ↔ x ∈ l ∧ p x = true := by
  induction l with
  | nil => simp
  | cons a l ih =>
    obtain ⟨ha, hl⟩ := List.pairwise_cons.mp hdown
    cases hpa : p a with
    | true =>
      have hhead : x = a ∧ p x = true ↔ x = a := and_iff_left_of_imp fun h => h ▸ hpa
      rw [List.takeWhile_cons_of_pos hpa, List.mem_cons, List.mem_cons, ih hl, or_and_right, hhead]
    | false =>
      rw [List.takeWhile_cons_of_neg (by simp [hpa])]
      refine iff_of_false List.not_mem_nil fun ⟨hx, hpx⟩ => ?_
      have htrue : p a = true := (List.mem_cons.mp hx).elim (fun h => h ▸ hpx) (fun h => ha x h hpx)
      cases hpa.symm.trans htrue

/-- The checks made are those whose parity position lies in the word. -/
theorem mem_checkIndices_iff {n k : Nat} : k ∈ checkIndices n ↔ 2 ^ k ≤ n := by
  have hdown : (List.range n).Pairwise
      (fun a b => decide (2 ^ b ≤ n) = true → decide (2 ^ a ≤ n) = true) := by
    refine List.pairwise_lt_range.imp fun hab => ?_
    rw [decide_eq_true_iff, decide_eq_true_iff]
    exact (Nat.pow_le_pow_right (by decide) (Nat.le_of_lt hab)).trans
  rw [checkIndices, mem_takeWhile_iff_of_pairwise hdown, decide_eq_true_iff, List.mem_range, and_iff_right_iff_imp]
  exact Nat.lt_two_pow_self.trans_le

theorem checkIndices_sortedLT (n : Nat) : (checkIndices n).SortedLT :=
  (List.pairwise_lt_range.sublist (List.takeWhile_sublist _)).sortedLT

theorem syndromeOver_eq_sum (c : BitString) (ks : List Nat) :
    syndromeOver c ks = ((ks.filter (checkFails c)).map (fun k => 2 ^ k)).sum := by
  induction ks with
  | nil => rfl
  | cons k ks ih => cases hk : checkFails c k <;> simp [syndromeOver, hk, ih]

/-- The syndrome is a sum of different powers of two, so its bits are the failing checks. -/
theorem testBit_syndrome (c : BitString) (k : Nat) :
    (syndrome c).testBit k = (decide (2 ^ k ≤ c.length) && checkFails c k) := by
  have hsorted : ((checkIndices c.length).filter (checkFails c)).SortedLT :=
    ((checkIndices_sortedLT c.length).pairwise.filter _).sortedLT
  rw [Bool.eq_iff_iff, ← Nat.mem_bitIndices, syndrome, syndromeOver_eq_sum,
    Nat.bitIndices_sum_map_two_pow hsorted, List.mem_filter, mem_checkIndices_iff, Bool.and_eq_true, decide_eq_true_iff]

theorem checkFails_eq_decide (c : BitString) (k : Nat) :
    checkFails c k = decide (((coveredBy k c.length).map (posBit c)).count true % 2 = 1) := by
  rw [coveredBy_eq_covered, ← xorAll_eq_decide]
  rfl

theorem hamCorrect_eq (c : BitString) (syn : Nat) :
    hamCorrect c syn = if 1 ≤ syn ∧ syn ≤ c.length then c.set (syn - 1) (!(posBit c syn)) else c := by
  cases syn with
  | zero => rfl
  | succ j => simp [hamCorrect, setBitAt, posBit_eq_bitAt]

/-! ### The Hamming unit (R113, R116) -/

theorem exec_hamEnc (s : State) :
    exec .hamEnc s = finish ((readOpd s 0).bind fun d => .ok (hamEncResult d)) s := rfl

theorem exec_hamVer (s : State) :
    exec .hamVer s = finish ((readOpd s 0).bind fun c => .ok (hamVerResult c)) s := rfl

/-- The record of a codeword's parity bit, in the words of the claim (R115). -/
theorem hamParityRecord_hamEncode {d : BitString} {k : Nat} (hk : k < redundancy d.length) :
    hamParityRecord (hamEncode d).codeword k (hamLength d.length) =
      { kind := .hamParity, n0 := BitVec.ofNat 32 k, n1 := BitVec.ofNat 32 (2 ^ k)
        n2 := BitVec.ofNat 32 (posBit (hamEncode d).codeword (2 ^ k)).toNat
        s0 := ((coveredBy k (hamLength d.length)).filter (fun p => p != 2 ^ k)).map
          (posBit (hamEncode d).codeword)
        s1 := [], s2 := []
        pos := (coveredBy k (hamLength d.length)).map (BitVec.ofNat 16) } := by
  rw [posBit_eq_bitAt, bitAt_hamEncode_two_pow hk, map_posBit_coveredBy_ne, coveredBy_eq_covered]
  rfl

/-- Settles O22: the parity bits' positions are no inputs of one another, so each keeps the XOR it was given. -/
theorem hamEncBuildsTheCodeword : Obligations.HamEncBuildsTheCodeword := by
  refine ⟨rfl, fun s => ⟨fun d hd => ?_, fun stop hstop => ?_⟩⟩
  · obtain ⟨hsolves, hleast⟩ := redundancy_isLeast d.length
    obtain ⟨t, hnext, hcommitted⟩ := finish_readOpd_of_holds hd hamEncResult
    rw [hamEncResult, pposOf_eq_ofFn, recs_hamEncode,
      List.map_congr_left fun k hk => hamParityRecord_hamEncode (List.mem_range.mp hk)] at hcommitted
    refine ⟨redundancy d.length, (hamEncode d).codeword, t, hnext, hsolves, hleast, length_hamEncode d,
      map_bitAt_hamEncode d, fun k hk => ?_, hcommitted⟩
    rw [posBit_eq_bitAt, bitAt_hamEncode_two_pow hk, toNat_xorAll, ← map_posBit_coveredBy_ne]
    rfl
  · rw [exec_hamEnc]
    exact stopsAs_finish_readOpd hstop _

/-- Settles O23: the syndrome has bit `k` exactly when check `k` fails, and the verdict follows from it. -/
theorem hamVerCorrectsTheNamedPosition : Obligations.HamVerCorrectsTheNamedPosition := by
  refine ⟨rfl, fun s => ⟨fun c hc => ?_, fun stop hstop => ?_⟩⟩
  · obtain ⟨t, hnext, hcommitted⟩ := finish_readOpd_of_holds hc hamVerResult
    rw [hamVerResult, hamCorrect_eq] at hcommitted
    refine ⟨syndrome c, t, hnext, fun k => ?_, hcommitted⟩
    rw [testBit_syndrome, checkFails_eq_decide]
  · rw [exec_hamVer]
    exact stopsAs_finish_readOpd hstop _

end Sys2Proof.Proofs

namespace Sys2Proof.Proofs

open Sys2Proof.Machine Sys2Proof.Claims

/-! ### Accesses while a command is in flight (70_reset_and_hazards.md R145) -/

/-- The operand registers' offsets name them, four bytes each (10_state.md R21). -/
theorem regAt_opd {off : Nat} (hge : 0x100 ≤ off) (hlt : off < 0x200) :
    regAt off = some (.opd ⟨(off - 0x100) / 4, by omega⟩) := by
  have hnotPpos : ¬ (0x040 ≤ off ∧ off < 0x080) := by omega
  rw [regAt, dif_neg hnotPpos, dif_pos ⟨hge, hlt⟩]

/-- A register access that is no bus error is an aligned 4-byte access (20_memory.md R45). -/
theorem aligned_of_not_badAccess {off : Nat} {n : Width} {kind : AccessKind} (hlt : off < 0x300)
    (hgood : ¬ BadAccess off n.bytes kind) : n = .w4 ∧ off % 4 = 0 := by
  have hwide : n.bytes = 4 ∧ off % 4 = 0 := by
    by_contra hbad
    exact hgood (.inl ⟨hlt, by omega⟩)
  cases n with
  | w1 => exact absurd hwide.1 (by decide)
  | w2 => exact absurd hwide.1 (by decide)
  | w4 => exact ⟨rfl, hwide.2⟩

/-- A register access that is no bus error reaches the register of its offset. -/
theorem targetAt_reg_of_not_badAccess {off : Nat} {n : Width} {kind : AccessKind} {r : Reg}
    (hlt : off < 0x300) (hgood : ¬ BadAccess off n.bytes kind) (hr : regAt off = some r) :
    targetAt off n = some (.reg r) := by
  obtain ⟨rfl, halign⟩ := aligned_of_not_badAccess hlt hgood
  exact targetAt_reg halign hlt hr

/-- An `IBUF` access that is no bus error is naturally aligned, so it reaches `IBUF` (R45). -/
theorem targetAt_ibuf_of_not_badAccess {off : Nat} {n : Width} {kind : AccessKind}
    (hge : 0x2000 ≤ off) (hlt : off < 0x3000) (hgood : ¬ BadAccess off n.bytes kind) :
    targetAt off n = some (.buffer .ibuf) := by
  refine targetAt_buffer ?_ (by omega) (findBuffer_ibuf hge hlt)
  by_contra hbad
  exact hgood (.inr (.inl ⟨.inr ⟨hge, by omega⟩, hbad⟩))

/-- An operand state offset names operand state, which the host may write while no command is in flight. -/
theorem targetAt_operandOffset {off : Nat} {n : Width} (hoperand : OperandOffset off)
    (hgood : ¬ BadAccess off n.bytes .write) :
    ∃ t, targetAt off n = some t ∧ t.writable = true ∧ t.isOperand = true := by
  rcases hoperand with ⟨hge, hlt⟩ | ⟨hge, hlt⟩ | rfl | rfl
  · exact ⟨.buffer .ibuf, targetAt_ibuf_of_not_badAccess hge hlt hgood, rfl, rfl⟩
  · exact ⟨.reg _, targetAt_reg_of_not_badAccess (by omega) hgood (regAt_opd hge hlt), rfl, rfl⟩
  · exact ⟨.reg .aux, targetAt_reg_of_not_badAccess (by decide) hgood rfl, rfl, rfl⟩
  · exact ⟨.reg .blksz, targetAt_reg_of_not_badAccess (by decide) hgood rfl, rfl, rfl⟩

/-- A write of operand state while a command is in flight is the fault `HAZARD`. -/
theorem hostWrite_hazard {s : State} {off : BitVec 16} {n : Width} {t : Target} (v : Word)
    (hbusy : s.status.busy = true) (ht : targetAt off.toNat n = some t) (hw : t.writable = true)
    (hoperand : t.isOperand = true) : hostWrite off n v s = .fault .hazard := by
  rw [hostWrite, checkAccess_write ht hw]
  exact if_pos ⟨hbusy, hoperand⟩

/-- A busy core drops a word written to `CMD` and sets `OVR` (60_exceptions.md R120). -/
theorem hostWrite_cmd_busy (w : Word) {s : State} (hbusy : s.status.busy = true) :
    hostWrite 0x008#16 .w4 w s =
      .next { s with status := { s.status with ovr := true }, response := none } := by
  have hwrite := hostWrite_reg (s := s) (off := 0x008) (r := .cmd) w rfl (by decide) rfl rfl (.inr rfl)
  rw [hwrite, writeReg_cmd, issueCommand_busy w s hbusy]
  rfl

/-- A write of `TIDX` sets it to the low 16 bits, busy or not (10_state.md R28). -/
theorem hostWrite_tidx (v : Word) (s : State) :
    hostWrite 0x018#16 .w4 v s = .next { s with tidx := BitVec.ofNat 16 v.toNat, response := none } := by
  have hwrite := hostWrite_reg (s := s) (off := 0x018) (r := .tidx) v rfl (by decide) rfl rfl (.inr rfl)
  rw [hwrite, writeReg_tidx, BitVec.ofNat_toNat]

/-- The value of buffer bytes is their sum, byte `j` weighing `2 ^ (8 * j)` (20_memory.md R46). -/
theorem bufferValue_eq_sum {s : State} {b : Buffer} {n off : Nat} {x : Nat → Byte}
    (hbytes : ∀ j < n, bufferByte s (off + j) b = some (x j)) :
    bufferValue s b off n = some ((List.range n).map fun j => (x j).toNat * 2 ^ (8 * j)).sum := by
  induction n generalizing off x with
  | zero => rfl
  | succ n ih =>
    have hlow : bufferByte s off b = some (x 0) := hbytes 0 (Nat.succ_pos n)
    have hrest := ih (off := off + 1) (x := fun j => x (j + 1)) fun j hj => by
      rw [Nat.add_right_comm]
      exact hbytes (j + 1) (Nat.succ_lt_succ hj)
    have hweight : ∀ j, (x (j + 1)).toNat * 2 ^ (8 * (j + 1)) = 256 * ((x (j + 1)).toNat * 2 ^ (8 * j)) :=
      fun j => by ring
    rw [bufferValue, hlow, hrest, List.range_succ_eq_map, List.map_cons, List.map_map, List.sum_cons]
    simp only [Function.comp_def, Nat.succ_eq_add_one, hweight, List.sum_map_mul_left, Nat.mul_zero,
      Nat.pow_zero, Nat.mul_one]

/-- An aligned `IBUF` read of written bytes answers them little-endian, busy or not (R46). -/
theorem readsAs_ibuf {s : State} {off : BitVec 16} {n : Width} {x : Nat → Byte}
    (hge : 0x2000 ≤ off.toNat) (hlt : off.toNat < 0x3000) (halign : off.toNat % n.bytes = 0)
    (hbytes : ∀ j < n.bytes, Memory.read s.mem (off.toNat + j) = some (x j)) :
    ReadsAs s off n (littleEndian x n.bytes) := by
  have hvalue : bufferValue s .ibuf off.toNat n.bytes = some _ := bufferValue_eq_sum hbytes
  have hread := readsAs_buffer (.inr rfl) halign (by omega) off.isLt (findBuffer_ibuf hge hlt) hvalue
  rwa [BitVec.ofNat_toNat, BitVec.setWidth_eq] at hread

/-- An operand register reads as its descriptor, busy or not (10_state.md R34). -/
theorem readsAs_opd (s : State) (i : Fin 64) :
    ReadsAs s (BitVec.ofNat 16 (0x100 + 4 * i.val)) .w4 s.opd[i] := by
  have hindex : (0x100 + 4 * i.val - 0x100) / 4 = i.val := by omega
  have hreg : regAt (0x100 + 4 * i.val) = some (.opd i) := by
    rw [regAt_opd (by omega) (by omega)]
    exact congrArg (fun k => some (Reg.opd k)) (Fin.ext hindex)
  exact readsAs_reg (by omega) (by omega) hreg (.inr rfl)

/-- The registers that are no result state and no `OPD` read as their values, busy or not. -/
theorem exactRegs_read (s : State) :
    ReadsAs s 0x010#16 .w4 s.aux ∧ ReadsAs s 0x014#16 .w4 (BitVec.ofNat 32 s.blksz.toNat) ∧
    ReadsAs s 0x018#16 .w4 (BitVec.ofNat 32 s.tidx.toNat) ∧ ReadsAs s 0x008#16 .w4 s.cmd ∧
    ReadsAs s 0x00C#16 .w4 s.status.word ∧
    ReadsAs s 0x000#16 .w4 0x45444331#32 ∧ ReadsAs s 0x004#16 .w4 0x00000001#32 := by
  have hread : ∀ (off : Nat) (r : Reg), off % 4 = 0 → off < 0x300 → regAt off = some r →
      r.isResult = false → ReadsAs s (BitVec.ofNat 16 off) .w4 (r.value s) :=
    fun _ _ halign hlt hr hexact => readsAs_reg halign hlt hr (.inr hexact)
  rw [BitVec.ofNat_toNat, BitVec.ofNat_toNat]
  exact ⟨hread 0x010 .aux rfl (by decide) rfl rfl, hread 0x014 .blksz rfl (by decide) rfl rfl,
    hread 0x018 .tidx rfl (by decide) rfl rfl, hread 0x008 .cmd rfl (by decide) rfl rfl,
    hread 0x00C .status rfl (by decide) rfl rfl, hread 0x000 .id rfl (by decide) rfl rfl,
    hread 0x004 .version rfl (by decide) rfl rfl⟩

/-- Bit 0 of `STATUS` is `BUSY` (10_state.md R24). -/
theorem getLsbD_zero_statusWord (st : Status) : st.word.getLsbD 0 = st.busy := by
  have hbit := Bool.toNat_le st.busy
  rw [Status.word, BitVec.getLsbD_ofNat, Nat.testBit_zero, Bool.eq_iff_iff, ← Bool.toNat_eq_one (b := st.busy),
    Bool.and_eq_true, decide_eq_true_iff, decide_eq_true_iff]
  omega

/-- Settles O38: an operand write that passes the checks is stopped by the in-flight command; every other place the
rule names is neither operand nor result state, so its write has its effect and its read is exact. -/
theorem busyHazardsOnOperandWrites : Obligations.BusyHazardsOnOperandWrites := by
  intro s hbusy
  obtain ⟨haux, hblksz, htidx, hcmd, hstatus, hid, hversion⟩ := exactRegs_read s
  refine ⟨fun off n v hoperand hgood => ?_,
    fun v => ⟨hostWrite_cmd_busy v hbusy, statusWriteClearsOverrunOnly s v, hostWrite_tidx v s⟩,
    fun off n x hge hlt halign hbytes => readsAs_ibuf hge hlt halign hbytes, readsAs_opd s,
    haux, hblksz, htidx, hcmd, hstatus, ?_, hid, hversion⟩
  · obtain ⟨t, ht, hw, hop⟩ := targetAt_operandOffset hoperand hgood
    exact hostWrite_hazard v hbusy ht hw hop
  · rw [getLsbD_zero_statusWord, hbusy]

end Sys2Proof.Proofs

namespace Sys2Proof.Proofs

open Sys2Proof.Machine Sys2Proof.Claims

/-! ### Encoding against decoding (30_encoding.md R58, R62) -/

/-- The word of a unit's command: a field the unit does not take stands at its one legal value. -/
theorem encode_selectInstr (u : CodecUnit) (verify even : Bool) (n : Nat) :
    encode (selectInstr u verify even n) =
      encodeFields u verify (!u.evenReserved && even) (if u = .lrc then n else 1) := by
  cases u <;> cases verify <;> rfl

theorem wellFormed_selectInstr {u : CodecUnit} {verify even : Bool} {n : Nat} (hn : u = .lrc → n ≤ 64) :
    WellFormed (selectInstr u verify even n) = true := by
  cases u with
  | lrc => cases verify <;> exact decide_eq_true (hn rfl)
  | vrc => cases verify <;> rfl
  | crc => cases verify <;> rfl
  | csum => cases verify <;> rfl
  | ham => cases verify <;> rfl

theorem toNat_beq_one (a : Nat) : (a % 2 == 1).toNat = a % 2 := by
  rcases Nat.mod_two_eq_zero_or_one a with h | h <;> rw [h] <;> rfl

/-- Read off a word of a row, the row's fields encode to that word. -/
theorem encodeFields_of_inRow {w : Word} {u : CodecUnit} {verify : Bool} (h : InRow w u verify) :
    encodeFields u verify (!u.evenReserved && w.toNat / 16 % 2 == 1)
      (if u = .lrc then w.toNat / 256 % 128 else 1) = w := by
  have heven : (!u.evenReserved && w.toNat / 16 % 2 == 1) = (w.toNat / 16 % 2 == 1) := by
    cases hu : u.evenReserved with
    | false => rfl
    | true => exact (beq_eq_false_iff_ne.mpr (h.even hu)).symm
  have hnopd : (if u = .lrc then w.toNat / 256 % 128 else 1) = w.toNat / 256 % 128 := by
    split
    next => rfl
    next hu => exact (h.nopd hu).symm
  have hfields := toNat_eq_fields w
  have hreserved := h.reserved
  rw [heven, hnopd, ← BitVec.toNat_inj, toNat_encodeFields _ _ _ (by omega), ← h.unit, ← h.dir,
    toNat_beq_one, toNat_beq_one]
  omega

/-- Settles O8: each command's fields are ones its unit admits, and those are read back from their word. -/
theorem decodeOfEncode : Obligations.DecodeOfEncode :=
  fun _ => decode_encode

/-- Settles O9: a word that decodes lies in a row, and the row's fields read off it make up the whole word. -/
theorem encodeOfDecode : Obligations.EncodeOfDecode := by
  intro w i h
  obtain ⟨u, verify, hrow, hlrc, rfl⟩ := decode_eq_ok_iff.mp h
  exact ⟨wellFormed_selectInstr hlrc, (encode_selectInstr ..).trans (encodeFields_of_inRow hrow)⟩

/-- Settles O5: the ten words are evaluated. -/
theorem sampleWordsDecode : Obligations.SampleWordsDecode := by
  unfold Obligations.SampleWordsDecode
  decide

end Sys2Proof.Proofs

namespace Sys2Proof.Proofs

open Sys2Proof.Machine Sys2Proof.Claims

/-! ### `Execute` apart from the completion (60_exceptions.md R121, R122)

Every completion is `finish` of the outcome of `Execute`. The ten commands have four shapes. -/

/-- A command whose only phase is the fetch of `OPD[0]`: VRC and HAM (30_encoding.md R65). -/
def executeOne (result : BitString → Result) (s : State) : Execute Result :=
  (readOpd s 0).bind fun d => .ok (result d)

/-- The phases of an LRC command: the count, the blocks, the received LRC where there is one, the dimension checks
(42_lrc.md R81). -/
def executeLrc {α : Type} (received : State → Execute α) (result : List BitString → α → Result) (k : Nat)
    (s : State) : Execute Result :=
  if 64 < k then raiseIllegalCommand .badNopd
  else
    (readBlocks s 0 k).bind fun bs =>
      (received s).bind fun r => (lrcDimensions bs).bind fun _ => .ok (result bs r)

/-- The phases of a CRC command: the unit, the divisor, the divisor's checks, the command's own work (43_crc.md
R87). -/
def executeCrc (rest : BitString → BitString → Execute Result) (s : State) : Execute Result :=
  (readOpd s 0).bind fun x => (readAux s).bind fun g => (crcDivisorChecks g).bind fun _ => rest x g

/-- The phases of a CSUM command: the data, the checks of the block size (44_checksum.md R97). -/
def executeCsum (result : BitString → Nat → Result) (s : State) : Execute Result :=
  (readOpd s 0).bind fun d => (csumChecks d s.blksz.toNat).bind fun _ => .ok (result d s.blksz.toNat)

/-- The outcome of `Execute` on a legal command (R122). -/
def execute (i : Instr) : State → Execute Result :=
  match i with
  | .vrcEnc even => executeOne (vrcEncResult even)
  | .vrcVer even => executeOne (vrcVerResult even)
  | .lrcEnc even k => executeLrc (fun _ => .ok ()) (fun bs _ => lrcEncResult even bs) k
  | .lrcVer even k => executeLrc readAux (lrcVerResult even) k
  | .crcEnc => executeCrc encodeCrc
  | .crcVer => executeCrc verifyCrc
  | .csumEnc => executeCsum csumEncResult
  | .csumVer => executeCsum csumVerResult
  | .hamEnc => executeOne hamEncResult
  | .hamVer => executeOne hamVerResult

theorem exec_eq_finish (i : Instr) (s : State) : exec i s = finish (execute i s) s := by
  cases i <;> rfl

/-- The outcome of `Execute` on the word in `CMD`, legal or not (R122). -/
def executeWord (s : State) : Execute Result :=
  match decode s.cmd with
  | .error c => raiseIllegalCommand (causeOfIllegal c)
  | .ok i => execute i s

theorem executeWord_legal {s : State} {i : Instr} (h : decode s.cmd = .ok i) : executeWord s = execute i s := by
  rw [executeWord, h]

theorem executeWord_illegal {s : State} {c : IllegalCause} (h : decode s.cmd = .error c) :
    executeWord s = raiseIllegalCommand (causeOfIllegal c) := by
  rw [executeWord, h]

theorem completeCommand_eq_finish (s : State) : completeCommand s = finish (executeWord s) s := by
  cases h : decode s.cmd with
  | error c => rw [executeWord_illegal h, completeCommand_illegal s c h]; rfl
  | ok i => rw [executeWord_legal h, completeCommand_legal s i h, exec_eq_finish]

/-! ### What a command can produce (R121) -/

/-- The length of a string that an operand fetch gives (40_bitstring.md R71). -/
def LegalLength (x : BitString) : Prop := 1 ≤ x.length ∧ x.length ≤ 512

/-- The results each command can commit, over operands that its checks pass. -/
inductive Produces : Instr → Result → Prop
  | vrcEnc {even : Bool} {d : BitString} (hd : LegalLength d) : Produces (.vrcEnc even) (vrcEncResult even d)
  | vrcVer {even : Bool} {rcv : BitString} : Produces (.vrcVer even) (vrcVerResult even rcv)
  | lrcEnc {even : Bool} {k : Nat} {bs : List BitString} (hbs : ∀ b ∈ bs, LegalLength b) :
      Produces (.lrcEnc even k) (lrcEncResult even bs)
  | lrcVer {even : Bool} {k : Nat} {bs : List BitString} {rl : BitString} (hbs : ∀ b ∈ bs, LegalLength b) :
      Produces (.lrcVer even k) (lrcVerResult even bs rl)
  | crcEnc {d g : BitString} (hd : LegalLength d) (hg : LegalLength g) :
      Produces .crcEnc (crcEncResult d (longDivision (d ++ zeros (g.length - 1)) g))
  | crcVer {cw g : BitString} (hcw : LegalLength cw) (hg : LegalLength g) (hle : g.length ≤ cw.length) :
      Produces .crcVer (crcVerResult g (longDivision cw g))
  | csumEnc {d : BitString} {k : Nat} (hd : LegalLength d) (hk : 1 ≤ k) (hdvd : d.length % k = 0) :
      Produces .csumEnc (csumEncResult d k)
  | csumVer {d : BitString} {k : Nat} (hd : LegalLength d) (hk : 1 ≤ k) (hdvd : d.length % k = 0) :
      Produces .csumVer (csumVerResult d k)
  | hamEnc {d : BitString} (hd : LegalLength d) : Produces .hamEnc (hamEncResult d)
  | hamVer {c : BitString} (hc : LegalLength c) : Produces .hamVer (hamVerResult c)

theorem legalLength_of_holdsOperand {s : State} {d : Word} {x : BitString} (h : HoldsOperand s d x) :
    LegalLength x := by
  obtain ⟨hlen, hpos, hmax, -⟩ := h
  exact ⟨hlen ▸ hpos, hlen ▸ hmax⟩

theorem legalLength_of_readOperand {s : State} {field : ErrField} {idx : Nat} {d : Word} {x : BitString}
    (h : readOperand s field idx d = .ok x) : LegalLength x :=
  legalLength_of_holdsOperand (readOperand_eq_ok_iff.mp h)

theorem legalLength_of_readBlocks {s : State} {i n : Nat} {bs : List BitString}
    (h : readBlocks s i n = .ok bs) : ∀ b ∈ bs, LegalLength b := by
  obtain ⟨hlen, hall⟩ := (readBlocks_eq_ok s i n bs).mp h
  intro b hb
  obtain ⟨j, hj, rfl⟩ := List.mem_iff_getElem.mp hb
  have hread := hall j (hlen ▸ hj)
  rw [List.getD_eq_getElem bs [] hj] at hread
  exact legalLength_of_readOperand hread

/-- A block size that passes its checks is not 0 and divides the length of the data (44_checksum.md R97). -/
theorem of_csumChecks_eq_ok {d : BitString} {k : Nat} {u : Unit} (h : csumChecks d k = .ok u) :
    1 ≤ k ∧ d.length % k = 0 := by
  by_cases hk : k = 0
  · rw [csumChecks_of_zero hk] at h
    cases h
  · by_cases hdvd : d.length % k = 0
    · exact ⟨Nat.one_le_iff_ne_zero.mpr hk, hdvd⟩
    · rw [csumChecks_of_notMultiple hk hdvd] at h
      cases h

section Shapes
/-! What a result of each shape is made of. -/

variable {s : State} {r : Result}

theorem of_executeOne_eq_ok {result : BitString → Result} (h : executeOne result s = .ok r) :
    ∃ d, LegalLength d ∧ result d = r := by
  obtain ⟨d, hd, hr⟩ := (execute_bind_eq_ok _ _ _).mp h
  exact ⟨d, legalLength_of_readOperand hd, Except.ok.inj hr⟩

theorem of_executeLrc_eq_ok {α : Type} {received : State → Execute α} {result : List BitString → α → Result}
    {k : Nat} (h : executeLrc received result k s = .ok r) :
    ∃ bs x, (∀ b ∈ bs, LegalLength b) ∧ result bs x = r := by
  rw [executeLrc] at h
  split at h
  next => cases h
  next =>
    obtain ⟨bs, hbs, h⟩ := (execute_bind_eq_ok _ _ _).mp h
    obtain ⟨x, -, h⟩ := (execute_bind_eq_ok _ _ _).mp h
    obtain ⟨-, -, hr⟩ := (execute_bind_eq_ok _ _ _).mp h
    exact ⟨bs, x, legalLength_of_readBlocks hbs, Except.ok.inj hr⟩

theorem of_executeCrc_eq_ok {rest : BitString → BitString → Execute Result} (h : executeCrc rest s = .ok r) :
    ∃ x g, LegalLength x ∧ LegalLength g ∧ rest x g = .ok r := by
  obtain ⟨x, hx, h⟩ := (execute_bind_eq_ok _ _ _).mp h
  obtain ⟨g, hg, h⟩ := (execute_bind_eq_ok _ _ _).mp h
  obtain ⟨-, -, hr⟩ := (execute_bind_eq_ok _ _ _).mp h
  exact ⟨x, g, legalLength_of_readOperand hx, legalLength_of_readOperand hg, hr⟩

theorem of_executeCsum_eq_ok {result : BitString → Nat → Result} (h : executeCsum result s = .ok r) :
    ∃ d k, LegalLength d ∧ 1 ≤ k ∧ d.length % k = 0 ∧ result d k = r := by
  obtain ⟨d, hd, h⟩ := (execute_bind_eq_ok _ _ _).mp h
  obtain ⟨_, hcheck, hr⟩ := (execute_bind_eq_ok _ _ _).mp h
  obtain ⟨hk, hdvd⟩ := of_csumChecks_eq_ok hcheck
  exact ⟨d, _, legalLength_of_readOperand hd, hk, hdvd, Except.ok.inj hr⟩

end Shapes

/-- The encoder's division is of data long enough for its divisor. -/
theorem encodeCrc_of_legal {d g : BitString} (hd : LegalLength d) (hg : LegalLength g) :
    encodeCrc d g = .ok (crcEncResult d (longDivision (d ++ zeros (g.length - 1)) g)) := by
  obtain ⟨hpos, -⟩ := hd
  refine encodeCrc_eq_ok hg.1 ?_
  rw [length_augmented]
  omega

/-- The verifier divides a codeword no shorter than the divisor, or reports it (43_crc.md R87). -/
theorem of_verifyCrc_eq_ok {cw g : BitString} {r : Result} (hg : LegalLength g) (h : verifyCrc cw g = .ok r) :
    g.length ≤ cw.length ∧ crcVerResult g (longDivision cw g) = r := by
  by_cases hle : g.length ≤ cw.length
  · rw [verifyCrc_eq_ok hg.1 hle] at h
    exact ⟨hle, Except.ok.inj h⟩
  · rw [verifyCrc_of_short (Nat.lt_of_not_le hle)] at h
    cases h

/-- A command that gives a result gives one of its own, over operands that its checks passed. -/
theorem execute_produces {i : Instr} {s : State} {r : Result} (h : execute i s = .ok r) : Produces i r := by
  cases i with
  | vrcEnc even =>
    obtain ⟨d, hd, rfl⟩ := of_executeOne_eq_ok h
    exact .vrcEnc hd
  | vrcVer even =>
    obtain ⟨rcv, -, rfl⟩ := of_executeOne_eq_ok h
    exact .vrcVer
  | lrcEnc even k =>
    obtain ⟨bs, -, hbs, rfl⟩ := of_executeLrc_eq_ok (received := fun _ => .ok ()) h
    exact .lrcEnc hbs
  | lrcVer even k =>
    obtain ⟨bs, rl, hbs, rfl⟩ := of_executeLrc_eq_ok h
    exact .lrcVer hbs
  | crcEnc =>
    obtain ⟨d, g, hd, hg, hr⟩ := of_executeCrc_eq_ok h
    obtain rfl := Except.ok.inj ((encodeCrc_of_legal hd hg).symm.trans hr)
    exact .crcEnc hd hg
  | crcVer =>
    obtain ⟨cw, g, hcw, hg, hr⟩ := of_executeCrc_eq_ok h
    obtain ⟨hle, rfl⟩ := of_verifyCrc_eq_ok hg hr
    exact .crcVer hcw hg hle
  | csumEnc =>
    obtain ⟨d, k, hd, hk, hdvd, rfl⟩ := of_executeCsum_eq_ok h
    exact .csumEnc hd hk hdvd
  | csumVer =>
    obtain ⟨d, k, hd, hk, hdvd, rfl⟩ := of_executeCsum_eq_ok h
    exact .csumVer hd hk hdvd
  | hamEnc =>
    obtain ⟨d, hd, rfl⟩ := of_executeOne_eq_ok h
    exact .hamEnc hd
  | hamVer =>
    obtain ⟨c, hc, rfl⟩ := of_executeOne_eq_ok h
    exact .hamVer hc

/-! ### How `Execute` can stop (60_exceptions.md R124, R129) -/

/-- The two places an operand's descriptor stands in, as a report names them (R124). -/
def OperandPlace (field : ErrField) (idx : Nat) : Prop := (field = .opd ∧ idx < 64) ∨ (field = .aux ∧ idx = 0)

/-- The table of R124: which kind, field and index come with a cause. -/
inductive InCauseTable : ErrReport → Prop
  | operand {field : ErrField} {idx : Nat} {cause : Cause} (hplace : OperandPlace field idx)
      (hcause : cause ∈ [Cause.empty, .tooLong, .outOfBounds, .nonBinary]) :
      InCauseTable ⟨.invalidInput, field, idx, cause⟩
  | divisor {cause : Cause} (hcause : cause ∈ [Cause.divShort, .divLead0]) :
      InCauseTable ⟨.invalidInput, .aux, 0, cause⟩
  | blockSize : InCauseTable ⟨.invalidInput, .blksz, 0, .zeroBlksz⟩
  | dimension {cause : Cause} (hcause : cause ∈ [Cause.noBlocks, .notMultiple, .cwShort]) :
      InCauseTable ⟨.dimensionMismatch, .opd, 0, cause⟩
  | lenMismatch {idx : Nat} (hpos : 1 ≤ idx) (hlt : idx < 64) :
      InCauseTable ⟨.dimensionMismatch, .opd, idx, .lenMismatch⟩
  | illegal (c : IllegalCause) : InCauseTable ⟨.illegalCommand, .cmd, 0, causeOfIllegal c⟩

/-- The stops the spec knows: a report of R124's table, or `UNINIT` with an unwritten byte of `IBUF` to blame
(70_reset_and_hazards.md R144). -/
def LegalStop (s : State) : Stop → Prop
  | .error e => InCauseTable e
  | .fault f => f = .uninit ∧ ∃ a, 0x2000 ≤ a ∧ a < 0x3000 ∧ Memory.read s.mem a = none

/-- A phase stops in no other way. -/
def StopsLegally {α : Type} (s : State) (x : Execute α) : Prop := ∀ stop, x = .error stop → LegalStop s stop

section Stops

variable {α β : Type} {s : State}

theorem stopsLegally_ok (a : α) : StopsLegally s (.ok a) := nofun

theorem stopsLegally_error {stop : Stop} (h : LegalStop s stop) : StopsLegally s (.error stop : Execute α) := by
  rintro _ ⟨⟩
  exact h

/-- A chain stops as one of its phases does. -/
theorem stopsLegally_bind {x : Execute α} {f : α → Execute β} (hx : StopsLegally s x)
    (hf : ∀ a, x = .ok a → StopsLegally s (f a)) : StopsLegally s (x.bind f) := by
  intro stop h
  rcases (execute_bind_eq_error x f stop).mp h with hstop | ⟨a, ha, hstop⟩
  · exact hx stop hstop
  · exact hf a ha stop hstop

theorem stopsLegally_readOperand {field : ErrField} {idx : Nat} (hplace : OperandPlace field idx) (d : Word) :
    StopsLegally s (readOperand s field idx d) := by
  unfold readOperand
  split
  next => exact stopsLegally_error (.operand hplace (by decide))
  next =>
    split
    next => exact stopsLegally_error (.operand hplace (by decide))
    next =>
      split
      next => exact stopsLegally_error (.operand hplace (by decide))
      next hend =>
        split
        next hfetch =>
          obtain ⟨i, hi, hnone⟩ := (fetchBytes_eq_none s _ _).mp hfetch
          have hbound : descOff d + descLen d ≤ 4096 := Nat.not_lt.mp hend
          have hinside : descOff d + i < 4096 := by omega
          exact stopsLegally_error ⟨rfl, _, Nat.le_add_right 0x2000 _, Nat.add_lt_add_left hinside 0x2000, hnone⟩
        next =>
          split
          next => exact stopsLegally_error (.operand hplace (by decide))
          next bits _ => exact stopsLegally_ok bits

theorem stopsLegally_readOpd {i : Nat} (hi : i < 64) : StopsLegally s (readOpd s i) :=
  stopsLegally_readOperand (.inl ⟨rfl, hi⟩) _

theorem stopsLegally_readAux : StopsLegally s (readAux s) := stopsLegally_readOperand (.inr ⟨rfl, rfl⟩) _

theorem stopsLegally_readBlocks {i n : Nat} (hle : i + n ≤ 64) : StopsLegally s (readBlocks s i n) := by
  induction n generalizing i with
  | zero => exact stopsLegally_ok []
  | succ n ih =>
    exact stopsLegally_bind (stopsLegally_readOpd (by omega)) fun b _ =>
      stopsLegally_bind (ih (by omega)) fun bs _ => stopsLegally_ok (b :: bs)

/-- A mismatched block is one of those searched. -/
theorem firstMismatch_bounds {len i j : Nat} {bs : List BitString} (h : firstMismatch len i bs = some j) :
    i ≤ j ∧ j < i + bs.length := by
  induction bs generalizing i with
  | nil => cases h
  | cons b bs ih =>
    rw [firstMismatch] at h
    rw [List.length_cons]
    split at h
    next =>
      obtain ⟨hge, hlt⟩ := ih h
      omega
    next =>
      obtain rfl := Option.some.inj h
      omega

theorem stopsLegally_lrcDimensions {bs : List BitString} (hle : bs.length ≤ 64) :
    StopsLegally s (lrcDimensions bs) := by
  cases bs with
  | nil => exact stopsLegally_error (.dimension (by decide))
  | cons b bs =>
    rw [lrcDimensions]
    split
    next i hmismatch =>
      obtain ⟨hge, hlt⟩ := firstMismatch_bounds hmismatch
      rw [List.length_cons] at hle
      exact stopsLegally_error (.lenMismatch hge (by omega))
    next => exact stopsLegally_ok ()

theorem stopsLegally_crcDivisorChecks (g : BitString) : StopsLegally s (crcDivisorChecks g) := by
  unfold crcDivisorChecks
  split
  next => exact stopsLegally_error (.divisor (by decide))
  next =>
    split
    next => exact stopsLegally_error (.divisor (by decide))
    next => exact stopsLegally_ok ()

theorem stopsLegally_csumChecks (d : BitString) (k : Nat) : StopsLegally s (csumChecks d k) := by
  unfold csumChecks
  split
  next => exact stopsLegally_error .blockSize
  next =>
    split
    next => exact stopsLegally_error (.dimension (by decide))
    next => exact stopsLegally_ok ()

theorem stopsLegally_verifyCrc {cw g : BitString} (hg : LegalLength g) : StopsLegally s (verifyCrc cw g) := by
  by_cases hle : g.length ≤ cw.length
  · rw [verifyCrc_eq_ok hg.1 hle]
    exact stopsLegally_ok _
  · rw [verifyCrc_of_short (Nat.lt_of_not_le hle)]
    exact stopsLegally_error (.dimension (by decide))

theorem stopsLegally_executeOne (result : BitString → Result) : StopsLegally s (executeOne result s) :=
  stopsLegally_bind (stopsLegally_readOpd (by decide)) fun d _ => stopsLegally_ok (result d)

theorem stopsLegally_executeLrc {received : State → Execute α} (hreceived : StopsLegally s (received s))
    (result : List BitString → α → Result) (k : Nat) : StopsLegally s (executeLrc received result k s) := by
  unfold executeLrc
  split
  next => exact stopsLegally_error (.illegal .badNopd)
  next hk =>
    refine stopsLegally_bind (stopsLegally_readBlocks (by omega)) fun bs hbs => ?_
    have hle : bs.length ≤ 64 := by
      obtain ⟨hlen, -⟩ := (readBlocks_eq_ok s 0 k bs).mp hbs
      omega
    exact stopsLegally_bind hreceived fun r _ =>
      stopsLegally_bind (stopsLegally_lrcDimensions hle) fun _ _ => stopsLegally_ok (result bs r)

theorem stopsLegally_executeCrc {rest : BitString → BitString → Execute Result}
    (hrest : ∀ x g, LegalLength x → LegalLength g → StopsLegally s (rest x g)) :
    StopsLegally s (executeCrc rest s) :=
  stopsLegally_bind (stopsLegally_readOpd (by decide)) fun _ hx =>
    stopsLegally_bind stopsLegally_readAux fun g hg =>
      stopsLegally_bind (stopsLegally_crcDivisorChecks g) fun _ _ =>
        hrest _ g (legalLength_of_readOperand hx) (legalLength_of_readOperand hg)

theorem stopsLegally_executeCsum (result : BitString → Nat → Result) : StopsLegally s (executeCsum result s) :=
  stopsLegally_bind (stopsLegally_readOpd (by decide)) fun d _ =>
    stopsLegally_bind (stopsLegally_csumChecks d _) fun _ _ => stopsLegally_ok (result d _)

theorem stopsLegally_execute (i : Instr) : StopsLegally s (execute i s) := by
  cases i with
  | vrcEnc even => exact stopsLegally_executeOne _
  | vrcVer even => exact stopsLegally_executeOne _
  | lrcEnc even k => exact stopsLegally_executeLrc (received := fun _ => .ok ()) (stopsLegally_ok ()) _ k
  | lrcVer even k => exact stopsLegally_executeLrc stopsLegally_readAux _ k
  | crcEnc =>
    refine stopsLegally_executeCrc fun d g hd hg => ?_
    rw [encodeCrc_of_legal hd hg]
    exact stopsLegally_ok _
  | crcVer => exact stopsLegally_executeCrc fun _ _ _ hg => stopsLegally_verifyCrc hg
  | csumEnc => exact stopsLegally_executeCsum _
  | csumVer => exact stopsLegally_executeCsum _
  | hamEnc => exact stopsLegally_executeOne _
  | hamVer => exact stopsLegally_executeOne _

theorem stopsLegally_executeWord : StopsLegally s (executeWord s) := by
  cases h : decode s.cmd with
  | error c => exact executeWord_illegal h ▸ stopsLegally_error (.illegal c)
  | ok i => exact executeWord_legal h ▸ stopsLegally_execute i

end Stops

/-! ### The ways a completion goes on (R121, R125) -/

/-- A completion that answers a state has committed a result of the command or made a report of R124's table. -/
theorem exec_next {i : Instr} {s t : State} (h : exec i s = .next t) :
    (∃ r, execute i s = .ok r ∧ Produces i r ∧ t = completeOk r s) ∨
      ∃ e, execute i s = .error (.error e) ∧ InCauseTable e ∧ t = completeError e s := by
  rw [exec_eq_finish] at h
  rcases finish_next _ s t h with ⟨r, hr, ht⟩ | ⟨e, he, ht⟩
  · exact .inl ⟨r, hr, execute_produces hr, ht⟩
  · exact .inr ⟨e, he, stopsLegally_execute i _ he, ht⟩

/-- So has the completion of the word in `CMD`. -/
theorem completeCommand_next {s t : State} (h : completeCommand s = .next t) :
    (∃ i r, Produces i r ∧ t = completeOk r s) ∨ ∃ e, InCauseTable e ∧ t = completeError e s := by
  rw [completeCommand_eq_finish] at h
  rcases finish_next _ s t h with ⟨r, hr, ht⟩ | ⟨e, he, ht⟩
  · refine .inl ?_
    cases hword : decode s.cmd with
    | error c =>
      rw [executeWord_illegal hword] at hr
      cases hr
    | ok i => exact ⟨i, r, execute_produces (executeWord_legal hword ▸ hr), ht⟩
  · exact .inr ⟨e, stopsLegally_executeWord _ he, ht⟩

end Sys2Proof.Proofs

namespace Sys2Proof.Proofs

open Sys2Proof.Machine Sys2Proof.Claims

/-! ### The value of a bit-string (00_scope.md R10) -/

@[simp] theorem length_binOf (k v : Nat) : (binOf k v).length = k := by simp [binOf]

/-- Appended bits shift the value of those before them. -/
theorem bitsVal_append (s t : BitString) : bitsVal (s ++ t) = bitsVal s * 2 ^ t.length + bitsVal t := by
  induction t using List.reverseRecOn with
  | nil => simp [bitsVal]
  | append_singleton t b ih =>
    have hsnoc : ∀ u : BitString, bitsVal (u ++ [b]) = 2 * bitsVal u + b.toNat := fun u => by
      simp [bitsVal, List.foldl_append]
    rw [← List.append_assoc, hsnoc, hsnoc, ih, List.length_append, List.length_singleton, pow_succ]
    ring

/-- The first bit has the highest weight. -/
theorem bitsVal_cons (b : Bool) (s : BitString) : bitsVal (b :: s) = b.toNat * 2 ^ s.length + bitsVal s := by
  have hone : bitsVal [b] = b.toNat := by simp [bitsVal]
  rw [← List.singleton_append, bitsVal_append, hone]

theorem bitsVal_lt (s : BitString) : bitsVal s < 2 ^ s.length := by
  induction s with
  | nil => exact Nat.one_pos
  | cons b s ih =>
    have hb := Nat.mul_le_mul_right (2 ^ s.length) b.toNat_le
    rw [bitsVal_cons, List.length_cons, pow_succ]
    omega

theorem bitsVal_eq_zero_iff {s : BitString} : bitsVal s = 0 ↔ ∀ b ∈ s, b = false := by
  induction s with
  | nil => simp [bitsVal]
  | cons b s ih =>
    rw [bitsVal_cons, Nat.add_eq_zero_iff, ih, List.forall_mem_cons]
    refine and_congr_left fun _ => ?_
    cases b <;> simp

theorem bitsVal_eq_sum (s : BitString) :
    bitsVal s = ((List.range s.length).map fun i => (s.getD i false).toNat * 2 ^ (s.length - 1 - i)).sum := by
  induction s with
  | nil => rfl
  | cons b s ih =>
    rw [bitsVal_cons, ih, List.length_cons, List.range_succ_eq_map, List.map_cons, List.map_map, List.sum_cons]
    simp [Function.comp_def, Nat.sub_sub, Nat.add_comm]

/-- The first bit of `bin_(k+1)(v)` is bit `k` of `v`. -/
theorem binOf_succ (k v : Nat) : binOf (k + 1) v = v.testBit k :: binOf k v := by
  rw [binOf, List.range_succ_eq_map, List.map_cons, List.map_map]
  simp [binOf, Function.comp_def, Nat.sub_sub, Nat.add_comm]

/-- `bin_k` keeps the low `k` bits. -/
theorem bitsVal_binOf (k v : Nat) : bitsVal (binOf k v) = v % 2 ^ k := by
  induction k with
  | zero => rw [pow_zero, Nat.mod_one]; rfl
  | succ k ih => rw [binOf_succ, bitsVal_cons, length_binOf, ih, Nat.toNat_testBit, Nat.mod_pow_succ]; ring

/-- A bit-string is the only one of its length and value. -/
theorem bitsVal_inj {s t : BitString} (hlen : s.length = t.length) (hval : bitsVal s = bitsVal t) : s = t := by
  induction s generalizing t with
  | nil => exact (List.eq_nil_of_length_eq_zero hlen.symm).symm
  | cons b s ih =>
    cases t with
    | nil => cases hlen
    | cons c t =>
      replace hlen : s.length = t.length := Nat.succ.inj hlen
      have hs := bitsVal_lt s
      have ht := bitsVal_lt t
      rw [bitsVal_cons, bitsVal_cons, hlen] at hval
      rw [hlen] at hs
      cases b <;> cases c <;> simp only [Bool.toNat_true, Bool.toNat_false] at hval
      · rw [ih hlen (by omega)]
      · omega
      · omega
      · rw [ih hlen (by omega)]

theorem binOf_bitsVal (s : BitString) : binOf s.length (bitsVal s) = s :=
  bitsVal_inj (length_binOf _ _) ((bitsVal_binOf _ _).trans (Nat.mod_eq_of_lt (bitsVal_lt s)))

/-- Settles O12: each clause is the value of a string by its first bit and the rest. -/
theorem bitStringValueIsMsbFirst : Obligations.BitStringValueIsMsbFirst :=
  ⟨bitsVal_eq_sum, fun k v hv => ⟨length_binOf k v, (bitsVal_binOf k v).trans (Nat.mod_eq_of_lt hv)⟩,
    binOf_bitsVal⟩

/-! ### The accumulation, block by block (44_checksum.md R98 to R101) -/

/-- A sum after its fold, which one end-around carry completes (the inference R101). -/
def endAround (k sum : Nat) : Nat := if sum ≤ maskOf k then sum else foldCarry k sum

/-- The running sum before block `j` (R100). -/
def partialSum (k : Nat) (block : Nat → BitString) : Nat → Nat
  | 0 => 0
  | j + 1 => endAround k (partialSum k block j + bitsVal (block j))

/-- The records of one block: its addition, then its fold if there is one (R104). -/
def blockRecords (k j : Nat) (block : BitString) (before : Nat) : List TraceRecord :=
  csumAddRecord k j block before (before + bitsVal block) ::
    if before + bitsVal block ≤ maskOf k then []
    else [csumWrapRecord k j (before + bitsVal block) (endAround k (before + bitsVal block))]

theorem csumBlocks_eq_map (d : BitString) (k : Nat) :
    csumBlocks d k = (List.range (d.length / k)).map (dataBlock d k) := rfl

theorem endAround_of_le {k sum : Nat} (h : sum ≤ maskOf k) : endAround k sum = sum := if_pos h

theorem endAround_of_lt {k sum : Nat} (h : maskOf k < sum) : endAround k sum = foldCarry k sum :=
  if_neg (Nat.not_le.mpr h)

/-- One fold brings a sum of two block values within the mask: the carry is at most 1. -/
theorem endAround_le {k sum : Nat} (h : sum ≤ maskOf k + maskOf k) : endAround k sum ≤ maskOf k := by
  rcases Nat.lt_or_ge (maskOf k) sum with hlt | hle
  · have hpos := Nat.two_pow_pos k
    rw [maskOf_eq] at h hlt ⊢
    have hdiv : sum / 2 ^ k = 1 := Nat.div_eq_of_lt_le (by omega) (by omega)
    have hsplit := Nat.mod_add_div sum (2 ^ k)
    rw [hdiv] at hsplit
    rw [endAround_of_lt hlt, foldCarry_eq_mod_add_div, hdiv]
    omega
  · exact endAround_of_le hle |>.symm ▸ hle

/-- With a bounded sum the fold loop folds at most once and records it. -/
theorem foldWhile_eq {k j fuel sum : Nat} (h : sum ≤ maskOf k + maskOf k) (hfuel : sum ≤ fuel) :
    foldWhile k j fuel sum =
      { sum := endAround k sum
        recs := if sum ≤ maskOf k then [] else [csumWrapRecord k j sum (endAround k sum)] } := by
  have hwithin : ∀ (fuel sum : Nat), sum ≤ maskOf k → foldWhile k j fuel sum = { sum := sum, recs := [] } := by
    intro fuel sum hle
    cases fuel with
    | zero => rfl
    | succ fuel => exact if_neg (Nat.not_lt.mpr hle)
  by_cases hle : sum ≤ maskOf k
  · rw [hwithin fuel sum hle, endAround_of_le hle, if_pos hle]
  · have hlt := Nat.lt_of_not_le hle
    obtain ⟨fuel, rfl⟩ : ∃ n, fuel = n + 1 := Nat.exists_eq_add_one.mpr (by omega)
    have hfolded := endAround_le h
    rw [endAround_of_lt hlt] at hfolded ⊢
    rw [foldWhile, if_pos hlt, hwithin fuel _ hfolded, if_neg hle]

section Accumulation

variable {k : Nat} {block : Nat → BitString} (hblock : ∀ j, bitsVal (block j) ≤ maskOf k)

include hblock

theorem partialSum_le (j : Nat) : partialSum k block j ≤ maskOf k := by
  induction j with
  | zero => exact Nat.zero_le _
  | succ j ih => exact endAround_le (Nat.add_le_add ih (hblock j))

/-- The accumulation from block `j` on leaves the last running sum and the records of each block in order. -/
theorem accumulate_eq (j n : Nat) :
    accumulate k j (partialSum k block j) ((List.range' j n).map block) =
      { sum := partialSum k block (j + n)
        recs := (List.range' j n).flatMap fun i => blockRecords k i (block i) (partialSum k block i) } := by
  induction n generalizing j with
  | zero => rfl
  | succ n ih =>
    have hnext := ih (j + 1)
    rw [partialSum] at hnext
    have hsum := Nat.add_le_add (partialSum_le hblock j) (hblock j)
    rw [List.range'_succ, List.map_cons, accumulate, foldWhile_eq hsum le_rfl]
    simp only [hnext, List.flatMap_cons, blockRecords, List.cons_append, Nat.add_right_comm j 1 n]
    rfl

end Accumulation

theorem length_dataBlock_le (d : BitString) (k j : Nat) : (dataBlock d k j).length ≤ k := List.length_take_le ..

theorem bitsVal_dataBlock_le (d : BitString) (k j : Nat) : bitsVal (dataBlock d k j) ≤ maskOf k :=
  le_maskOf_iff_lt.mpr
    ((bitsVal_lt _).trans_le (Nat.pow_le_pow_right (by decide) (length_dataBlock_le d k j)))

/-- The checksum of the data: the running sum past the last block, and every block's records. -/
theorem checksumOf_eq (d : BitString) (k : Nat) :
    checksumOf d k =
      { sum := partialSum k (dataBlock d k) (d.length / k)
        recs := (List.range (d.length / k)).flatMap fun j =>
          blockRecords k j (dataBlock d k j) (partialSum k (dataBlock d k) j) } := by
  have haccumulate := accumulate_eq (bitsVal_dataBlock_le d k) 0 (d.length / k)
  rw [← List.range_eq_range', Nat.zero_add] at haccumulate
  rw [checksumOf, csumBlocks_eq_map]
  exact haccumulate

theorem endAround_eq (k sum : Nat) :
    endAround k sum = if sum ≤ 2 ^ k - 1 then sum else sum % 2 ^ k + sum / 2 ^ k := by
  rw [endAround, foldCarry_eq_mod_add_div]
  rfl

/-- Settles O26: the sums are the running sums of the accumulation, each folded at most once. -/
theorem checksumAccumulatesWithEndAroundCarry : Obligations.ChecksumAccumulatesWithEndAroundCarry := by
  intro d k _ _
  have hchecksum := checksumOf_eq d k
  exact ⟨partialSum k (dataBlock d k), rfl, fun j _ => endAround_eq k _,
    fun j _ => partialSum_le (bitsVal_dataBlock_le d k) j, congrArg Accumulated.sum hchecksum,
    congrArg Accumulated.recs hchecksum⟩

/-! ### The 1's-complement sum (44_checksum.md R101) -/

theorem two_pow_modEq_one (k : Nat) : 2 ^ k ≡ 1 [MOD 2 ^ k - 1] :=
  ((Nat.modEq_iff_dvd' Nat.one_le_two_pow).mpr dvd_rfl).symm

/-- The end-around carry keeps the residue modulo `2^k - 1`, where `2^k` is 1. -/
theorem endAround_modEq (k sum : Nat) : endAround k sum ≡ sum [MOD 2 ^ k - 1] := by
  rw [endAround_eq]
  split
  next => exact Nat.ModEq.rfl
  next =>
    calc
      sum % 2 ^ k + sum / 2 ^ k ≡ sum % 2 ^ k + 2 ^ k * (sum / 2 ^ k) [MOD 2 ^ k - 1] := by
        simpa using ((two_pow_modEq_one k).symm.mul_right (sum / 2 ^ k)).add_left (sum % 2 ^ k)
      _ = sum := Nat.mod_add_div sum (2 ^ k)

/-- A fold never makes a sum vanish. -/
theorem endAround_eq_zero_iff {k sum : Nat} : endAround k sum = 0 ↔ sum = 0 := by
  have hsplit := Nat.mod_add_div sum (2 ^ k)
  rw [endAround_eq]
  split
  next => rfl
  next =>
    refine ⟨fun h => ?_, fun h => by simp [h]⟩
    obtain ⟨hmod, hdiv⟩ := Nat.add_eq_zero_iff.mp h
    rw [hmod, hdiv] at hsplit
    exact hsplit.symm

theorem partialSum_modEq (k : Nat) (block : Nat → BitString) (n : Nat) :
    partialSum k block n ≡ ((List.range n).map fun j => bitsVal (block j)).sum [MOD 2 ^ k - 1] := by
  induction n with
  | zero => exact Nat.ModEq.rfl
  | succ n ih =>
    rw [List.range_succ, List.map_append, List.sum_append, List.map_singleton, List.sum_singleton]
    exact (endAround_modEq k _).trans (ih.add_right _)

theorem partialSum_eq_zero_iff {k : Nat} {block : Nat → BitString} {n : Nat} :
    partialSum k block n = 0 ↔ ∀ j < n, bitsVal (block j) = 0 := by
  induction n with
  | zero => exact iff_of_true rfl nofun
  | succ n ih => rw [partialSum, endAround_eq_zero_iff, Nat.add_eq_zero_iff, ih, Nat.forall_lt_succ_right]

/-- Every bit of the data lies in one of the blocks (R98). -/
theorem forall_dataBlock_iff {d : BitString} {k : Nat} (hk : 1 ≤ k) (hdvd : d.length % k = 0) {p : Bool → Prop} :
    (∀ j < d.length / k, ∀ b ∈ dataBlock d k j, p b) ↔ ∀ b ∈ d, p b := by
  constructor
  · intro h b hb
    obtain ⟨i, hi, rfl⟩ := List.mem_iff_getElem.mp hb
    have hsplit := Nat.mod_add_div i k
    have hlt : i % k < k := Nat.mod_lt i hk
    have hblock : i / k < d.length / k := Nat.div_lt_div_of_lt_of_dvd (Nat.dvd_of_mod_eq_zero hdvd) hi
    refine h (i / k) hblock _ (List.mem_iff_getElem?.mpr ⟨i % k, ?_⟩)
    have hindex : i / k * k + i % k = i := by rw [Nat.mul_comm]; omega
    rw [dataBlock, List.getElem?_take_of_lt hlt, List.getElem?_drop, hindex, List.getElem?_eq_getElem hi]
  · exact fun h j _ b hb => h b (List.mem_of_mem_drop (List.mem_of_mem_take hb))

theorem checksumOf_sum_modEq (d : BitString) (k : Nat) :
    (checksumOf d k).sum ≡ blockSum d k [MOD 2 ^ k - 1] := by
  rw [checksumOf_eq d k]
  exact partialSum_modEq k (dataBlock d k) _

theorem checksumOf_sum_eq_zero_iff {d : BitString} {k : Nat} (hk : 1 ≤ k) (hdvd : d.length % k = 0) :
    (checksumOf d k).sum = 0 ↔ ∀ b ∈ d, b = false := by
  rw [checksumOf_eq d k, partialSum_eq_zero_iff, ← forall_dataBlock_iff hk hdvd]
  exact forall₂_congr fun _ _ => bitsVal_eq_zero_iff

/-- Settles O27: each step of the accumulation keeps the residue, and no step makes a sum vanish. -/
theorem checksumIsTheOnesComplementSum : Obligations.ChecksumIsTheOnesComplementSum :=
  fun d k hk hdvd => ⟨sum_checksumOf_le d hk, checksumOf_sum_eq_zero_iff hk hdvd, checksumOf_sum_modEq d k⟩

end Sys2Proof.Proofs

namespace Sys2Proof.Proofs

open Sys2Proof.Machine Sys2Proof.Claims

/-! ### The size of every result (00_scope.md R8) -/

/-- A trace record within `TSTR_SIZE` and `TPOS_MAX` (10_state.md R35). -/
def RecordFits (rec : TraceRecord) : Prop :=
  rec.s0.length ≤ 1024 ∧ rec.s1.length ≤ 1024 ∧ rec.s2.length ≤ 1024 ∧ rec.pos.length ≤ 512

/-- A result within the capacities of R8, with a `HAM_STAT` code of 45_hamming.md R117. What a command leaves at its
default (30_encoding.md R66) fits by itself. -/
structure ResultFits (r : Result) : Prop where
  a       : r.a.length ≤ 1024 := by exact Nat.zero_le _
  b       : r.b.length ≤ 1024 := by exact Nat.zero_le _
  c       : r.c.length ≤ 1024 := by exact Nat.zero_le _
  trace   : r.trace.length ≤ 1024 := by exact Nat.zero_le _
  recs    : ∀ rec ∈ r.trace, RecordFits rec := by exact List.forall_mem_nil _
  hamStat : r.hamStat ≤ 2 := by exact Nat.zero_le _

theorem length_lrcOf_le {bs : List BitString} (even : Bool) (hbs : ∀ b ∈ bs, LegalLength b) :
    (lrcOf bs even).length ≤ 512 := by
  cases bs with
  | nil => exact Nat.zero_le _
  | cons b bs => simpa [lrcOf, blockLength] using (hbs b (List.mem_cons_self ..)).2

/-- A division's records hold strings of the divisor's length. -/
theorem recordFits_longDivision {d g : BitString} (hg : LegalLength g) (hle : g.length ≤ d.length) :
    ∀ rec ∈ (longDivision d g).steps, RecordFits rec := by
  obtain ⟨hpos, hmax⟩ := hg
  intro rec hrec
  obtain ⟨j, -, rfl⟩ := List.mem_map.mp hrec
  have hwindow := length_windowAt (List.length_take_of_le hle) hpos (d.drop g.length) j
  simp only [RecordFits, crcStepRecord, hwindow, length_stepPattern, length_stepXor hwindow, List.length_nil]
  omega

/-- Data of `d` hold at most `d` blocks, each of at most `d` bits. -/
theorem blocks_bounds {d : BitString} {k : Nat} (hd : LegalLength d) (hdvd : d.length % k = 0) :
    k ≤ 512 ∧ d.length / k ≤ 512 := by
  obtain ⟨hpos, hmax⟩ := hd
  exact ⟨(Nat.le_of_dvd hpos (Nat.dvd_of_mod_eq_zero hdvd)).trans hmax, (Nat.div_le_self ..).trans hmax⟩

theorem length_blockRecords_le (k j : Nat) (b : BitString) (before : Nat) :
    (blockRecords k j b before).length ≤ 2 := by
  rw [blockRecords]
  split <;> simp

theorem recordFits_blockRecords {k j : Nat} {b : BitString} {before : Nat} (hk : k ≤ 512) (hb : b.length ≤ k) :
    ∀ rec ∈ blockRecords k j b before, RecordFits rec := by
  have hadd : ∀ after, RecordFits (csumAddRecord k j b before after) := fun after => by
    simp only [RecordFits, csumAddRecord, length_binOf, List.length_nil]
    omega
  have hwrap : ∀ before after, RecordFits (csumWrapRecord k j before after) := fun before after => by
    simp only [RecordFits, csumWrapRecord, length_binOf, List.length_nil]
    omega
  rw [blockRecords]
  split
  next => simpa using hadd _
  next => simpa using ⟨hadd _, hwrap _ _⟩

/-- Each block of a checksum makes at most two records. -/
theorem length_recs_checksumOf_le (d : BitString) (k : Nat) : (checksumOf d k).recs.length ≤ 2 * (d.length / k) := by
  rw [checksumOf_eq, List.length_flatMap]
  refine (List.sum_le_card_nsmul _ 2 ?_).trans_eq ?_
  · simpa using fun j _ => length_blockRecords_le k j _ _
  · simp [Nat.mul_comm]

theorem recordFits_checksumOf {d : BitString} {k : Nat} (hk : k ≤ 512) :
    ∀ rec ∈ (checksumOf d k).recs, RecordFits rec := by
  intro rec hrec
  rw [checksumOf_eq] at hrec
  obtain ⟨j, -, hj⟩ := List.mem_flatMap.mp hrec
  exact recordFits_blockRecords hk (length_dataBlock_le d k j) rec hj

/-- Data of up to 512 bits take up to 10 parity bits (45_hamming.md R109). -/
theorem redundancy_le {m : Nat} (hm : m ≤ 512) : redundancy m ≤ 10 := by
  by_contra hlt
  have hten := (redundancy_isLeast m).2 10 (Nat.lt_of_not_le hlt)
  omega

theorem hamLength_le {m : Nat} (hm : m ≤ 512) : hamLength m ≤ 522 := by
  have := redundancy_le hm
  rw [hamLength]
  omega

theorem nodup_covered (k n : Nat) : (covered k n).Nodup := (List.nodup_range' ..).filter _

theorem mem_covered_iff {k n p : Nat} : p ∈ covered k n ↔ (1 ≤ p ∧ p ≤ n) ∧ p.testBit k = true := by
  rw [covered, List.mem_filter, List.mem_range'_1, Nat.add_comm 1 n, Nat.lt_succ_iff]

theorem testBit_sub_two_pow_self {p k : Nat} (hbit : p.testBit k = true) : (p - 2 ^ k).testBit k = false := by
  have hflip := Nat.testBit_two_pow_add_eq (p - 2 ^ k) k
  rw [Nat.add_sub_cancel' (Nat.ge_two_pow_of_testBit hbit), hbit] at hflip
  simpa using hflip.symm

/-- Clearing bit `k` takes the covered positions one by one to numbers that have it clear. -/
theorem nodup_covered_append_cleared (k n : Nat) :
    (covered k n ++ (covered k n).map (· - 2 ^ k)).Nodup := by
  have hcleared : ((covered k n).map (· - 2 ^ k)).Nodup := by
    refine (nodup_covered k n).map_on fun p hp q hq heq => ?_
    exact (tsub_left_inj (Nat.ge_two_pow_of_testBit (mem_covered_iff.mp hp).2)
      (Nat.ge_two_pow_of_testBit (mem_covered_iff.mp hq).2)).mp heq
  refine (nodup_covered k n).append hcleared fun q hq hq' => ?_
  obtain ⟨p, hp, rfl⟩ := List.mem_map.mp hq'
  cases (testBit_sub_two_pow_self (mem_covered_iff.mp hp).2).symm.trans (mem_covered_iff.mp hq).2

/-- So the covered positions are at most half of `0..n`. -/
theorem two_mul_length_covered_le (k n : Nat) : 2 * (covered k n).length ≤ n + 1 := by
  have hsubset : covered k n ++ (covered k n).map (· - 2 ^ k) ⊆ List.range (n + 1) := by
    intro q hq
    rw [List.mem_range, Nat.lt_succ_iff]
    rcases List.mem_append.mp hq with hq | hq
    · exact (mem_covered_iff.mp hq).1.2
    · obtain ⟨p, hp, rfl⟩ := List.mem_map.mp hq
      exact (Nat.sub_le ..).trans (mem_covered_iff.mp hp).1.2
  have hle := ((nodup_covered_append_cleared k n).subperm hsubset).length_le
  rw [List.length_append, List.length_map, List.length_range] at hle
  omega

theorem recordFits_hamParityRecord {n : Nat} (hn : n ≤ 522) (c : BitString) (k : Nat) :
    RecordFits (hamParityRecord c k n) := by
  have hcovered := two_mul_length_covered_le k n
  have hsolved : (solvedFrom k n).length ≤ (covered k n).length := List.length_filter_le ..
  simp only [RecordFits, hamParityRecord, parityInputs, List.length_map, List.length_nil]
  omega

theorem hamStatus_le (syn n : Nat) : hamStatus syn n ≤ 2 := by
  rw [hamStatus]
  split_ifs <;> decide

theorem length_hamCorrect (c : BitString) (syn : Nat) : (hamCorrect c syn).length = c.length := by
  rw [hamCorrect_eq]
  split <;> simp

/-- A CRC encoder's division is of data one bit shorter than the divisor plus the data. -/
theorem crcEnc_fits {d g : BitString} (hd : LegalLength d) (hg : LegalLength g) :
    ResultFits (crcEncResult d (longDivision (d ++ zeros (g.length - 1)) g)) := by
  have haugmented := length_augmented d g.length
  obtain ⟨hdpos, hdmax⟩ := hd
  obtain ⟨hgpos, hgmax⟩ := hg
  have hle : g.length ≤ (d ++ zeros (g.length - 1)).length := by omega
  have hrem := length_rem_longDivision hgpos hle
  exact {
    a := by simp only [crcEncResult, List.length_append, hrem]; omega
    b := by simp only [crcEncResult, hrem]; omega
    c := by simp only [crcEncResult, length_quot_longDivision]; omega
    trace := by simp only [crcEncResult, length_steps_longDivision]; omega
    recs := recordFits_longDivision ⟨hgpos, hgmax⟩ hle }

theorem crcVer_fits {cw g : BitString} (hcw : LegalLength cw) (hg : LegalLength g) (hle : g.length ≤ cw.length) :
    ResultFits (crcVerResult g (longDivision cw g)) := by
  have hrem := length_rem_longDivision hg.1 hle
  obtain ⟨-, hmax⟩ := hcw
  exact {
    b := by simp only [crcVerResult, hrem]; omega
    c := by simp only [crcVerResult, length_quot_longDivision]; omega }

theorem csumEnc_fits {d : BitString} {k : Nat} (hd : LegalLength d) (hdvd : d.length % k = 0) :
    ResultFits (csumEncResult d k) := by
  obtain ⟨hk, hblocks⟩ := blocks_bounds hd hdvd
  have hrecs := length_recs_checksumOf_le d k
  exact {
    a := by simp only [csumEncResult, length_binOf]; omega
    b := by simp only [csumEncResult, complement, List.length_map, length_binOf]; omega
    trace := by simp only [csumEncResult]; omega
    recs := recordFits_checksumOf hk }

theorem csumVer_fits {d : BitString} {k : Nat} (hd : LegalLength d) (hdvd : d.length % k = 0) :
    ResultFits (csumVerResult d k) := by
  obtain ⟨hk, -⟩ := blocks_bounds hd hdvd
  exact {
    a := by simp only [csumVerResult, length_binOf]; omega
    b := by simp only [csumVerResult, complement, List.length_map, length_binOf]; omega }

theorem hamEnc_fits {d : BitString} (hd : LegalLength d) : ResultFits (hamEncResult d) := by
  have hlength := hamLength_le hd.2
  have hredundancy := redundancy_le hd.2
  exact {
    a := by simp only [hamEncResult, length_hamEncode]; omega
    trace := by simp only [hamEncResult, recs_hamEncode, List.length_map, List.length_range]; omega
    recs := by
      simp only [hamEncResult, recs_hamEncode, List.forall_mem_map]
      exact fun k _ => recordFits_hamParityRecord hlength _ k }

/-- Every result a command can commit is within the capacities. -/
theorem Produces.fits {i : Instr} {r : Result} (h : Produces i r) : ResultFits r := by
  have hmax : 512 + 1 ≤ 1024 := by decide
  cases h with
  | vrcEnc hd =>
    exact { a := (List.length_append.trans_le (Nat.add_le_add_right hd.2 1)).trans hmax }
  | vrcVer => exact {}
  | lrcEnc hbs => exact { a := (length_lrcOf_le _ hbs).trans (Nat.le_of_succ_le hmax) }
  | lrcVer hbs => exact { a := (length_lrcOf_le _ hbs).trans (Nat.le_of_succ_le hmax) }
  | crcEnc hd hg => exact crcEnc_fits hd hg
  | crcVer hcw hg hle => exact crcVer_fits hcw hg hle
  | csumEnc hd _ hdvd => exact csumEnc_fits hd hdvd
  | csumVer hd _ hdvd => exact csumVer_fits hd hdvd
  | hamEnc hd => exact hamEnc_fits hd
  | hamVer hc =>
    exact {
      a := (length_hamCorrect _ _).trans_le (hc.2.trans (Nat.le_of_succ_le hmax))
      hamStat := hamStatus_le _ _ }

end Sys2Proof.Proofs

namespace Sys2Proof.Proofs

open Sys2Proof.Machine Sys2Proof.Claims

/-! ### What a step can do (10_state.md R16) -/

/-- What an event from outside can do to the block (20_memory.md R44, R49; 60_exceptions.md R120; 10_state.md R25 to
R28; 70_reset_and_hazards.md R141). -/
inductive EventEffect (s : State) : HostEvent → State → Prop
  | read {off : BitVec 16} {n : Width} (response : Option Word) (draws : Nat) :
      EventEffect s (.read off n) { s with response := response, draws := draws }
  | reset : EventEffect s .assertReset (assertReset s)
  | accept {off : BitVec 16} {n : Width} {v : Word} (hidle : s.status.busy = false) :
      EventEffect s (.write off n v)
        { acceptCommand v (Config.latency s.draws) s with draws := s.draws + 1, response := none }
  | overrun {off : BitVec 16} {n : Width} {v : Word} (ovr : Bool) :
      EventEffect s (.write off n v) { s with status := { s.status with ovr := ovr }, response := none }
  | operand {off : BitVec 16} {n : Width} {v : Word} (aux : Word) (blksz tidx : BitVec 16) (opd : Vector Word 64) :
      EventEffect s (.write off n v)
        { s with aux := aux, blksz := blksz, tidx := tidx, opd := opd, response := none }
  | ibuf {off : BitVec 16} {n : Width} {v : Word} (hge : 0x2000 ≤ off.toNat)
      (hend : off.toNat + n.bytes ≤ 0x3000) :
      EventEffect s (.write off n v)
        { s with mem := Memory.writeBytes s.mem off.toNat (lowBytes v n.bytes), response := none }

/-- The state in which the next event meets the block: it is no longer to come, and one host step of the in-flight
command is over. -/
def tick (s : State) (rest : List HostEvent) : State :=
  { s with pending := rest, countdown := s.countdown - 1 }

/-- What a step can do: the core commits a result or reports an error; with nothing to do the state stays; or the
outside's next event has its effect. -/
inductive StepEffect (s : State) : State → Prop
  | committed {i : Instr} {r : Result} (hbusy : s.status.busy = true) (hr : Produces i r) :
      StepEffect s (completeOk r s)
  | reported {e : ErrReport} (he : InCauseTable e) : StepEffect s (completeError e s)
  | stays : StepEffect s s
  | event {e : HostEvent} {rest : List HostEvent} {t : State} (hturn : coreTurn s = false)
      (hpending : s.pending = e :: rest) (he : EventEffect (tick s rest) e t) : StepEffect s t

/-- A region the search answers is a row that holds the offset. -/
theorem exists_row_of_findBuffer {rows : List BufferRow} {a : Nat} {b : Buffer} (h : findBuffer rows a = some b) :
    ∃ r ∈ rows, r.buffer = b ∧ r.base ≤ a ∧ a < r.base + r.size := by
  induction rows with
  | nil => cases h
  | cons r rows ih =>
    rw [findBuffer] at h
    split at h
    next hin => exact ⟨r, List.mem_cons_self .., Option.some.inj h, hin⟩
    next =>
      obtain ⟨q, hq, hrow⟩ := ih h
      exact ⟨q, List.mem_cons_of_mem r hq, hrow⟩

/-- `IBUF` is where the map puts it (20_memory.md R43). -/
theorem ibuf_bounds_of_findBuffer {a : Nat} (h : findBuffer bufferRows a = some .ibuf) : 0x2000 ≤ a ∧ a < 0x3000 := by
  have hrow : ∀ r ∈ bufferRows, r.buffer = .ibuf → r.base = 0x2000 ∧ r.size = 0x1000 := by decide
  obtain ⟨r, hr, hibuf, hge, hlt⟩ := exists_row_of_findBuffer h
  obtain ⟨hbase, hsize⟩ := hrow r hr hibuf
  omega

/-- The places an access can reach (R43, R45): a register by an aligned 4-byte access, a buffer by any naturally
aligned one. -/
theorem targetAt_eq_some_iff {off : Nat} {n : Width} {t : Target} :
    targetAt off n = some t ↔
      (∃ r, t = .reg r ∧ off < 0x300 ∧ n = .w4 ∧ off % 4 = 0 ∧ regAt off = some r) ∨
        ∃ b, t = .buffer b ∧ 0x300 ≤ off ∧ off % n.bytes = 0 ∧ findBuffer bufferRows off = some b := by
  constructor
  · intro h
    unfold targetAt at h
    split_ifs at h with hreg halign halign
    · obtain ⟨r, hr, rfl⟩ := Option.map_eq_some_iff.mp h
      exact .inl ⟨r, rfl, hreg, halign.1, halign.2, hr⟩
    · obtain ⟨b, hb, rfl⟩ := Option.map_eq_some_iff.mp h
      exact .inr ⟨b, rfl, Nat.not_lt.mp hreg, halign, hb⟩
  · rintro (⟨r, rfl, hlt, rfl, halign, hr⟩ | ⟨b, rfl, hge, halign, hb⟩)
    · exact targetAt_reg halign hlt hr
    · exact targetAt_buffer halign hge hb

theorem checkAccess_write_eq_ok_iff {off : BitVec 16} {n : Width} {t : Target} :
    checkAccess off n .write = .ok t ↔ targetAt off.toNat n = some t ∧ t.writable = true := by
  refine ⟨fun h => ?_, fun ⟨ht, hw⟩ => checkAccess_write ht hw⟩
  unfold checkAccess at h
  split at h
  next => cases h
  next t' ht =>
    split_ifs at h with hread
    obtain rfl := Except.ok.inj h
    refine ⟨ht, ?_⟩
    simpa using hread

/-- An aligned `IBUF` access ends inside `IBUF`, whose end is aligned to every width. -/
theorem ibuf_end_of_aligned {off : Nat} {n : Width} (hlt : off < 0x3000) (halign : off % n.bytes = 0) :
    off + n.bytes ≤ 0x3000 := by
  cases n <;> simp only [Width.bytes] at halign ⊢ <;> omega

theorem writeReg_effect {s : State} {off : BitVec 16} {n : Width} {r : Reg} (v : Word) (hw : r.writable = true) :
    EventEffect s (.write off n v) { writeReg r v s with response := none } := by
  cases r with
  | cmd =>
    cases hbusy : s.status.busy with
    | true => rw [writeReg_cmd, issueCommand_busy v s hbusy]; exact .overrun true
    | false => rw [writeReg_cmd, issueCommand_idle v s hbusy]; exact .accept hbusy
  | status => rw [writeReg_status_eq]; exact .overrun _
  | aux => exact .operand v s.blksz s.tidx s.opd
  | blksz => exact .operand s.aux (v.setWidth 16) s.tidx s.opd
  | tidx => exact .operand s.aux s.blksz (v.setWidth 16) s.opd
  | opd i => exact .operand s.aux s.blksz s.tidx (s.opd.set i v)
  | _ => cases hw

/-- A host write that goes on has one of the effects of a write. -/
theorem hostWrite_effect {s t : State} {off : BitVec 16} {n : Width} {v : Word}
    (h : hostWrite off n v s = .next t) : EventEffect s (.write off n v) t := by
  obtain ⟨target, hcheck, -, rfl⟩ := hostWrite_next off n v s t h
  obtain ⟨htarget, hw⟩ := checkAccess_write_eq_ok_iff.mp hcheck
  rcases targetAt_eq_some_iff.mp htarget with ⟨r, rfl, -⟩ | ⟨b, rfl, -, halign, hb⟩
  · exact writeReg_effect v hw
  · obtain rfl : b = .ibuf := eq_of_beq hw
    obtain ⟨hge, hlt⟩ := ibuf_bounds_of_findBuffer hb
    exact .ibuf hge (ibuf_end_of_aligned hlt halign)

theorem hostEvent_effect {s t : State} {e : HostEvent} (h : hostEvent e s = .next t) : EventEffect s e t := by
  cases e with
  | read off n => exact hostRead_next off n s t h ▸ .read t.response t.draws
  | write off n v => exact hostWrite_effect h
  | assertReset =>
    obtain rfl := Host.Outcome.next.inj h
    exact .reset

/-- Every step that goes on is one of these. -/
theorem step_effect {s t : State} (h : step s = .next t) : StepEffect s t := by
  cases hturn : coreTurn s with
  | true =>
    rw [step_core s hturn] at h
    rcases completeCommand_next h with ⟨i, r, hr, rfl⟩ | ⟨e, he, rfl⟩
    · exact .committed (coreTurn_busy s hturn) hr
    · exact .reported he
  | false =>
    rw [step_outside s hturn, outsideTurn] at h
    cases hpending : s.pending with
    | nil =>
      rw [hpending] at h
      obtain rfl := Host.Outcome.next.inj h
      exact .stays
    | cons e rest =>
      rw [hpending] at h
      exact .event hturn hpending (hostEvent_effect h)

/-! ### The invariants (R16: every step keeps each) -/

/-- Settles O59: the reset state lists no byte, holds no record and has no command in flight. -/
theorem invariantsHoldAtReset : Obligations.InvariantsHoldAtReset := by
  have hregion : ∀ base, 0x3000 ≤ base → base + 1024 ≤ 0x3C00 → RegionHoldsString State.reset base 0#32 := by
    refine fun base hge hend => ⟨by decide, fun a ha => ⟨fun hlt => absurd hlt (Nat.not_lt_zero a), fun _ => ?_⟩⟩
    exact unlisted_obuf (by omega) (by omega)
  exact ⟨Memory.wf_nil, ⟨fun _ => ⟨rfl, rfl, rfl, rfl⟩, nofun⟩,
    ⟨Nat.zero_le _, Nat.zero_le _, Nat.zero_le _, Nat.zero_le _, fun _ => rfl⟩, rfl, ⟨Nat.zero_le _, nofun⟩,
    ⟨hregion _ (by decide) (by decide), hregion _ (by decide) (by decide), hregion _ (by decide) (by decide)⟩,
    Nat.zero_le _, fun _ => rfl⟩

/-- The offsets of an `IBUF` write are stored ones. -/
theorem stores_ibuf {a : Nat} (hge : 0x2000 ≤ a) (hlt : a < 0x3000) : Memory.stores a = true :=
  decide_eq_true (.inl ⟨hge, hlt⟩)

theorem wf_completeOk {s : State} (hs : MemoryCanonical s) (r : Result) : MemoryCanonical (completeOk r s) :=
  wf_writeResultMem _ _ _ (wf_writeResultMem _ _ _ (wf_writeResultMem _ _ _ hs))

/-- Settles O53: only result writes, `IBUF` writes and reset touch the list, and each keeps its form. -/
theorem memoryStaysCanonical : Obligations.MemoryStaysCanonical := by
  intro s t hs hstep
  cases step_effect hstep with
  | committed => exact wf_completeOk hs _
  | reported => exact hs
  | stays => exact hs
  | event _ _ he =>
    cases he with
    | reset => exact Memory.wf_nil
    | ibuf hge hend =>
      refine Memory.wf_writeBytes _ _ _ (fun a h1 h2 => stores_ibuf (hge.trans h1) ?_) hs
      rw [length_lowBytes] at h2
      omega
    | read => exact hs
    | accept => exact hs
    | overrun => exact hs
    | operand => exact hs

/-- Settles O54: an outcome is written with `BUSY` falling, an acceptance clears it with `BUSY` rising, and a result
is committed over error fields that acceptance left 0. -/
theorem statusStaysConsistent : Obligations.StatusStaysConsistent := by
  intro s t hs hstep
  obtain ⟨hfields, hflight⟩ := hs
  cases step_effect hstep with
  | committed hbusy => exact ⟨fun _ => hfields (hflight hbusy).2, nofun⟩
  | reported => exact ⟨nofun, nofun⟩
  | stays => exact ⟨hfields, hflight⟩
  | event _ _ he =>
    cases he with
    | reset => exact ⟨fun _ => ⟨rfl, rfl, rfl, rfl⟩, nofun⟩
    | accept => exact ⟨fun _ => ⟨rfl, rfl, rfl, rfl⟩, fun _ => ⟨rfl, rfl⟩⟩
    | read => exact ⟨hfields, hflight⟩
    | overrun => exact ⟨hfields, hflight⟩
    | operand => exact ⟨hfields, hflight⟩
    | ibuf => exact ⟨hfields, hflight⟩

/-- A number within a register's width is held exactly (00_scope.md R8). -/
theorem toNat_word_of_le {n : Nat} (h : n ≤ 1024) : (BitVec.ofNat 32 n).toNat = n := by
  rw [BitVec.toNat_ofNat, Nat.mod_eq_of_lt (by omega)]

/-- Settles O56: every committed trace is within the capacities, and a number that small is counted exactly. -/
theorem traceStaysCountedAndFits : Obligations.TraceStaysCountedAndFits := by
  intro s t hcounted hfits hstep
  cases step_effect hstep with
  | committed _ hr => exact ⟨toNat_word_of_le hr.fits.trace, hr.fits.trace, hr.fits.recs⟩
  | reported => exact ⟨hcounted, hfits⟩
  | stays => exact ⟨hcounted, hfits⟩
  | event _ _ he =>
    cases he with
    | reset => exact ⟨rfl, Nat.zero_le _, nofun⟩
    | read => exact ⟨hcounted, hfits⟩
    | accept => exact ⟨hcounted, hfits⟩
    | overrun => exact ⟨hcounted, hfits⟩
    | operand => exact ⟨hcounted, hfits⟩
    | ibuf => exact ⟨hcounted, hfits⟩

/-- Bytes that stand as they did leave a result region as it was. -/
theorem regionHoldsString_congr {s t : State} {base : Nat} {len : Word}
    (hread : ∀ a < 1024, Memory.read t.mem (base + a) = Memory.read s.mem (base + a))
    (h : RegionHoldsString s base len) : RegionHoldsString t base len := by
  refine ⟨h.1, fun a ha => ?_⟩
  rw [hread a ha]
  exact h.2 a ha

/-- A region that shows the characters of a string, then `0x00`, is a string of the string's length. -/
theorem regionHoldsString_of_fillChar {t : State} {base : Nat} {bits : BitString} (hlen : bits.length ≤ 1024)
    (hread : ∀ a < 1024, Memory.read t.mem (base + a) = some (fillChar bits a)) :
    RegionHoldsString t base (BitVec.ofNat 32 bits.length) := by
  rw [RegionHoldsString, toNat_word_of_le hlen]
  refine ⟨hlen, fun a ha => ⟨fun hlt => ?_, fun hge => ?_⟩⟩
  · rw [hread a ha, fillChar, List.getElem?_eq_getElem hlt]
    cases bits[a]
    · exact .inl rfl
    · exact .inr rfl
  · rw [hread a ha, fillChar, List.getElem?_eq_none hge]

theorem resultsAreStrings_completeOk {r : Result} (hr : ResultFits r) (s : State) :
    ResultsAreStrings (completeOk r s) :=
  have hcommitted := committed_completeOk r s
  ⟨regionHoldsString_of_fillChar hr.a hcommitted.obufA, regionHoldsString_of_fillChar hr.b hcommitted.obufB,
    regionHoldsString_of_fillChar hr.c hcommitted.obufC⟩

/-- Settles O57: a committed result is a string that fits its region; an `IBUF` write lies below every region. -/
theorem resultsStayStrings : Obligations.ResultsStayStrings := by
  intro s t hs hstep
  cases step_effect hstep with
  | committed _ hr => exact resultsAreStrings_completeOk hr.fits s
  | reported => exact hs
  | stays => exact hs
  | event _ _ he =>
    cases he with
    | reset =>
      obtain ⟨-, -, -, -, -, hreset, -⟩ := invariantsHoldAtReset
      exact hreset
    | @ibuf off n v hge hend =>
      have hread : ∀ base, 0x3000 ≤ base → ∀ a < 1024,
          Memory.read (Memory.writeBytes s.mem off.toNat (lowBytes v n.bytes)) (base + a) =
            Memory.read s.mem (base + a) :=
        fun base hbase a _ => read_writeLowBytes_of_outside s.mem _ _ (.inr (by omega))
      obtain ⟨ha, hb, hc⟩ := hs
      exact ⟨regionHoldsString_congr (hread _ (by decide)) ha, regionHoldsString_congr (hread _ (by decide)) hb,
        regionHoldsString_congr (hread _ (by decide)) hc⟩
    | read => exact hs
    | accept => exact hs
    | overrun => exact hs
    | operand => exact hs

/-- The codes of a report are those of the spec's tables (60_exceptions.md R123, R124). -/
theorem InCauseTable.codes {e : ErrReport} (h : InCauseTable e) :
    e.kind.code.toNat ≤ 3 ∧ e.field.code.toNat ≤ 4 ∧ e.cause.code.toNat ≤ 14 ∧
      (e.field.code ≠ 2#4 → BitVec.ofNat 8 e.idx = 0#8) := by
  have hkind : ∀ k : ErrKind, k.code.toNat ≤ 3 := fun k => by cases k <;> decide
  have hfield : ∀ f : ErrField, f.code.toNat ≤ 4 := fun f => by cases f <;> decide
  have hcause : ∀ c : Cause, c.code.toNat ≤ 14 := fun c => by cases c <;> decide
  refine ⟨hkind _, hfield _, hcause _, fun hne => ?_⟩
  cases h with
  | operand hplace =>
    rcases hplace with ⟨rfl, -⟩ | ⟨-, rfl⟩
    · exact absurd rfl hne
    · rfl
  | divisor => rfl
  | blockSize => rfl
  | dimension => rfl
  | lenMismatch => exact absurd rfl hne
  | illegal => rfl

/-- Settles O55: the codes are written by reports of the table, by results of the Hamming unit, and to 0. -/
theorem codesStayInRange : Obligations.CodesStayInRange := by
  intro s t hs hstep
  obtain ⟨hkind, hfield, hcause, hstat, hidx⟩ := hs
  cases step_effect hstep with
  | committed _ hr =>
    refine ⟨hkind, hfield, hcause, ?_, hidx⟩
    have hle := hr.fits.hamStat
    rwa [completeOk_hamStat, toNat_word_of_le (by omega)]
  | reported he =>
    obtain ⟨hkind, hfield, hcause, hidx⟩ := he.codes
    exact ⟨hkind, hfield, hcause, hstat, hidx⟩
  | stays => exact ⟨hkind, hfield, hcause, hstat, hidx⟩
  | event _ _ he =>
    cases he with
    | reset =>
      obtain ⟨-, -, hreset, -⟩ := invariantsHoldAtReset
      exact hreset
    | accept => exact ⟨Nat.zero_le _, Nat.zero_le _, Nat.zero_le _, hstat, fun _ => rfl⟩
    | read => exact ⟨hkind, hfield, hcause, hstat, hidx⟩
    | overrun => exact ⟨hkind, hfield, hcause, hstat, hidx⟩
    | operand => exact ⟨hkind, hfield, hcause, hstat, hidx⟩
    | ibuf => exact ⟨hkind, hfield, hcause, hstat, hidx⟩

/-- Settles O58: an acceptance draws a countdown of at most `LAT`, an event lowers it, a completion ends it. -/
theorem latencyStaysBounded : Obligations.LatencyStaysBounded := by
  intro s t hs hstep
  obtain ⟨hle, hzero⟩ := hs
  have htick : s.countdown - 1 ≤ Config.lat ∧ (s.status.busy = false → s.countdown - 1 = 0) :=
    ⟨(Nat.sub_le ..).trans hle, fun hidle => congrArg (· - 1) (hzero hidle)⟩
  cases step_effect hstep with
  | committed => exact ⟨Nat.zero_le _, fun _ => rfl⟩
  | reported => exact ⟨Nat.zero_le _, fun _ => rfl⟩
  | stays => exact ⟨hle, hzero⟩
  | event _ _ he =>
    cases he with
    | reset => exact ⟨Nat.zero_le _, fun _ => rfl⟩
    | accept => exact ⟨latency_le _, nofun⟩
    | read => exact htick
    | overrun => exact htick
    | operand => exact htick
    | ibuf => exact htick

/-- Settles O45: a result write and an `IBUF` write put values where they write and leave the rest, so only reset
takes a value away. -/
theorem onlyResetMakesBytesUnwritten : Obligations.OnlyResetMakesBytesUnwritten := by
  intro s t a hge hlt hstep hwritten hnone
  cases step_effect hstep with
  | committed _ _ =>
    rw [(committed_completeOk _ s).elsewhere a (.inl hlt)] at hnone
    exact absurd hnone hwritten
  | reported => exact absurd hnone hwritten
  | stays => exact absurd hnone hwritten
  | event hturn hpending he =>
    cases he with
    | reset => exact ⟨hturn, _, hpending⟩
    | ibuf =>
      rw [Memory.read_writeBytes] at hnone
      split at hnone
      next hin =>
        rw [List.getElem?_eq_none_iff] at hnone
        omega
      next => exact absurd hnone hwritten
    | read => exact absurd hnone hwritten
    | accept => exact absurd hnone hwritten
    | overrun => exact absurd hnone hwritten
    | operand => exact absurd hnone hwritten

end Sys2Proof.Proofs

namespace Sys2Proof.Proofs

open Sys2Proof.Machine Sys2Proof.Claims

/-! ### Reports (60_exceptions.md R124, R125) -/

/-- Settles O46: of the two ways a completion goes on only the report has `ERR = 1`, and it writes `STATUS` alone. -/
theorem failedCommandsWriteOnlyStatus : Obligations.FailedCommandsWriteOnlyStatus := by
  intro s t h herr
  rcases completeCommand_next h with ⟨_, _, -, rfl⟩ | ⟨e, -, rfl⟩
  · cases herr
  · exact ⟨rfl, rfl, rfl, rfl⟩

/-- Settles O47: every report is one of the table, whose rows are those of the statement. -/
theorem reportsFollowTheCauseTable : Obligations.ReportsFollowTheCauseTable := by
  intro s t h herr
  have hindex : ∀ {idx : Nat}, idx < 64 → (BitVec.ofNat 8 idx).toNat = idx := fun hlt => by
    rw [BitVec.toNat_ofNat, Nat.mod_eq_of_lt (by omega)]
  rcases completeCommand_next h with ⟨_, _, -, rfl⟩ | ⟨e, he, rfl⟩
  · cases herr
  cases he with
  | @operand field idx cause hplace hcause =>
    have hcode : ∀ c ∈ [Cause.empty, .tooLong, .outOfBounds, .nonBinary], 1 ≤ c.code.toNat ∧ c.code.toNat ≤ 4 := by
      decide
    obtain ⟨hpos, hle⟩ := hcode cause hcause
    refine .inl ⟨hpos, hle, rfl, ?_⟩
    rcases hplace with ⟨rfl, hlt⟩ | ⟨rfl, rfl⟩
    · exact .inl ⟨rfl, (hindex hlt).trans_lt hlt⟩
    · exact .inr ⟨rfl, rfl⟩
  | @divisor cause hcause =>
    have hcode : ∀ c ∈ [Cause.divShort, .divLead0], c.code = 5#8 ∨ c.code = 6#8 := by decide
    exact .inr (.inl ⟨hcode cause hcause, rfl, rfl, rfl⟩)
  | blockSize => exact .inr (.inr (.inl ⟨rfl, rfl, rfl, rfl⟩))
  | @dimension cause hcause =>
    have hcode : ∀ c ∈ [Cause.noBlocks, .notMultiple, .cwShort], c.code = 8#8 ∨ c.code = 10#8 ∨ c.code = 11#8 := by
      decide
    exact .inr (.inr (.inr (.inl ⟨hcode cause hcause, rfl, rfl, rfl⟩)))
  | @lenMismatch idx hpos hlt =>
    have hidx : (BitVec.ofNat 8 idx).toNat = idx := hindex hlt
    exact .inr (.inr (.inr (.inr (.inl ⟨rfl, rfl, rfl, hpos.trans_eq hidx.symm, hidx.trans_lt hlt⟩))))
  | illegal c =>
    refine .inr (.inr (.inr (.inr (.inr ⟨?_, rfl, rfl, rfl⟩))))
    cases c with
    | reservedBits => exact .inl rfl
    | badUnit => exact .inr (.inl rfl)
    | badNopd => exact .inr (.inr rfl)

/-! ### Results (30_encoding.md R66) -/

section Defaults
/-! What the result of a command leaves at its default, by the command's mnemonic. -/

variable {i : Instr} {r : Result} (h : Produces i r)

include h

theorem Produces.valid_eq_false (henc : i.mnemonic ∈ [Mnemonic.vrcEnc, .lrcEnc, .crcEnc, .csumEnc, .hamEnc]) :
    r.valid = false := by
  cases h with
  | vrcVer => simp [Instr.mnemonic] at henc
  | lrcVer => simp [Instr.mnemonic] at henc
  | crcVer => simp [Instr.mnemonic] at henc
  | csumVer => simp [Instr.mnemonic] at henc
  | hamVer => simp [Instr.mnemonic] at henc
  | _ => rfl

theorem Produces.parity_eq_false (hne : i.mnemonic ≠ .vrcEnc) : r.parity = false := by
  cases h with
  | vrcEnc => exact absurd rfl hne
  | _ => rfl

theorem Produces.hamEnc_defaults (hne : i.mnemonic ≠ .hamEnc) : r.hamR = 0 ∧ r.hamN = 0 ∧ r.ppos = pposZero := by
  cases h with
  | hamEnc => exact absurd rfl hne
  | _ => exact ⟨rfl, rfl, rfl⟩

theorem Produces.hamVer_defaults (hne : i.mnemonic ≠ .hamVer) : r.hamSyn = 0 ∧ r.hamStat = 0 := by
  cases h with
  | hamVer => exact absurd rfl hne
  | _ => exact ⟨rfl, rfl⟩

theorem Produces.trace_eq_nil (hne : i.mnemonic ∉ [Mnemonic.crcEnc, .csumEnc, .hamEnc]) : r.trace = [] := by
  cases h with
  | crcEnc => simp [Instr.mnemonic] at hne
  | csumEnc => simp [Instr.mnemonic] at hne
  | hamEnc => simp [Instr.mnemonic] at hne
  | _ => rfl

theorem Produces.a_eq_nil (hver : i.mnemonic ∈ [Mnemonic.vrcVer, .crcVer]) : r.a = [] := by
  cases h with
  | vrcVer => rfl
  | crcVer => rfl
  | _ => simp [Instr.mnemonic] at hver

theorem Produces.b_eq_nil (hne : i.mnemonic ∉ [Mnemonic.crcEnc, .crcVer, .csumEnc, .csumVer]) : r.b = [] := by
  cases h with
  | crcEnc => simp [Instr.mnemonic] at hne
  | crcVer => simp [Instr.mnemonic] at hne
  | csumEnc => simp [Instr.mnemonic] at hne
  | csumVer => simp [Instr.mnemonic] at hne
  | _ => rfl

theorem Produces.c_eq_nil (hne : i.mnemonic ∉ [Mnemonic.crcEnc, .crcVer]) : r.c = [] := by
  cases h with
  | crcEnc => simp [Instr.mnemonic] at hne
  | crcVer => simp [Instr.mnemonic] at hne
  | _ => rfl

end Defaults

/-- A region that shows the empty string is all `0x00`, and its `RLEN` is 0. -/
theorem empty_region {t : State} {base : Nat} {len : Word} {bits : BitString} (hnil : bits = [])
    (hlen : len = BitVec.ofNat 32 bits.length)
    (hread : ∀ a < 1024, Memory.read t.mem (base + a) = some (fillChar bits a)) :
    len = 0#32 ∧ ∀ a < 1024, Memory.read t.mem (base + a) = some 0x00#8 := by
  subst hnil
  exact ⟨hlen, hread⟩

/-- Settles O48: a success has committed a result of the command, and each result leaves the rest at its default. -/
theorem successClearsWhatItDoesNotProduce : Obligations.SuccessClearsWhatItDoesNotProduce := by
  intro i s t hexec herr
  rcases exec_next hexec with ⟨r, -, hr, rfl⟩ | ⟨e, -, -, rfl⟩
  · have hcommitted := committed_completeOk r s
    refine ⟨hr.valid_eq_false, hr.parity_eq_false, fun hne => ?_, fun hne => ?_, fun hne => ?_,
      fun hver => empty_region (hr.a_eq_nil hver) rfl hcommitted.obufA,
      fun hne => empty_region (hr.b_eq_nil hne) rfl hcommitted.obufB,
      fun hne => empty_region (hr.c_eq_nil hne) rfl hcommitted.obufC⟩
    · obtain ⟨hR, hN, hppos⟩ := hr.hamEnc_defaults hne
      refine ⟨congrArg (BitVec.ofNat 32) hR, congrArg (BitVec.ofNat 32) hN, fun k => ?_⟩
      rw [completeOk_ppos, hppos]
      exact Vector.getElem_replicate k.isLt
    · obtain ⟨hsyn, hstat⟩ := hr.hamVer_defaults hne
      exact ⟨congrArg (BitVec.ofNat 32) hsyn, congrArg (BitVec.ofNat 32) hstat⟩
    · have hnil := hr.trace_eq_nil hne
      exact ⟨hnil, congrArg (fun l : List TraceRecord => BitVec.ofNat 32 l.length) hnil⟩
  · cases herr

/-- Settles O49: a completion commits or reports, and neither touches what the statement names. -/
theorem commandFrame : Obligations.CommandFrame := by
  intro i s t hexec
  rcases exec_next hexec with ⟨r, -, -, rfl⟩ | ⟨e, -, -, rfl⟩
  · exact ⟨rfl, rfl, rfl, rfl, rfl, rfl, rfl, rfl, rfl, rfl, rfl, (committed_completeOk r s).elsewhere⟩
  · exact ⟨rfl, rfl, rfl, rfl, rfl, rfl, rfl, rfl, rfl, rfl, rfl, fun _ _ => rfl⟩

/-! ### Faults (R129; 70_reset_and_hazards.md R144) -/

/-- Settles O50: `Execute` stops with a fault only where `IBUF` holds an unwritten byte. -/
theorem commandsCompleteWhenIbufIsWritten : Obligations.CommandsCompleteWhenIbufIsWritten := by
  intro s
  simp only [completeCommand_eq_finish]
  have hfault : ∀ f, executeWord s = .error (.fault f) → LegalStop s (.fault f) := fun f =>
    stopsLegally_executeWord (.fault f)
  refine ⟨fun f h => (hfault f (finish_eq_fault _ s f h)).1, fun r => finish_ne_refused _ s r, fun hwritten => ?_⟩
  cases hout : executeWord s with
  | ok r => exact ⟨_, rfl⟩
  | error stop =>
    cases stop with
    | error e => exact ⟨_, rfl⟩
    | fault f =>
      obtain ⟨-, a, hge, hlt, hnone⟩ := hfault f hout
      exact absurd hnone (hwritten a hge hlt)

/-- An LRC command has a legal count of one or more blocks; the other commands always have an operand at `OPD[0]`. -/
def FetchesFirst (i : Instr) : Prop := ∀ even k, (i = .lrcEnc even k ∨ i = .lrcVer even k) → 1 ≤ k ∧ k ≤ 64

theorem executeLrc_of_first {α : Type} {received : State → Execute α} {result : List BitString → α → Result}
    {k : Nat} {s : State} {stop : Stop} (hk : 1 ≤ k ∧ k ≤ 64) (hstop : readOpd s 0 = .error stop) :
    executeLrc received result k s = .error stop := by
  obtain ⟨hpos, hle⟩ := hk
  rw [executeLrc, if_neg (Nat.not_lt.mpr hle), readBlocks_of_stop (bs := []) hle hpos (holdsBlocks_nil s) hstop]
  rfl

/-- A command that fetches `OPD[0]` first ends as that fetch stopped. -/
theorem execute_of_first {i : Instr} {s : State} {stop : Stop} (hi : FetchesFirst i)
    (hstop : readOpd s 0 = .error stop) : execute i s = .error stop := by
  cases i with
  | lrcEnc even k => exact executeLrc_of_first (received := fun _ => .ok ()) (hi even k (.inl rfl)) hstop
  | lrcVer even k => exact executeLrc_of_first (hi even k (.inr rfl)) hstop
  | _ => exact (execute_bind_eq_error _ _ _).mpr (.inl hstop)

/-- A buffer value covers no byte without one (20_memory.md R46). -/
theorem bufferValue_eq_none {s : State} {b : Buffer} {off n j : Nat} (hj : j < n)
    (hnone : bufferByte s (off + j) b = none) : bufferValue s b off n = none := by
  induction n generalizing off j with
  | zero => exact absurd hj (Nat.not_lt_zero j)
  | succ n ih =>
    rw [bufferValue]
    cases j with
    | zero => rw [show bufferByte s off b = none from hnone]
    | succ j =>
      rw [ih (off := off + 1) (Nat.lt_of_succ_lt_succ hj) (by rwa [Nat.add_right_comm])]
      cases bufferByte s off b <;> rfl

/-- Settles O44: reset lists no byte; a read and a fetch that cover an unwritten byte have no value to answer. -/
theorem unwrittenBytesFault : Obligations.UnwrittenBytesFault := by
  refine ⟨fun a _ hlt => unlisted_below_obuf hlt, fun s off n hge hlt halign ⟨j, hj, hnone⟩ => ?_,
    fun s i hi hpos hmax hend hunwritten => ?_⟩
  · have htarget := targetAt_buffer halign (by omega) (findBuffer_ibuf hge hlt)
    have hvalue : bufferValue s .ibuf off.toNat n.bytes = none := bufferValue_eq_none hj hnone
    rw [hostRead, checkAccess_read htarget]
    simp [targetValue, hvalue, Target.isResult]
  · have hfetch : fetchBytes s (descOff s.opd[0]) (descLen s.opd[0]) = none := by
      obtain ⟨j, hj, hnone⟩ := hunwritten
      rw [Nat.add_assoc] at hnone
      exact (fetchBytes_eq_none s _ _).mpr ⟨j, hj, hnone⟩
    have hstop : readOpd s 0 = .error (.fault .uninit) := by
      rw [readOpd_of_lt s (by decide), readOperand_of_fetch_none .opd 0 hpos hmax hend hfetch]
    rw [exec_eq_finish, execute_of_first hi hstop, finish_fault]

/-! ### What the outcome depends on (10_state.md R39, R40) -/

/-- Two states with the same operands: descriptors, `BLKSZ` and the bytes of `IBUF`. -/
structure SameOperands (s u : State) : Prop where
  opd   : s.opd = u.opd
  aux   : s.aux = u.aux
  blksz : s.blksz = u.blksz
  ibuf  : ∀ a, 0x2000 ≤ a → a < 0x3000 → Memory.read s.mem a = Memory.read u.mem a

section Congruence

variable {s u : State} (h : SameOperands s u)

include h

theorem fetchBytes_congr {off n : Nat} (hend : off + n ≤ 4096) : fetchBytes s off n = fetchBytes u off n := by
  induction n generalizing off with
  | zero => rfl
  | succ n ih =>
    have hbyte : ibufByte s off = ibufByte u off :=
      h.ibuf _ (Nat.le_add_right 0x2000 off) (by show 0x2000 + off < 0x3000; omega)
    rw [fetchBytes, fetchBytes, hbyte, ih (by omega)]

theorem readOperand_congr (field : ErrField) (idx : Nat) (d : Word) :
    readOperand s field idx d = readOperand u field idx d := by
  unfold readOperand
  split
  next => rfl
  next =>
    split
    next => rfl
    next =>
      split
      next => rfl
      next hend => rw [fetchBytes_congr h (Nat.not_lt.mp hend)]

theorem readOpd_congr (i : Nat) : readOpd s i = readOpd u i := by
  rw [readOpd, opdAt, h.opd, readOperand_congr h]
  rfl

theorem readAux_congr : readAux s = readAux u := by rw [readAux, readAux, h.aux, readOperand_congr h]

theorem readBlocks_congr (i n : Nat) : readBlocks s i n = readBlocks u i n := by
  induction n generalizing i with
  | zero => rfl
  | succ n ih => rw [readBlocks, readBlocks, readOpd_congr h, ih]

theorem executeOne_congr (result : BitString → Result) : executeOne result s = executeOne result u := by
  rw [executeOne, executeOne, readOpd_congr h]

theorem executeLrc_congr {α : Type} {received : State → Execute α} (hreceived : received s = received u)
    (result : List BitString → α → Result) (k : Nat) :
    executeLrc received result k s = executeLrc received result k u := by
  rw [executeLrc, executeLrc, readBlocks_congr h, hreceived]

theorem executeCrc_congr (rest : BitString → BitString → Execute Result) :
    executeCrc rest s = executeCrc rest u := by
  rw [executeCrc, executeCrc, readOpd_congr h, readAux_congr h]

theorem executeCsum_congr (result : BitString → Nat → Result) : executeCsum result s = executeCsum result u := by
  rw [executeCsum, executeCsum, readOpd_congr h, h.blksz]

/-- The outcome of a command depends on the operands alone. -/
theorem execute_congr (i : Instr) : execute i s = execute i u := by
  cases i with
  | vrcEnc even => exact executeOne_congr h _
  | vrcVer even => exact executeOne_congr h _
  | lrcEnc even k => exact executeLrc_congr h (received := fun _ => .ok ()) rfl _ k
  | lrcVer even k => exact executeLrc_congr h (readAux_congr h) _ k
  | crcEnc => exact executeCrc_congr h _
  | crcVer => exact executeCrc_congr h _
  | csumEnc => exact executeCsum_congr h _
  | csumVer => exact executeCsum_congr h _
  | hamEnc => exact executeOne_congr h _
  | hamVer => exact executeOne_congr h _

theorem executeWord_congr (hcmd : s.cmd = u.cmd) : executeWord s = executeWord u := by
  rw [executeWord, executeWord, hcmd]
  cases decode u.cmd with
  | error c => rfl
  | ok i => exact execute_congr h i

end Congruence

/-- Two commits of one result show the same result bytes. -/
theorem read_obuf_of_committed {s t u v : State} {r : Result} (ht : Committed s t r) (hv : Committed u v r) {a : Nat}
    (hge : 0x3000 ≤ a) (hlt : a < 0x3C00) : Memory.read v.mem a = Memory.read t.mem a := by
  have hregion : (∃ j < 1024, a = 0x3000 + j) ∨ (∃ j < 1024, a = 0x3400 + j) ∨ ∃ j < 1024, a = 0x3800 + j := by
    rcases Nat.lt_or_ge a 0x3400 with h | h
    · exact .inl ⟨a - 0x3000, by omega, by omega⟩
    · rcases Nat.lt_or_ge a 0x3800 with h' | h'
      · exact .inr (.inl ⟨a - 0x3400, by omega, by omega⟩)
      · exact .inr (.inr ⟨a - 0x3800, by omega, by omega⟩)
  rcases hregion with ⟨j, hj, rfl⟩ | ⟨j, hj, rfl⟩ | ⟨j, hj, rfl⟩
  · rw [ht.obufA j hj, hv.obufA j hj]
  · rw [ht.obufB j hj, hv.obufB j hj]
  · rw [ht.obufC j hj, hv.obufC j hj]

/-- Settles O52: both states have one outcome of `Execute`, and each ends as that outcome says. -/
theorem outcomeDependsOnOperandsAlone : Obligations.OutcomeDependsOnOperandsAlone := by
  intro s u hcmd hopd haux hblksz hibuf
  have hout := executeWord_congr ⟨hopd, haux, hblksz, hibuf⟩ hcmd
  simp only [completeCommand_eq_finish, hout]
  refine ⟨fun f => ⟨fun h => ?_, fun h => ?_⟩, fun t ht => ?_⟩
  · rw [finish_eq_fault _ s f h, finish_fault]
  · rw [finish_eq_fault _ u f h, finish_fault]
  · rcases finish_next _ s t ht with ⟨r, hr, rfl⟩ | ⟨e, he, rfl⟩
    · rw [hr]
      refine ⟨_, rfl, rfl, nofun, fun _ => ⟨rfl, rfl, rfl, rfl, rfl, rfl, rfl, rfl, rfl, rfl, rfl, fun a => ?_⟩⟩
      exact read_obuf_of_committed (committed_completeOk r s) (committed_completeOk r u)
    · rw [he]
      exact ⟨_, rfl, rfl, fun _ => ⟨rfl, rfl, rfl, rfl⟩, nofun⟩

/-! ### Equal memories are equal lists (log 1) -/

/-- In a list of rising offsets the entry at an offset is the cell there. -/
theorem entry_eq_some_iff {m : Memory} (hm : m.Pairwise (fun c d => c.1 < d.1)) {a : Nat} {v : Byte} :
    Memory.entry m a = some v ↔ (a, v) ∈ m := by
  induction m with
  | nil => simp
  | cons c m ih =>
    obtain ⟨k, w⟩ := c
    obtain ⟨hk, hm⟩ := List.pairwise_cons.mp hm
    rw [Memory.entry_cons, List.mem_cons]
    split
    next heq =>
      subst heq
      have hnot : (k, v) ∉ m := fun hmem => Nat.lt_irrefl k (hk (k, v) hmem)
      simp [hnot, eq_comm]
    next hne =>
      have hnot : (a, v) ≠ (k, w) := fun heq => hne (congrArg Prod.fst heq).symm
      rw [ih hm, or_iff_right hnot]

/-- A canonical list has a cell for each byte that does not read as unlisted. -/
theorem mem_iff_read {m : Memory} (hm : Memory.wf m) {a : Nat} {v : Byte} :
    (a, v) ∈ m ↔ Memory.read m a = some v ∧ Memory.unlisted a ≠ some v := by
  obtain ⟨hrising, hlisted⟩ := hm
  constructor
  · intro hmem
    refine ⟨?_, (hlisted _ hmem).2⟩
    rw [Memory.read, (entry_eq_some_iff hrising).mpr hmem]
  · rintro ⟨hread, hne⟩
    rw [← entry_eq_some_iff hrising]
    rw [Memory.read] at hread
    split at hread
    next w hentry => exact hentry.trans hread
    next => exact absurd hread hne

/-- Canonical memories that read alike are equal. -/
theorem memory_ext {m n : Memory} (hm : Memory.wf m) (hn : Memory.wf n)
    (hread : ∀ a, Memory.read m a = Memory.read n a) : m = n := by
  have hnodup : ∀ {l : Memory}, Memory.wf l → l.Nodup := fun hl =>
    hl.1.imp fun hlt heq => Nat.ne_of_lt hlt (congrArg Prod.fst heq)
  refine List.Perm.eq_of_pairwise (fun c d _ _ h h' => absurd (Nat.lt_trans h h') (Nat.lt_irrefl _)) hm.1 hn.1
    ((List.perm_ext_iff_of_nodup (hnodup hm) (hnodup hn)).mpr fun ⟨a, v⟩ => ?_)
  rw [mem_iff_read hm, mem_iff_read hn, hread a]

/-- Committing a result again changes nothing. -/
theorem completeOk_completeOk {s : State} (hs : MemoryCanonical s) (r : Result) :
    completeOk r (completeOk r s) = completeOk r s := by
  have honce := committed_completeOk r s
  have htwice := committed_completeOk r (completeOk r s)
  have hmem : (completeOk r (completeOk r s)).mem = (completeOk r s).mem := by
    refine memory_ext (wf_completeOk (wf_completeOk hs r) r) (wf_completeOk hs r) fun a => ?_
    by_cases hobuf : 0x3000 ≤ a ∧ a < 0x3C00
    · exact read_obuf_of_committed honce htwice hobuf.1 hobuf.2
    · exact htwice.elsewhere a (by omega)
  calc
    completeOk r (completeOk r s) = { completeOk r s with mem := (completeOk r (completeOk r s)).mem } := rfl
    _ = completeOk r s := by rw [hmem]

/-- A completion leaves the operands. -/
theorem sameOperands_of_exec {i : Instr} {s t : State} (h : exec i s = .next t) : SameOperands t s := by
  obtain ⟨-, haux, hblksz, -, hopd, -, -, -, -, -, -, helsewhere⟩ := commandFrame i s t h
  exact ⟨hopd, haux, hblksz, fun a _ hlt => helsewhere a (.inl hlt)⟩

/-- Settles O51: the operands are as they were, so the outcome is the same, and making it again changes nothing. -/
theorem commandsAreIdempotent : Obligations.CommandsAreIdempotent := by
  intro i s t hs h
  have hout := execute_congr (sameOperands_of_exec h) i
  rcases exec_next h with ⟨r, hr, -, rfl⟩ | ⟨e, he, -, rfl⟩
  · rw [exec_eq_finish, hout, hr, finish_ok, completeOk_completeOk hs]
  · rw [exec_eq_finish, hout, he]
    rfl

end Sys2Proof.Proofs

namespace Sys2Proof.Proofs

open Sys2Proof.Machine Sys2Proof.Claims

/-! ### Whose step it is (10_state.md R16) -/

/-- With an event pending, an idle core, or one with host steps to come, waits for it. -/
theorem coreTurn_of_pending {s : State} {e : HostEvent} {rest : List HostEvent} (hpending : s.pending = e :: rest)
    (hwait : s.status.busy = false ∨ s.countdown ≠ 0) : coreTurn s = false := by
  rcases hwait with h | h <;> simp [coreTurn, hpending, h]

/-- Outside the core's turn the next event meets the ticked state. -/
theorem step_event {s : State} {e : HostEvent} {rest : List HostEvent} (hturn : coreTurn s = false)
    (hpending : s.pending = e :: rest) : step s = hostEvent e (tick s rest) := by
  rw [step_outside s hturn, outsideTurn, hpending]
  rfl

/-- Settles O2: the event is the next one, and it replaces everything but the outside's own fields. -/
theorem resetEventRestoresTheResetState : Obligations.ResetEventRestoresTheResetState :=
  fun _ _ hturn hpending => step_event hturn hpending

/-- Settles O3: the step is the core's, and the word is legal. -/
theorem stepRunsTheAcceptedCommand : Obligations.StepRunsTheAcceptedCommand := by
  intro s i hbusy hturn hdecode
  rw [step_core s (coreTurn_of_busy hbusy hturn), completeCommand_legal s i hdecode]

/-- Settles O4: the core has no turn, so the step is that of the pending list. -/
theorem stepTakesTheNextHostEvent : Obligations.StepTakesTheNextHostEvent := by
  refine ⟨fun s e rest hpending hwait => step_event (coreTurn_of_pending hpending hwait) hpending,
    fun s hpending hidle => ?_⟩
  rw [step_outside s (by simp [coreTurn, hidle]), outsideTurn, hpending]

/-! ### A command that is polled (60_exceptions.md R121, 70_reset_and_hazards.md R149) -/

theorem run_succ_of_step {M : Host.Core} {s t : M.State} (h : M.step s = .next t) (k : Nat) :
    M.run (k + 1) s = M.run k t := by
  rw [Host.Core.run, h]

theorem run_one (M : Host.Core) (s : M.State) : M.run 1 s = M.step s := by
  rw [Host.Core.run]
  cases M.step s <;> rfl

/-- A pending poll outside the core's turn answers `STATUS` and lowers the countdown. -/
theorem step_poll {s : State} {rest : List HostEvent} (hturn : coreTurn s = false)
    (hpending : s.pending = pollRead :: rest) :
    step s = .next { tick s rest with response := some s.status.word } := by
  obtain ⟨-, -, -, -, hstatus, -, -⟩ := exactRegs_read (tick s rest)
  rw [step_event hturn hpending]
  exact hstatus

/-- While a command with `k` host steps to come is polled at least `k` times, the run takes its completion after `k`
polls. -/
theorem run_polls {k n : Nat} {s : State} {rest : List HostEvent} (hle : k ≤ n) (hbusy : s.status.busy = true)
    (hcount : s.countdown = k) (hpending : s.pending = List.replicate n pollRead ++ rest) :
    ∃ response, Sys2Proof.core.run (k + 1) s =
      completeCommand
        { s with countdown := 0, pending := List.replicate (n - k) pollRead ++ rest, response := response } := by
  induction k generalizing n s with
  | zero =>
    have hsame : { s with countdown := 0, pending := List.replicate n pollRead ++ rest } = s := by
      rw [← hpending, ← hcount]
    have hstep : step s = completeCommand s := step_core s (coreTurn_of_busy hbusy (.inl hcount))
    exact ⟨s.response, (run_one Sys2Proof.core s).trans (hstep.trans (congrArg completeCommand hsame.symm))⟩
  | succ k ih =>
    obtain ⟨n, rfl⟩ := Nat.exists_eq_add_of_le' (Nat.one_le_of_lt hle)
    rw [List.replicate_succ, List.cons_append] at hpending
    have hturn := coreTurn_of_pending hpending (.inr (hcount ▸ Nat.succ_ne_zero k))
    have hcount : s.countdown - 1 = k := by omega
    obtain ⟨response, hrun⟩ := ih
      (s := { tick s (List.replicate n pollRead ++ rest) with response := some s.status.word })
      (Nat.le_of_succ_le_succ hle) hbusy hcount rfl
    refine ⟨response, (run_succ_of_step (M := Sys2Proof.core) (step_poll hturn hpending) (k + 1)).trans
      (hrun.trans ?_)⟩
    rw [Nat.add_sub_add_right]
    rfl

/-- Settles O60: the write is accepted with some `k ≤ LAT`, and the polls that follow are `k` or more. -/
theorem acceptedCommandCompletesWithinLat : Obligations.AcceptedCommandCompletesWithinLat := by
  intro s v n rest hidle hpending hlat
  have hle := latency_le s.draws
  have hturn := coreTurn_of_pending hpending (.inl hidle)
  have hwrite := hostWrite_cmd_idle v (s := tick s (List.replicate n pollRead ++ rest)) hidle
  obtain ⟨response, hrun⟩ := run_polls (hle.trans hlat)
    (s := { acceptCommand v (Config.latency s.draws) (tick s (List.replicate n pollRead ++ rest)) with
      draws := s.draws + 1, response := none }) rfl rfl rfl
  exact ⟨Config.latency s.draws, hle, response,
    (run_succ_of_step (M := Sys2Proof.core) ((step_event hturn hpending).trans hwrite) _).trans hrun⟩

/-! ### Registers the host writes (10_state.md R25 to R28, R34; 60_exceptions.md R120) -/

/-- Settles O33: an idle core takes the word with a drawn `k`, a busy one drops it. -/
theorem commandIssueIsAcceptedOrDropped : Obligations.CommandIssueIsAcceptedOrDropped :=
  ⟨fun s v hidle => ⟨Config.latency s.draws, latency_le s.draws, hostWrite_cmd_idle v hidle⟩,
    fun _ v hbusy => hostWrite_cmd_busy v hbusy⟩

/-- A 16-bit register of a word shows the word with its upper half 0 (R20). -/
theorem low_half_eq_and (v : Word) :
    BitVec.ofNat 32 (BitVec.ofNat 16 v.toNat).toNat = v &&& 0x0000FFFF#32 := by
  have hlow := Nat.and_two_pow_sub_one_eq_mod v.toNat 16
  have hlt : v.toNat % 2 ^ 16 < 2 ^ 32 := (Nat.mod_lt _ (by decide)).trans (by decide)
  rw [← BitVec.toNat_inj, BitVec.toNat_and, BitVec.toNat_ofNat, BitVec.toNat_ofNat, Nat.mod_eq_of_lt hlt, ← hlow]
  rfl

/-- The descriptor registers' offsets name them, four bytes each (R21). -/
theorem regAt_opd_index (i : Fin 64) : regAt (0x100 + 4 * i.val) = some (.opd i) := by
  have hindex : (0x100 + 4 * i.val - 0x100) / 4 = i.val := by omega
  rw [regAt_opd (by omega) (by omega)]
  exact congrArg (fun k => some (Reg.opd k)) (Fin.ext hindex)

/-- Settles O35: each register is writable there, is set alone, and reads back exactly. -/
theorem operandRegisterWritesTakeEffect : Obligations.OperandRegisterWritesTakeEffect := by
  refine ⟨fun s v hidle => ⟨?_, ?_, fun i => ?_⟩, fun s v => ?_⟩
  · have hwrite := hostWrite_reg (off := 0x010) (r := .aux) v rfl (by decide) rfl rfl (.inl hidle)
    obtain ⟨haux, -⟩ := exactRegs_read { s with aux := v, response := none }
    exact ⟨_, hwrite, rfl, haux⟩
  · have hwrite := hostWrite_reg (off := 0x014) (r := .blksz) v rfl (by decide) rfl rfl (.inl hidle)
    obtain ⟨-, hblksz, -⟩ := exactRegs_read { s with blksz := BitVec.ofNat 16 v.toNat, response := none }
    rw [writeReg_blksz, ← BitVec.ofNat_toNat] at hwrite
    exact ⟨_, hwrite, rfl, low_half_eq_and v ▸ hblksz⟩
  · have hwrite := hostWrite_reg v (by omega) (by omega) (regAt_opd_index i) rfl (.inl hidle)
    have hset : (s.opd.set i v)[i] = v := Vector.getElem_set_self i.isLt
    have hread := readsAs_opd { s with opd := s.opd.set i v, response := none } i
    dsimp only at hread
    rw [hset] at hread
    exact ⟨_, hwrite, rfl, hset, fun j hne => Vector.getElem_set_ne i.isLt j.isLt fun h => hne (Fin.ext h.symm),
      hread⟩
  · obtain ⟨-, -, htidx, -⟩ := exactRegs_read { s with tidx := BitVec.ofNat 16 v.toNat, response := none }
    exact ⟨_, hostWrite_tidx v s, rfl, low_half_eq_and v ▸ htidx⟩

end Sys2Proof.Proofs

namespace Sys2Proof.Proofs

open Sys2Proof.Machine Sys2Proof.Claims

/-! ### The words of `STATUS` and `RFLAGS` (10_state.md R24, R31) -/

/-- The fields of `STATUS` stand at their places, and nothing else does. -/
theorem toNat_statusWord (st : Status) :
    st.word.toNat =
      st.busy.toNat + 2 * st.done.toNat + 4 * st.err.toNat + 8 * st.ovr.toNat + 256 * st.errKind.toNat +
        4096 * st.errField.toNat + 65536 * st.errIdx.toNat + 16777216 * st.errCause.toNat := by
  have hbusy := st.busy.toNat_le
  have hdone := st.done.toNat_le
  have herr := st.err.toNat_le
  have hovr := st.ovr.toNat_le
  rw [Status.word, BitVec.toNat_ofNat, Nat.mod_eq_of_lt (by omega)]

/-- A bit of a word, by the word's value. -/
theorem getLsbD_eq_of_toNat {w : Word} {i : Nat} {b : Bool} (h : w.toNat / 2 ^ i % 2 = b.toNat) :
    w.getLsbD i = b := by
  rw [← BitVec.testBit_toNat, Nat.testBit_eq_decide_div_mod_eq, h]
  cases b <;> rfl

/-- A field of a word, by the word's value. -/
theorem extractLsb'_eq_of_toNat {w : Word} {i n : Nat} {x : BitVec n} (h : w.toNat / 2 ^ i % 2 ^ n = x.toNat) :
    w.extractLsb' i n = x := by
  rw [← BitVec.toNat_inj, BitVec.extractLsb'_toNat, Nat.shiftRight_eq_div_pow, h]

theorem fields_statusWord (st : Status) :
    st.word.getLsbD 1 = st.done ∧ st.word.getLsbD 2 = st.err ∧ st.word.getLsbD 3 = st.ovr ∧
      st.word.extractLsb' 4 4 = 0#4 ∧ st.word.extractLsb' 8 4 = st.errKind ∧
      st.word.extractLsb' 12 4 = st.errField ∧ st.word.extractLsb' 16 8 = st.errIdx ∧
      st.word.extractLsb' 24 8 = st.errCause := by
  have hword := toNat_statusWord st
  have hbusy := st.busy.toNat_le
  have hdone := st.done.toNat_le
  have herr := st.err.toNat_le
  have hovr := st.ovr.toNat_le
  refine ⟨getLsbD_eq_of_toNat ?_, getLsbD_eq_of_toNat ?_, getLsbD_eq_of_toNat ?_,
    extractLsb'_eq_of_toNat (x := 0#4) (show _ = 0 from ?_), extractLsb'_eq_of_toNat ?_,
    extractLsb'_eq_of_toNat ?_, extractLsb'_eq_of_toNat ?_, extractLsb'_eq_of_toNat ?_⟩
  all_goals omega

/-- The parity position registers' offsets name them, four bytes each (10_state.md R21). -/
theorem regAt_ppos (k : Fin 16) : regAt (0x040 + 4 * k.val) = some (.ppos k) := by
  have hindex : (0x040 + 4 * k.val - 0x040) / 4 = k.val := by omega
  rw [regAt, dif_pos (by omega)]
  exact congrArg (fun j => some (Reg.ppos j)) (Fin.ext hindex)

/-- Settles O36: each offset names its register, and an idle core shows the register's value. -/
theorem registerReadsFollowTheMap : Obligations.RegisterReadsFollowTheMap := by
  intro s hidle
  obtain ⟨haux, hblksz, htidx, hcmd, hstatus, hid, hversion⟩ := exactRegs_read s
  have hread : ∀ (off : Nat) (r : Reg), off % 4 = 0 → off < 0x300 → regAt off = some r →
      ReadsAs s (BitVec.ofNat 16 off) .w4 (r.value s) :=
    fun _ _ halign hlt hr => readsAs_reg halign hlt hr (.inl hidle)
  have hbusy := (getLsbD_zero_statusWord s.status).trans hidle
  exact ⟨hid, hversion, hcmd, ⟨s.status.word, hstatus, hbusy, fields_statusWord s.status⟩, haux, hblksz, htidx,
    hread 0x01C .tcount rfl (by decide) rfl, hread 0x020 .rlenA rfl (by decide) rfl,
    hread 0x024 .rlenB rfl (by decide) rfl, hread 0x028 .rlenC rfl (by decide) rfl,
    hread 0x02C .rflags rfl (by decide) rfl, hread 0x030 .hamR rfl (by decide) rfl,
    hread 0x034 .hamN rfl (by decide) rfl, hread 0x038 .hamSyn rfl (by decide) rfl,
    hread 0x03C .hamStat rfl (by decide) rfl,
    fun k => hread _ (.ppos k) (by omega) (by omega) (regAt_ppos k), readsAs_opd s⟩

/-! ### The map by kind of place (10_state.md R21, 20_memory.md R43) -/

/-- The offsets R128 forbids the host to write. -/
def ReadOnlyOffset (off : Nat) : Prop :=
  off < 0x008 ∨ (0x01C ≤ off ∧ off < 0x080) ∨ (0x200 ≤ off ∧ off < 0x220) ∨
    (0x400 ≤ off ∧ off < 0x1400) ∨ (0x3000 ≤ off ∧ off < 0x3C00)

/-- What an aligned offset below `0x300` names: nothing where R21 names nothing, else a register of which the map says
whether it is writable and whether it is result state. -/
theorem regAt_kinds : ∀ i < 12, ∀ j < 16,
    (regAt (64 * i + 4 * j)).map (fun r => (r.writable, r.isResult)) =
      if (0x080 ≤ 64 * i + 4 * j ∧ 64 * i + 4 * j < 0x100) ∨ 0x220 ≤ 64 * i + 4 * j then none
      else if (0x01C ≤ 64 * i + 4 * j ∧ 64 * i + 4 * j < 0x080) ∨ 0x200 ≤ 64 * i + 4 * j then some (false, true)
      else some (decide (0x008 ≤ 64 * i + 4 * j), false) := by
  decide

section Aligned

variable {off : Nat} (halign : off % 4 = 0) (hlt : off < 0x300)

include halign hlt

theorem regAt_kinds_of_aligned :
    (regAt off).map (fun r => (r.writable, r.isResult)) =
      if (0x080 ≤ off ∧ off < 0x100) ∨ 0x220 ≤ off then none
      else if (0x01C ≤ off ∧ off < 0x080) ∨ 0x200 ≤ off then some (false, true)
      else some (decide (0x008 ≤ off), false) := by
  have hkinds := regAt_kinds (off / 64) (by omega) (off / 4 % 16) (by omega)
  rwa [show 64 * (off / 64) + 4 * (off / 4 % 16) = off by omega] at hkinds

theorem regAt_eq_none_iff : regAt off = none ↔ (0x080 ≤ off ∧ off < 0x100) ∨ 0x220 ≤ off := by
  rw [← Option.map_eq_none_iff, regAt_kinds_of_aligned halign hlt]
  split
  next hreserved => exact iff_of_true rfl hreserved
  next hnamed => exact iff_of_false (by split <;> nofun) hnamed

theorem kinds_of_regAt {r : Reg} (hr : regAt off = some r) :
    (r.writable = false ↔ ReadOnlyOffset off) ∧ (r.isResult = true ↔ ResultOffset off) := by
  have hkinds := regAt_kinds_of_aligned halign hlt
  have hnamed : ¬ ((0x080 ≤ off ∧ off < 0x100) ∨ 0x220 ≤ off) := fun hreserved => by
    rw [(regAt_eq_none_iff halign hlt).mpr hreserved] at hr
    cases hr
  rw [hr, Option.map_some, if_neg hnamed] at hkinds
  unfold ReadOnlyOffset ResultOffset
  split at hkinds
  next hresult =>
    obtain ⟨hw, hres⟩ := Prod.mk.inj (Option.some.inj hkinds)
    rw [hw, hres]
    exact ⟨iff_of_true rfl (by omega), iff_of_true rfl (by omega)⟩
  next hplain =>
    obtain ⟨hw, hres⟩ := Prod.mk.inj (Option.some.inj hkinds)
    rw [hw, hres, decide_eq_false_iff_not]
    exact ⟨by omega, iff_of_false Bool.false_ne_true (by omega)⟩

end Aligned

/-- No region holds an offset exactly when the search finds none. -/
theorem findBuffer_eq_none_iff {rows : List BufferRow} {a : Nat} :
    findBuffer rows a = none ↔ ∀ r ∈ rows, ¬ (r.base ≤ a ∧ a < r.base + r.size) := by
  induction rows with
  | nil => simp [findBuffer]
  | cons r rows ih =>
    rw [findBuffer, List.forall_mem_cons, ← ih]
    split
    next hin => simp [hin]
    next hout => simp [hout]

theorem findBuffer_bufferRows_eq_none_iff {a : Nat} :
    findBuffer bufferRows a = none ↔ a < 0x400 ∨ (0x1400 ≤ a ∧ a < 0x2000) ∨ 0x3C00 ≤ a := by
  rw [findBuffer_eq_none_iff]
  simp only [bufferRows, Config.trPosBase, Config.trS0Base, Config.trS1Base, Config.trS2Base, Config.ibufBase,
    Config.obufABase, Config.obufBBase, Config.obufCBase, Config.tposMax, Config.tstrSize, Config.ibufSize,
    Config.obufSize, List.forall_mem_cons, List.not_mem_nil, false_imp_iff, implies_true, and_true]
  omega

theorem buffer_eq_ibuf_iff {a : Nat} {b : Buffer} (hb : findBuffer bufferRows a = some b) :
    b = .ibuf ↔ 0x2000 ≤ a ∧ a < 0x3000 := by
  refine ⟨?_, fun ⟨hge, hlt⟩ => Option.some.inj (hb.symm.trans (findBuffer_ibuf hge hlt))⟩
  rintro rfl
  exact ibuf_bounds_of_findBuffer hb

/-- An access that reaches no place is one R128 forbids in both directions. -/
theorem targetAt_eq_none_iff {off : Nat} {n : Width} :
    targetAt off n = none ↔ BadAccess off n.bytes .read := by
  have hbytes : n = .w4 ↔ n.bytes = 4 := by cases n <;> decide
  unfold BadAccess targetAt
  simp only [hbytes, reduceCtorEq, false_and, or_false]
  by_cases hreg : off < regEnd
  · have hlt : off < 0x300 := hreg
    rw [if_pos hreg]
    split
    next halign =>
      rw [Option.map_eq_none_iff, regAt_eq_none_iff halign.2 hlt]
      omega
    next hbad => exact iff_of_true rfl (.inl ⟨hlt, by omega⟩)
  · have hge : 0x300 ≤ off := Nat.not_lt.mp hreg
    rw [if_neg hreg]
    split
    next halign =>
      rw [Option.map_eq_none_iff, findBuffer_bufferRows_eq_none_iff]
      omega
    next hbad => exact iff_of_true rfl (by omega)

/-- A place the host may not write is one R128 forbids to write; one whose busy read is a draw is result state. -/
theorem kinds_of_targetAt {off : Nat} {n : Width} {t : Target} (ht : targetAt off n = some t) :
    (t.writable = false ↔ ReadOnlyOffset off) ∧ (t.isResult = true ↔ ResultOffset off) := by
  rcases targetAt_eq_some_iff.mp ht with ⟨r, rfl, hlt, -, halign, hr⟩ | ⟨b, rfl, hge, -, hb⟩
  · exact kinds_of_regAt halign hlt hr
  · have hnamed : ¬ (off < 0x400 ∨ (0x1400 ≤ off ∧ off < 0x2000) ∨ 0x3C00 ≤ off) := fun hreserved => by
      rw [findBuffer_bufferRows_eq_none_iff.mpr hreserved] at hb
      cases hb
    have hibuf := buffer_eq_ibuf_iff hb
    have hkinds : (Target.buffer b).writable = (b == .ibuf) ∧ (Target.buffer b).isResult = !(b == .ibuf) :=
      ⟨rfl, rfl⟩
    unfold ReadOnlyOffset ResultOffset
    rw [hkinds.1, hkinds.2, Bool.not_eq_true', beq_eq_false_iff_ne, ne_eq, hibuf]
    omega

/-! ### Bus errors (60_exceptions.md R128) -/

theorem hostRead_eq_busError_iff {s : State} {off : BitVec 16} {n : Width} :
    hostRead off n s = .fault (.busError off n .read) ↔ targetAt off.toNat n = none := by
  cases ht : targetAt off.toNat n with
  | none => simp [hostRead, checkAccess, ht]
  | some t =>
    refine iff_of_false (fun h => ?_) (Option.some_ne_none t)
    rw [hostRead, checkAccess_read ht] at h
    dsimp only at h
    split_ifs at h with hdraw
    cases hv : targetValue s off.toNat n t with
    | ok v => rw [hv] at h; cases h
    | error f =>
      rw [hv] at h
      obtain rfl := Host.Outcome.fault.inj h
      cases t with
      | reg r => cases hv
      | buffer b =>
        rw [targetValue] at hv
        split at hv <;> cases hv

theorem hostWrite_eq_busError_iff {s : State} {off : BitVec 16} {n : Width} {v : Word} :
    hostWrite off n v s = .fault (.busError off n .write) ↔
      targetAt off.toNat n = none ∨ ∃ t, targetAt off.toNat n = some t ∧ t.writable = false := by
  cases ht : targetAt off.toNat n with
  | none => simp [hostWrite, checkAccess, ht]
  | some t =>
    cases hw : t.writable with
    | false => simp [hostWrite, checkAccess, ht, hw]
    | true =>
      rw [hostWrite, checkAccess_write ht hw]
      by_cases hhazard : s.status.busy = true ∧ t.isOperand = true <;> simp [hhazard, hw]

theorem badAccess_write_iff {off n : Nat} :
    BadAccess off n .write ↔ BadAccess off n .read ∨ ReadOnlyOffset off := by
  simp only [BadAccess, ReadOnlyOffset, reduceCtorEq, true_and, false_and, or_false, or_assoc]

/-- Settles O37: an access that reaches no place, or a write of a place the host may not write, and no other. -/
theorem busErrorsExactly : Obligations.BusErrorsExactly := by
  intro s off n
  refine ⟨hostRead_eq_busError_iff.trans targetAt_eq_none_iff, fun v => ?_⟩
  rw [hostWrite_eq_busError_iff, badAccess_write_iff, ← targetAt_eq_none_iff]
  cases ht : targetAt off.toNat n with
  | none => simp
  | some t => simp [(kinds_of_targetAt ht).1]

/-- Settles O39: the offset names a place of result state, so the busy read is a draw, cut to the access's width. -/
theorem busyResultReadsReturnSomeValue : Obligations.BusyResultReadsReturnSomeValue := by
  intro s off n hbusy hresult hgood
  obtain ⟨t, ht⟩ := Option.ne_none_iff_exists'.mp (mt targetAt_eq_none_iff.mp hgood)
  refine ⟨drawnValue s n, ?_, ?_⟩
  · rw [drawnValue, BitVec.toNat_ofNat]
    exact (Nat.mod_le ..).trans_lt (Nat.mod_lt _ (Nat.two_pow_pos _))
  · rw [hostRead, checkAccess_read ht]
    exact if_pos ⟨hbusy, (kinds_of_targetAt ht).2.mpr hresult⟩

/-! ### Buffer reads (20_memory.md R46, R49, R50) -/

/-- The result buffers show the byte store. -/
theorem findBuffer_obuf {a : Nat} (hge : 0x3000 ≤ a) (hlt : a < 0x3C00) :
    ∃ b, findBuffer bufferRows a = some b ∧ ∀ s, bufferByte s a b = Memory.read s.mem a := by
  rcases Nat.lt_or_ge a 0x3400 with h | h
  · exact ⟨_, findBuffer_of_bufferRow (r := ⟨.obufA, 0x3000, 0x400⟩) (by decide) hge h, fun _ => rfl⟩
  · rcases Nat.lt_or_ge a 0x3800 with h' | h'
    · exact ⟨_, findBuffer_of_bufferRow (r := ⟨.obufB, 0x3400, 0x400⟩) (by decide) h h', fun _ => rfl⟩
    · exact ⟨_, findBuffer_of_bufferRow (r := ⟨.obufC, 0x3800, 0x400⟩) (by decide) h' hlt, fun _ => rfl⟩

/-- Settles O40: both regions show the byte store, and the result buffers hold a byte at every offset. -/
theorem bufferByteReadsReturnTheStoredByte : Obligations.BufferByteReadsReturnTheStoredByte := by
  refine fun s => ⟨fun a hge hlt b hb => ?_, fun hidle a hge hlt => ?_⟩
  · exact readsAs_bufferByte (.inr rfl) (by omega) (by omega) (findBuffer_ibuf hge hlt) hb
  · obtain ⟨b, hb⟩ := Option.isSome_iff_exists.mp (Memory.read_obuf_isSome s.mem a ⟨hge, hlt⟩)
    obtain ⟨buffer, hbuffer, hbyte⟩ := findBuffer_obuf hge hlt
    exact ⟨b, hb, readsAs_bufferByte (.inl hidle) (by omega) (by omega) hbuffer ((hbyte s).trans hb)⟩

/-- An aligned access lies inside one region: every region starts and ends at a multiple of 4 (log 23). -/
theorem findBuffer_add {off j : Nat} {n : Width} {b : Buffer} (halign : off % n.bytes = 0) (hj : j < n.bytes)
    (hb : findBuffer bufferRows off = some b) : findBuffer bufferRows (off + j) = some b := by
  have haligned : ∀ r ∈ bufferRows, r.base % 4 = 0 ∧ r.size % 4 = 0 := by decide
  obtain ⟨r, hr, rfl, hge, hlt⟩ := exists_row_of_findBuffer hb
  obtain ⟨hbase, hsize⟩ := haligned r hr
  refine findBuffer_of_bufferRow hr (by omega) ?_
  cases n <;> simp only [Width.bytes] at halign hj <;> omega

theorem readsAs_inj {s : State} {off : BitVec 16} {n : Width} {v w : Word} (hv : ReadsAs s off n v)
    (hw : ReadsAs s off n w) : v = w := by
  have hstate := Host.Outcome.next.inj (hv.symm.trans hw)
  exact Option.some.inj (congrArg State.response hstate)

/-- A byte read that answers a value has found the byte of that value. -/
theorem bufferByte_of_readsAs {s : State} {off : Nat} {b : Buffer} {v : Word}
    (hexact : s.status.busy = false ∨ (Target.buffer b).isResult = false) (hge : 0x300 ≤ off) (hlt : off < 2 ^ 16)
    (hb : findBuffer bufferRows off = some b) (hv : ReadsAs s (BitVec.ofNat 16 off) .w1 v) :
    ∃ x, bufferByte s off b = some x ∧ v = BitVec.ofNat 32 x.toNat := by
  cases hx : bufferByte s off b with
  | some x => exact ⟨x, rfl, readsAs_inj hv (readsAs_bufferByte hexact hge hlt hb hx)⟩
  | none =>
    have hoff := toNat_windowOffset hlt
    have htarget : targetAt (BitVec.ofNat 16 off).toNat .w1 = some (.buffer b) := by
      rw [hoff]
      exact targetAt_buffer (Nat.mod_one off) hge hb
    have hvalue : bufferValue s b off 1 = none := bufferValue_eq_none Nat.one_pos hx
    have hnoDraw : ¬ (s.status.busy = true ∧ (Target.buffer b).isResult = true) := by
      rcases hexact with h | h <;> simp [h]
    rw [ReadsAs, hostRead, checkAccess_read htarget] at hv
    simp [hnoDraw, targetValue, hoff, Width.bytes, hvalue] at hv

/-- Bytes below offset `n` weigh less than byte `n`. -/
theorem sum_bytes_lt (x : Nat → Byte) (n : Nat) :
    ((List.range n).map fun j => (x j).toNat * 2 ^ (8 * j)).sum < 2 ^ (8 * n) := by
  induction n with
  | zero => exact Nat.one_pos
  | succ n ih =>
    have hbyte : (x n).toNat * 2 ^ (8 * n) ≤ 255 * 2 ^ (8 * n) :=
      Nat.mul_le_mul_right _ (Nat.le_of_lt_succ (x n).isLt)
    rw [List.range_succ, List.map_append, List.sum_append, List.map_singleton, List.sum_singleton, Nat.mul_succ,
      Nat.pow_add]
    omega

/-- So the word of bytes is built byte by byte without a carry. -/
theorem littleEndian_succ (x : Nat → Byte) {n : Nat} (hn : n < 4) :
    littleEndian x (n + 1) = littleEndian x n ||| BitVec.ofNat 32 (x n).toNat <<< (8 * n) := by
  have hlow := sum_bytes_lt x n
  have hall := sum_bytes_lt x (n + 1)
  have hpow : 2 ^ (8 * (n + 1)) ≤ 2 ^ 32 := Nat.pow_le_pow_right (by decide) (by omega)
  rw [List.range_succ, List.map_append, List.sum_append, List.map_singleton, List.sum_singleton] at hall
  have hbyte := (x n).isLt
  rw [← BitVec.toNat_inj, littleEndian, littleEndian, List.range_succ, List.map_append, List.sum_append,
    List.map_singleton, List.sum_singleton, BitVec.toNat_or, BitVec.toNat_shiftLeft, BitVec.toNat_ofNat,
    BitVec.toNat_ofNat, BitVec.toNat_ofNat, Nat.shiftLeft_eq, Nat.mod_eq_of_lt (by omega),
    Nat.mod_eq_of_lt (by omega), Nat.mod_eq_of_lt (a := (x n).toNat) (by omega), Nat.mod_eq_of_lt (by omega),
    Nat.add_comm, Nat.mul_comm, Nat.two_pow_add_eq_or_of_lt hlow, Nat.or_comm]

theorem littleEndian_two (x : Nat → Byte) :
    littleEndian x 2 = BitVec.ofNat 32 (x 0).toNat ||| BitVec.ofNat 32 (x 1).toNat <<< 8 := by
  have hone : littleEndian x 1 = BitVec.ofNat 32 (x 0).toNat := by simp [littleEndian]
  rw [littleEndian_succ x (by decide), hone]

theorem littleEndian_four (x : Nat → Byte) :
    littleEndian x 4 =
      BitVec.ofNat 32 (x 0).toNat ||| BitVec.ofNat 32 (x 1).toNat <<< 8 |||
        BitVec.ofNat 32 (x 2).toNat <<< 16 ||| BitVec.ofNat 32 (x 3).toNat <<< 24 := by
  rw [littleEndian_succ x (by decide), littleEndian_succ x (by decide), littleEndian_two]

/-- A wide read whose byte reads all answer is made of the bytes they found. -/
theorem readsAs_wide {s : State} {off : Nat} {n : Width} {b : Buffer} {v : Nat → Word}
    (hexact : s.status.busy = false ∨ (Target.buffer b).isResult = false) (halign : off % n.bytes = 0)
    (hge : 0x300 ≤ off) (hlt : off < 0x3C00) (hb : findBuffer bufferRows off = some b)
    (hv : ∀ j < n.bytes, ReadsAs s (BitVec.ofNat 16 (off + j)) .w1 (v j)) :
    ∃ x : Nat → Byte, (∀ j < n.bytes, v j = BitVec.ofNat 32 (x j).toNat) ∧
      ReadsAs s (BitVec.ofNat 16 off) n (littleEndian x n.bytes) := by
  have hbytes : ∀ j, ∃ x, j < n.bytes → bufferByte s (off + j) b = some x ∧ v j = BitVec.ofNat 32 x.toNat := by
    intro j
    by_cases hj : j < n.bytes
    · have hsmall : n.bytes ≤ 4 := by cases n <;> decide
      obtain ⟨x, hx⟩ := bufferByte_of_readsAs hexact (by omega) (by omega) (findBuffer_add halign hj hb) (hv j hj)
      exact ⟨x, fun _ => hx⟩
    · exact ⟨0#8, fun h => absurd h hj⟩
  choose x hx using hbytes
  exact ⟨x, fun j hj => (hx j hj).2,
    readsAs_buffer hexact halign hge (by omega) hb (bufferValue_eq_sum fun j hj => (hx j hj).1)⟩

/-- Settles O41: the byte reads show the bytes of the region, which a wide read puts together little-endian. -/
theorem wideReadsSeeTheSameBytes : Obligations.WideReadsSeeTheSameBytes := by
  intro s off v hregion
  obtain ⟨b, hb⟩ : ∃ b, findBuffer bufferRows off = some b :=
    Option.ne_none_iff_exists'.mp (mt findBuffer_bufferRows_eq_none_iff.mp (by omega))
  have hexact : s.status.busy = false ∨ (Target.buffer b).isResult = false := by
    rcases hregion with hibuf | ⟨hidle, -⟩
    · obtain rfl := (buffer_eq_ibuf_iff hb).mpr hibuf
      exact .inr rfl
    · exact .inl hidle
  refine ⟨fun halign hv => ?_, fun halign hv => ?_⟩
  · obtain ⟨x, hx, hread⟩ := readsAs_wide (n := .w2) hexact halign (by omega) (by omega) hb hv
    rw [hx 0 (by decide), hx 1 (by decide), ← littleEndian_two]
    exact hread
  · obtain ⟨x, hx, hread⟩ := readsAs_wide (n := .w4) hexact halign (by omega) (by omega) hb hv
    rw [hx 0 (by decide), hx 1 (by decide), hx 2 (by decide), hx 3 (by decide), ← littleEndian_four]
    exact hread

end Sys2Proof.Proofs

namespace Sys2Proof.Proofs

open Sys2Proof.Machine Sys2Proof.Claims

/-! ### What a result region holds (40_bitstring.md R73) -/

/-- The characters of a bit tell it. -/
theorem fillChar_inj {s t : BitString} {i : Nat} (hs : i < s.length) (ht : i < t.length)
    (h : fillChar s i = fillChar t i) : s[i] = t[i] := by
  rw [fillChar, fillChar, List.getElem?_eq_getElem hs, List.getElem?_eq_getElem ht] at h
  cases hb : s[i] <;> cases hc : t[i] <;> simp [hb, hc] at h ⊢

/-- A region that shows a string holds that string and no other. -/
theorem holdsResult_iff {u : State} {base : Nat} {bits c : BitString} (hlen : bits.length ≤ 1024)
    (hread : ∀ a < 1024, Memory.read u.mem (base + a) = some (fillChar bits a)) :
    HoldsResult u base (BitVec.ofNat 32 bits.length) c ↔ c = bits := by
  rw [HoldsResult, toNat_word_of_le hlen]
  constructor
  · rintro ⟨hclen, hc⟩
    refine List.ext_getElem hclen fun i hi hi' => fillChar_inj hi hi' (Option.some.inj ?_)
    rw [← hc i hi, hread i (by omega)]
  · rintro rfl
    exact ⟨rfl, fun i hi => hread i (by omega)⟩

/-- What an encoder left in `OBUF_A` is the result's string. -/
theorem eq_of_holdsResult_a {s u : State} {r : Result} {c : BitString} (hcommitted : Committed s u r)
    (hfits : r.a.length ≤ 1024) (hc : HoldsResult u 0x3000 u.rlenA c) : c = r.a := by
  rw [hcommitted.rlenA] at hc
  exact (holdsResult_iff hfits hcommitted.obufA).mp hc

/-! ### Bit-strings as polynomials over GF(2) (43_crc.md R90) -/

open Polynomial

theorem toPoly_append (s t : BitString) : toPoly (s ++ t) = toPoly s * X ^ t.length + toPoly t := by
  induction t using List.reverseRecOn with
  | nil => simp [toPoly]
  | append_singleton t b ih =>
    have hsnoc : ∀ u : BitString, toPoly (u ++ [b]) = toPoly u * X + C (if b then 1 else 0) := fun u => by
      simp [toPoly, List.foldl_append]
    rw [← List.append_assoc, hsnoc, hsnoc, ih, List.length_append, List.length_singleton, pow_succ]
    ring

theorem toPoly_singleton (b : Bool) : toPoly [b] = C (if b then 1 else 0) := by simp [toPoly]

/-- The first bit is the coefficient of the highest power. -/
theorem toPoly_cons (b : Bool) (s : BitString) :
    toPoly (b :: s) = C (if b then 1 else 0) * X ^ s.length + toPoly s := by
  rw [← List.singleton_append, toPoly_append, toPoly_singleton]

theorem toPoly_false_cons (s : BitString) : toPoly (false :: s) = toPoly s := by simp [toPoly_cons]

theorem degree_toPoly_lt (s : BitString) : (toPoly s).degree < s.length := by
  induction s with
  | nil => simp [toPoly]
  | cons b s ih =>
    rw [toPoly_cons, List.length_cons]
    refine (degree_add_le _ _).trans_lt (max_lt ?_ (ih.trans (by exact_mod_cast Nat.lt_succ_self _)))
    exact (degree_C_mul_X_pow_le _ _).trans_lt (by exact_mod_cast Nat.lt_succ_self _)

/-- A string that leads with 1 has the degree of its first bit. -/
theorem degree_toPoly_of_lead {s : BitString} (hlead : s.head? = some true) :
    (toPoly s).degree = ((s.length - 1 : Nat) : WithBot Nat) := by
  obtain ⟨t, rfl⟩ := List.head?_eq_some_iff.mp hlead
  have hone : (C (if true then 1 else 0) : (ZMod 2)[X]) = 1 := by simp
  have hlt : (toPoly t).degree < (X ^ t.length : (ZMod 2)[X]).degree := by
    rw [degree_X_pow]
    exact degree_toPoly_lt t
  rw [toPoly_cons, hone, one_mul, degree_add_eq_left_of_degree_lt hlt, degree_X_pow]
  simp

/-- Only the string of zeros has polynomial 0. -/
theorem toPoly_eq_zero_iff {s : BitString} : toPoly s = 0 ↔ s = List.replicate s.length false := by
  induction s with
  | nil => simp [toPoly]
  | cons b s ih =>
    cases b with
    | false => simp [toPoly_false_cons, ih, List.replicate_succ]
    | true =>
      refine iff_of_false (fun h => ?_) (by simp [List.replicate_succ])
      have hdegree := degree_toPoly_of_lead (s := true :: s) rfl
      rw [h, degree_zero] at hdegree
      cases hdegree

/-- XOR is addition. -/
theorem toPoly_zipWith_xor {a b : BitString} (hlen : a.length = b.length) :
    toPoly (List.zipWith (fun x y => x ^^ y) a b) = toPoly a + toPoly b := by
  induction a generalizing b with
  | nil => simp [List.eq_nil_of_length_eq_zero hlen.symm, toPoly]
  | cons x a ih =>
    cases b with
    | nil => cases hlen
    | cons y b =>
      replace hlen : a.length = b.length := Nat.succ.inj hlen
      have hbit : (C (if (x ^^ y) then 1 else 0) : (ZMod 2)[X]) =
          C (if x then 1 else 0) + C (if y then 1 else 0) := by
        cases x <;> cases y <;> simp [CharTwo.add_self_eq_zero]
      have hzip : (List.zipWith (fun x y => x ^^ y) a b).length = b.length := by simp [hlen]
      rw [List.zipWith_cons_cons, toPoly_cons, toPoly_cons, toPoly_cons, hzip, ih hlen, hbit, hlen]
      ring

/-! ### `Mod2Div` divides polynomials (R88, R90) -/

section Division

variable {g w : BitString} (hw : w.length = g.length) (hlead : g.head? = some true)

theorem length_pos_of_lead {g : BitString} (hlead : g.head? = some true) : 1 ≤ g.length := by
  obtain ⟨_, rfl⟩ := List.head?_eq_some_iff.mp hlead
  exact Nat.succ_pos _

theorem toPoly_stepPattern (g w : BitString) :
    toPoly (stepPattern g w) = C (if leadingBit w then 1 else 0) * toPoly g := by
  cases h : leadingBit w with
  | true => simp [stepPattern, h]
  | false =>
    have hzeros : toPoly (zeros g.length) = 0 := toPoly_eq_zero_iff.mpr (by simp [zeros])
    simp [stepPattern, h, hzeros]

include hw hlead

/-- One step takes a multiple of the divisor off the window. -/
theorem toPoly_window :
    toPoly w = C (if leadingBit w then 1 else 0) * toPoly g + toPoly (stepXor g w).tail := by
  obtain ⟨x, hx⟩ := List.head?_eq_some_iff.mp (head?_stepXor hw hlead)
  have hxor : toPoly (stepXor g w) = toPoly w + toPoly (stepPattern g w) :=
    toPoly_zipWith_xor (hw.trans (length_stepPattern g w).symm)
  have htail : toPoly (stepXor g w).tail = toPoly (stepXor g w) := by
    rw [hx, List.tail_cons, toPoly_false_cons]
  rw [htail, hxor, toPoly_stepPattern, add_comm, add_assoc, CharTwo.add_self_eq_zero, add_zero]

/-- From any window on, quotient and remainder make up the window and the bits after it. -/
theorem toPoly_divisionFrom (i : Nat) (rest : BitString) :
    toPoly (w ++ rest) =
      toPoly (divisionFrom g i w rest).quot * toPoly g + toPoly (divisionFrom g i w rest).rem := by
  have hpos := length_pos_of_lead hlead
  induction rest generalizing w i with
  | nil =>
    rw [List.append_nil, toPoly_window hw hlead]
    congr 2
    exact (toPoly_singleton _).symm
  | cons b rest ih =>
    have hnext := ih (w := nextWindow g w b) (length_nextWindow hw hpos b) (i + 1)
    have hquot : (divisionFrom g (i + 1) (nextWindow g w b) rest).quot.length = (b :: rest).length := by
      simp [divisionFrom]
    have hwindow : toPoly (nextWindow g w b ++ rest) =
        toPoly (stepXor g w).tail * X ^ (b :: rest).length + toPoly (b :: rest) := by
      rw [nextWindow, List.append_assoc, List.singleton_append, toPoly_append]
    rw [divisionFrom_cons, toPoly_cons, hquot, toPoly_append, toPoly_window hw hlead, add_mul, add_assoc, ← hwindow,
      hnext]
    ring

end Division

section LongDivision

variable {d g : BitString} (hlead : g.head? = some true) (hle : g.length ≤ d.length)

include hlead hle

theorem toPoly_longDivision :
    toPoly d = toPoly (longDivision d g).quot * toPoly g + toPoly (longDivision d g).rem := by
  have hdivision := toPoly_divisionFrom (List.length_take_of_le hle) hlead 0 (d.drop g.length)
  rwa [List.take_append_drop] at hdivision

/-- The remainder is of degree below that of the divisor. -/
theorem degree_rem_lt : (toPoly (longDivision d g).rem).degree < (toPoly g).degree := by
  have hpos := length_pos_of_lead hlead
  rw [degree_toPoly_of_lead hlead, ← length_rem_longDivision hpos hle]
  exact degree_toPoly_lt _

/-- The remainder vanishes exactly on the multiples of the divisor. -/
theorem rem_eq_zeros_iff_dvd :
    (longDivision d g).rem = List.replicate (g.length - 1) false ↔ toPoly g ∣ toPoly d := by
  have hpos := length_pos_of_lead hlead
  rw [← length_rem_longDivision hpos hle, ← toPoly_eq_zero_iff, toPoly_longDivision hlead hle,
    dvd_add_right (dvd_mul_left _ _)]
  refine ⟨fun h => h ▸ dvd_zero _, fun h => eq_zero_of_dvd_of_degree_lt h (degree_rem_lt hlead hle)⟩

end LongDivision

/-- Settles O25: each step takes the divisor's multiple off its window, and the rest is of smaller degree. -/
theorem mod2DivIsPolynomialDivision : Obligations.Mod2DivIsPolynomialDivision := by
  intro d g hlen hlead hle
  exact ⟨longDivision d g, mod2Div_eq_longDivision (Nat.le_of_succ_le hlen) hle, toPoly_longDivision hlead hle,
    degree_rem_lt hlead hle, rem_eq_zeros_iff_dvd hlead hle⟩

/-! ### The CRC round trip (R91, R94, R95) -/

/-- Data followed by the remainder of the augmented data are a multiple of the divisor. -/
theorem dvd_toPoly_codeword {d g : BitString} (hlead : g.head? = some true)
    (hle : g.length ≤ (d ++ zeros (g.length - 1)).length) :
    toPoly g ∣ toPoly (d ++ (longDivision (d ++ zeros (g.length - 1)) g).rem) := by
  have hpos := length_pos_of_lead hlead
  have hdivision := toPoly_longDivision hlead hle
  have hzeros : toPoly (zeros (g.length - 1)) = 0 := toPoly_eq_zero_iff.mpr (by simp [zeros])
  have hlength : (zeros (g.length - 1)).length = g.length - 1 := List.length_replicate
  rw [toPoly_append, hzeros, add_zero, hlength] at hdivision
  rw [toPoly_append, length_rem_longDivision hpos hle, hdivision, add_assoc, CharTwo.add_self_eq_zero, add_zero]
  exact dvd_mul_left _ _

/-- Flipping the last bit adds 1. -/
theorem toPoly_flip_last {c : BitString} (hc : c ≠ []) :
    toPoly (c.dropLast ++ [!(c.getLastD false)]) = toPoly c + 1 := by
  have hlast : c.getLastD false = c.getLast hc := by
    rw [List.getLastD_eq_getLast?, List.getLast?_eq_getLast_of_ne_nil hc, Option.getD_some]
  have hbit : (C (if (!c.getLast hc) then 1 else 0) : (ZMod 2)[X]) = C (if c.getLast hc then 1 else 0) + 1 := by
    have htwo : (1 : (ZMod 2)[X]) + 1 = 0 := CharTwo.add_self_eq_zero 1
    cases c.getLast hc <;> simp [htwo]
  conv_rhs => rw [← List.dropLast_append_getLast hc]
  rw [hlast, toPoly_append, toPoly_append, toPoly_singleton, toPoly_singleton, hbit, List.length_singleton,
    List.length_singleton, add_assoc]

/-- A divisor of 2 or more bits does not divide 1. -/
theorem not_dvd_one {g : BitString} (hlen : 2 ≤ g.length) (hlead : g.head? = some true) : ¬ toPoly g ∣ 1 := by
  intro hdvd
  have hzero := eq_zero_of_dvd_of_degree_lt hdvd (by
    rw [degree_one, degree_toPoly_of_lead hlead]
    exact_mod_cast (by omega : 0 < g.length - 1))
  exact one_ne_zero hzero

/-- What `CRC.ENC` left is a multiple of its divisor, no shorter than it. -/
theorem codeword_of_crcEnc {s u : State} {d g c : BitString} (hd : HoldsOperand s s.opd[0] d)
    (hg : HoldsOperand s s.aux g) (hlen : 2 ≤ g.length) (hlead : g.head? = some true)
    (hexec : exec .crcEnc s = .next u) (hc : HoldsResult u 0x3000 u.rlenA c) :
    g.length ≤ c.length ∧ toPoly g ∣ toPoly c := by
  have hlegal := legalLength_of_holdsOperand hd
  have hgpos := length_pos_of_lead hlead
  have hlength := length_augmented d g.length
  have hle : g.length ≤ (d ++ zeros (g.length - 1)).length := by
    have := hlegal.1
    omega
  obtain ⟨t, hnext, hcommitted⟩ := finishCrc_commits hd hg hlen hlead (encodeCrc_eq_ok hgpos hle)
  obtain rfl := Host.Outcome.next.inj (hexec.symm.trans ((exec_crcEnc s).trans hnext))
  obtain rfl := eq_of_holdsResult_a hcommitted (crcEnc_fits hlegal (legalLength_of_holdsOperand hg)).a hc
  refine ⟨?_, dvd_toPoly_codeword hlead hle⟩
  rw [crcEncResult, List.length_append, length_rem_longDivision hgpos hle]
  omega

/-- `CRC.VER` accepts exactly the multiples of its divisor. -/
theorem exec_crcVer_valid_iff {v : State} {e g : BitString} (he : HoldsOperand v v.opd[0] e)
    (hg : HoldsOperand v v.aux g) (hlen : 2 ≤ g.length) (hlead : g.head? = some true) (hle : g.length ≤ e.length) :
    ∃ t, exec .crcVer v = .next t ∧ (t.rflags.valid = true ↔ toPoly g ∣ toPoly e) := by
  obtain ⟨t, hnext, hcommitted⟩ :=
    finishCrc_commits he hg hlen hlead (verifyCrc_eq_ok (length_pos_of_lead hlead) hle)
  refine ⟨t, (exec_crcVer v).trans hnext, ?_⟩
  rw [hcommitted.valid, ← rem_eq_zeros_iff_dvd hlead hle]
  exact decide_eq_true_iff

/-- Settles O30: the codeword is a multiple of the divisor, so a received word is one exactly when its difference from
the codeword is; no difference is one, and a difference of 1 is not. -/
theorem crcRoundTripAndBlindSpot : Obligations.CrcRoundTripAndBlindSpot := by
  intro s u v d g c e hd hg hlen hlead hexec hc helen he hg'
  obtain ⟨hle, hdvd⟩ := codeword_of_crcEnc hd hg hlen hlead hexec hc
  obtain ⟨t, hnext, hvalid⟩ := exec_crcVer_valid_iff he hg' hlen hlead (hle.trans_eq helen.symm)
  refine ⟨t, hnext, ?_, ?_, ?_⟩
  · rw [hvalid, toPoly_zipWith_xor helen.symm, dvd_add_right hdvd]
  · rintro rfl
    exact hvalid.mpr hdvd
  · rintro rfl
    have hne : c ≠ [] := List.ne_nil_of_length_pos (by omega)
    rw [← Bool.not_eq_true, hvalid, toPoly_flip_last hne, dvd_add_right hdvd]
    exact not_dvd_one hlen hlead

end Sys2Proof.Proofs

namespace Sys2Proof.Proofs

open Sys2Proof.Machine Sys2Proof.Claims

/-! ### Flipped bits and parity (40_bitstring.md R75) -/

/-- The differences of two strings of one length have the parity of both counts of ones together. -/
theorem differences_mod_two {a b : BitString} (hlen : a.length = b.length) :
    differences a b % 2 = (a.count true + b.count true) % 2 := by
  induction a generalizing b with
  | nil => rw [List.eq_nil_of_length_eq_zero hlen.symm]; rfl
  | cons x a ih =>
    cases b with
    | nil => cases hlen
    | cons y b =>
      have hrest := ih (Nat.succ.inj hlen)
      have hbit : (x ^^ y).toNat % 2 = (x.toNat + y.toNat) % 2 := by cases x <;> cases y <;> rfl
      simp only [differences, ← onesCount_eq_count] at hrest ⊢
      rw [List.zipWith_cons_cons, onesCount, onesCount, onesCount]
      omega

/-- They are even exactly when the counts have one parity. -/
theorem differences_even_iff {a b : BitString} (hlen : a.length = b.length) :
    differences a b % 2 = 0 ↔ a.count true % 2 = b.count true % 2 := by
  rw [differences_mod_two hlen]
  omega

/-! ### The VRC round trip (41_vrc.md R79, R80) -/

/-- `VRC.VER` accepts exactly the policy's parity. -/
theorem exec_vrcVer_valid_iff {s : State} {c : BitString} (even : Bool) (hc : HoldsOperand s s.opd[0] c) :
    ∃ t, exec (.vrcVer even) s = .next t ∧ (t.rflags.valid = true ↔ c.count true % 2 = policyParity even) := by
  obtain ⟨t, hnext, hcommitted⟩ := (vrcVerChecksTheWholeUnit even s).2.1 c hc
  refine ⟨t, hnext, ?_⟩
  rw [hcommitted.valid]
  exact decide_eq_true_iff

/-- Settles O28: the appended bit gives the policy's parity, and a verdict depends on the parity alone. -/
theorem vrcRoundTripAndBlindSpot : Obligations.VrcRoundTripAndBlindSpot := by
  refine ⟨fun even s u v d c hd hexec hc hv => ?_, fun even s u c e hc he hlen => ?_⟩
  · obtain ⟨p, t, hnext, hparity, hcommitted⟩ := (vrcEncAppendsTheParityBit even s).2.1 d hd
    obtain rfl := Host.Outcome.next.inj (hexec.symm.trans hnext)
    have hfits : (d ++ [p]).length ≤ 1024 := by
      have := (legalLength_of_holdsOperand hd).2
      rw [List.length_append, List.length_singleton]
      omega
    obtain rfl := eq_of_holdsResult_a hcommitted hfits hc
    obtain ⟨t, hnext, hvalid⟩ := exec_vrcVer_valid_iff even hv
    exact ⟨t, hnext, hvalid.mpr hparity⟩
  · obtain ⟨t, hnext, hvalid⟩ := exec_vrcVer_valid_iff even hc
    obtain ⟨v, hnext', hvalid'⟩ := exec_vrcVer_valid_iff even he
    have hpolicy : policyParity even < 2 := by cases even <;> decide
    refine ⟨t, v, hnext, hnext', ?_⟩
    rw [Bool.eq_iff_iff, hvalid, hvalid', differences_even_iff hlen]
    omega

/-! ### The LRC round trip (42_lrc.md R85, R86) -/

/-- A parity bit tells the parity of its string, whatever the policy. -/
theorem parityBit_eq_iff {a b : BitString} {even : Bool} :
    parityBit a even = parityBit b even ↔ a.count true % 2 = b.count true % 2 := by
  have hcount := count_add_parityBit a even
  have hcount' := count_add_parityBit b even
  constructor
  · intro h
    rw [h] at hcount
    omega
  · intro h
    have hnum : (parityBit a even).toNat = (parityBit b even).toNat := by
      have := (parityBit a even).toNat_le
      have := (parityBit b even).toNat_le
      omega
    rw [Bool.eq_iff_iff, ← Bool.toNat_eq_one, ← Bool.toNat_eq_one, hnum]

/-- Blocks of one shape have one LRC exactly when every column holds an even number of differences. -/
theorem lrcOf_eq_iff {bs cs : List BitString} {len : Nat} {even : Bool} (hpos : 1 ≤ bs.length)
    (hcount : cs.length = bs.length) (hbs : ∀ b ∈ bs, b.length = len) (hcs : ∀ b ∈ cs, b.length = len) :
    lrcOf bs even = lrcOf cs even ↔
      ∀ j < len, differences (columnBits bs j) (columnBits cs j) % 2 = 0 := by
  have hlen := length_lrcOf even hpos hbs
  have hlen' := length_lrcOf even (hpos.trans_eq hcount.symm) hcs
  have hcolumn : ∀ j, (columnBits bs j).length = (columnBits cs j).length := fun j => by
    simp [columnBits, hcount]
  have hbit : ∀ j < len, ((lrcOf bs even).getD j false = (lrcOf cs even).getD j false ↔
      differences (columnBits bs j) (columnBits cs j) % 2 = 0) := fun j hj => by
    rw [getD_lrcOf (hj.trans_eq hlen.symm), getD_lrcOf (hj.trans_eq hlen'.symm), parityBit_eq_iff,
      differences_even_iff (hcolumn j)]
  refine ⟨fun h j hj => (hbit j hj).mp (by rw [h]), fun h => ?_⟩
  refine List.ext_getElem (hlen.trans hlen'.symm) fun j hj hj' => ?_
  have heven := (hbit j (hj.trans_eq hlen)).mpr (h j (hj.trans_eq hlen))
  rwa [List.getD_eq_getElem _ _ hj, List.getD_eq_getElem _ _ hj'] at heven

/-- Settles O29: the verdict is whether the two LRCs are equal, and each of their bits is a column's parity bit. -/
theorem lrcRoundTripAndBlindSpot : Obligations.LrcRoundTripAndBlindSpot := by
  intro even s u v bs cs rl len hpos hle hbs hlen hexec hrl hcount hcs hlen' haux
  have hlegal : ∀ b ∈ bs, LegalLength b := legalLength_of_readBlocks (readBlocks_of_holdsBlocks hle hbs)
  obtain ⟨t, hnext, hcommitted⟩ :=
    finishLrc_commits (fun bs _ => lrcEncResult even bs) hpos hle hbs (r := ()) rfl hlen
  obtain rfl := Host.Outcome.next.inj (hexec.symm.trans ((exec_lrcEnc even _ s).trans hnext))
  obtain rfl := eq_of_holdsResult_a hcommitted ((length_lrcOf_le even hlegal).trans (by decide)) hrl
  obtain ⟨t, hnext', hcommitted'⟩ := finishLrc_commits (lrcVerResult even) (hpos.trans_eq hcount.symm)
    (hcount.trans_le hle) hcs (readOperand_eq_ok_iff.mpr haux) hlen'
  refine ⟨t, hcount ▸ (exec_lrcVer even _ v).trans hnext', ?_⟩
  rw [hcommitted'.valid, ← lrcOf_eq_iff hpos hcount hlen hlen']
  exact decide_eq_true_iff

/-! ### The checksum round trip (44_checksum.md R106, R107) -/

theorem length_complement (s : BitString) : (complement s).length = s.length := List.length_map ..

/-- A string and its complement make up all ones. -/
theorem bitsVal_add_complement (s : BitString) : bitsVal s + bitsVal (complement s) = maskOf s.length := by
  induction s with
  | nil => rfl
  | cons b s ih =>
    have hpos := Nat.two_pow_pos s.length
    have hcons : complement (b :: s) = (!b) :: complement s := rfl
    rw [maskOf_eq] at ih ⊢
    rw [hcons, bitsVal_cons, bitsVal_cons, length_complement, List.length_cons, pow_succ]
    cases b <;> simp only [Bool.not_false, Bool.not_true, Bool.toNat_false, Bool.toNat_true] <;> omega

theorem binOf_maskOf (k : Nat) : binOf k (maskOf k) = List.replicate k true := by
  refine List.eq_replicate_iff.mpr ⟨length_binOf k _, fun b hb => ?_⟩
  obtain ⟨i, hi, rfl⟩ := List.mem_map.mp hb
  rw [List.mem_range] at hi
  rw [maskOf_eq, Nat.testBit_two_pow_sub_one]
  exact decide_eq_true (by omega)

theorem maskOf_ne_zero {k : Nat} (hk : 1 ≤ k) : maskOf k ≠ 0 := by
  have hpow := Nat.pow_le_pow_right (n := 2) (by decide) hk
  rw [maskOf_eq]
  omega

/-- No block value is left out of the total, so it vanishes exactly when the sum does. -/
theorem blockSum_eq_zero_iff {d : BitString} {k : Nat} : blockSum d k = 0 ↔ (checksumOf d k).sum = 0 := by
  rw [checksumOf_eq, partialSum_eq_zero_iff, blockSum, List.sum_eq_zero_iff]
  simp

/-- The sum is all ones exactly when the total of the block values is a multiple of `2^k - 1` other than 0. -/
theorem sum_eq_maskOf_iff {d : BitString} {k : Nat} (hk : 1 ≤ k) :
    (checksumOf d k).sum = maskOf k ↔ blockSum d k ≠ 0 ∧ blockSum d k ≡ 0 [MOD maskOf k] := by
  have hle := sum_checksumOf_le d hk
  have hmod : (checksumOf d k).sum ≡ blockSum d k [MOD maskOf k] := checksumOf_sum_modEq d k
  have hmask := maskOf_ne_zero hk
  rw [ne_eq, blockSum_eq_zero_iff]
  constructor
  · intro h
    rw [h] at hmod ⊢
    exact ⟨hmask, hmod.symm.trans (by simp [Nat.ModEq])⟩
  · rintro ⟨hne, hzero⟩
    obtain ⟨q, hq⟩ := (Nat.modEq_zero_iff_dvd).mp (hmod.trans hzero)
    have hqone : q = 1 := by
      rcases Nat.lt_trichotomy q 1 with h | h | h
      · simp [Nat.lt_one_iff.mp h] at hq
        exact absurd hq hne
      · exact h
      · have := Nat.mul_le_mul_left (maskOf k) h
        omega
    rw [hq, hqone, Nat.mul_one]

/-- Data followed by one more block have that block's value more in total. -/
theorem blockSum_append {d c : BitString} {k : Nat} (hk : 1 ≤ k) (hdvd : d.length % k = 0) (hc : c.length = k) :
    blockSum (d ++ c) k = blockSum d k + bitsVal c := by
  have hsplit := Nat.mod_add_div d.length k
  have hlength : d.length / k * k = d.length := by rw [Nat.mul_comm]; omega
  have hcount : (d ++ c).length / k = d.length / k + 1 := by
    rw [List.length_append, hc, Nat.add_div_right _ hk]
  have hold : ∀ j ∈ List.range (d.length / k), bitsVal (dataBlock (d ++ c) k j) = bitsVal (dataBlock d k j) := by
    intro j hj
    have hend : (j + 1) * k ≤ d.length := hlength ▸ Nat.mul_le_mul_right k (List.mem_range.mp hj)
    rw [Nat.add_mul, Nat.one_mul] at hend
    rw [dataBlock, dataBlock, List.drop_append_of_le_length (by omega),
      List.take_append_of_le_length (by rw [List.length_drop]; omega)]
  have hnew : dataBlock (d ++ c) k (d.length / k) = c := by
    rw [dataBlock, hlength, List.drop_left, ← hc, List.take_length]
  rw [blockSum, hcount, List.range_succ, List.map_append, List.sum_append, List.map_singleton, List.sum_singleton,
    hnew, List.map_congr_left hold]
  rfl

/-- Data followed by the complement of their sum re-sum to all ones. -/
theorem sum_append_checksum {d : BitString} {k : Nat} (hk : 1 ≤ k) (hdvd : d.length % k = 0) :
    (checksumOf (d ++ complement (binOf k (checksumOf d k).sum)) k).sum = maskOf k := by
  have hle := sum_checksumOf_le d hk
  have hmask := maskOf_ne_zero hk
  have hvalue : bitsVal (binOf k (checksumOf d k).sum) = (checksumOf d k).sum := by
    rw [bitsVal_binOf, Nat.mod_eq_of_lt (le_maskOf_iff_lt.mp hle)]
  have hcomplement := bitsVal_add_complement (binOf k (checksumOf d k).sum)
  rw [hvalue, length_binOf] at hcomplement
  rw [sum_eq_maskOf_iff hk, blockSum_append hk hdvd (by rw [length_complement, length_binOf])]
  constructor
  · intro h
    obtain ⟨htotal, hsum⟩ := Nat.add_eq_zero_iff.mp h
    rw [blockSum_eq_zero_iff] at htotal
    omega
  · calc
      blockSum d k + bitsVal (complement (binOf k (checksumOf d k).sum)) ≡
          (checksumOf d k).sum + bitsVal (complement (binOf k (checksumOf d k).sum)) [MOD maskOf k] :=
        (checksumOf_sum_modEq d k).symm.add_right _
      _ = maskOf k := hcomplement
      _ ≡ 0 [MOD maskOf k] := by simp [Nat.ModEq]

/-- `CSUM.VER` accepts exactly the data whose sum is all ones, and commits the sum. -/
theorem exec_csumVer_commits {v : State} {e : BitString} {k : Nat} (he : HoldsOperand v v.opd[0] e)
    (hblksz : v.blksz.toNat = k) (hk : 1 ≤ k) (hdvd : e.length % k = 0) :
    ∃ t, exec .csumVer v = .next t ∧ Committed v t (csumVerResult e k) ∧
      (t.rflags.valid = true ↔ (checksumOf e k).sum = maskOf k) := by
  subst hblksz
  obtain ⟨t, hnext, hcommitted⟩ := finishCsum_commits csumVerResult he hk hdvd
  refine ⟨t, (exec_csumVer v).trans hnext, hcommitted, ?_⟩
  rw [hcommitted.valid, csumVerResult_eq e hk]
  exact decide_eq_true_iff

/-- What `CSUM.ENC` left in `OBUF_B` is the complement of the sum. -/
theorem checksum_of_csumEnc {s u : State} {d c : BitString} {k : Nat} (hd : HoldsOperand s s.opd[0] d)
    (hblksz : s.blksz.toNat = k) (hk : 1 ≤ k) (hdvd : d.length % k = 0) (hexec : exec .csumEnc s = .next u)
    (hc : HoldsResult u 0x3400 u.rlenB c) : c = complement (binOf k (checksumOf d k).sum) := by
  subst hblksz
  obtain ⟨t, hnext, hcommitted⟩ := finishCsum_commits csumEncResult hd hk hdvd
  obtain rfl := Host.Outcome.next.inj (hexec.symm.trans ((exec_csumEnc s).trans hnext))
  rw [hcommitted.rlenB] at hc
  exact (holdsResult_iff (csumEnc_fits (legalLength_of_holdsOperand hd) hdvd).b hcommitted.obufB).mp hc

/-- Settles O31: a verdict depends on the total of the block values alone, and the checksum brings it to a multiple of
`2^k - 1`. -/
theorem checksumRoundTripAndBlindSpot : Obligations.ChecksumRoundTripAndBlindSpot := by
  refine ⟨fun s u v d c hd hk hdvd hexec hc hv hblksz => ?_,
    fun s u d e hd he hlen hblksz hk hdvd htotal => ?_⟩
  · obtain rfl := checksum_of_csumEnc hd rfl hk hdvd hexec hc
    have hsum := sum_append_checksum hk hdvd
    have hdvd' : (d ++ complement (binOf s.blksz.toNat (checksumOf d s.blksz.toNat).sum)).length %
        s.blksz.toNat = 0 := by
      rw [List.length_append, length_complement, length_binOf, Nat.add_mod_right, hdvd]
    obtain ⟨t, hnext, hcommitted, hvalid⟩ := exec_csumVer_commits hv (congrArg BitVec.toNat hblksz) hk hdvd'
    refine ⟨t, hnext, hvalid.mpr hsum, ?_⟩
    rw [hcommitted.rlenA, holdsResult_iff (csumVer_fits (legalLength_of_holdsOperand hv) hdvd').a hcommitted.obufA,
      csumVerResult, hsum, binOf_maskOf]
  · obtain ⟨t, hnext, -, hvalid⟩ := exec_csumVer_commits hd rfl hk hdvd
    obtain ⟨v, hnext', -, hvalid'⟩ :=
      exec_csumVer_commits he (congrArg BitVec.toNat hblksz.symm) hk (hlen ▸ hdvd)
    refine ⟨t, v, hnext, hnext', ?_⟩
    rw [Bool.eq_iff_iff, hvalid, hvalid', sum_eq_maskOf_iff hk, sum_eq_maskOf_iff hk, htotal]

/-! ### The Hamming round trip (45_hamming.md R118, R119) -/

theorem xorAll_perm {s t : BitString} (h : s.Perm t) : xorAll s = xorAll t := by
  rw [xorAll_eq_decide, xorAll_eq_decide, h.count_eq]

/-- The XOR over a list of positions is that over the others and the one taken out. -/
theorem xorAll_map_eq {l : List Nat} {p : Nat} (f : Nat → Bool) (hl : l.Nodup) (hp : p ∈ l) :
    xorAll (l.map f) = (f p ^^ xorAll ((l.filter (fun q => q != p)).map f)) := by
  rw [xorAll_perm ((List.perm_cons_erase hp).map f), hl.erase_eq_filter]
  rfl

/-- In a codeword each parity bit equals the XOR of the bits it covers, so every check passes. -/
theorem checkFails_hamEncode {d : BitString} {k : Nat} (hk : 2 ^ k ≤ (hamEncode d).codeword.length) :
    checkFails (hamEncode d).codeword k = false := by
  have hmem : 2 ^ k ∈ covered k (hamEncode d).codeword.length :=
    mem_covered_iff.mpr ⟨⟨Nat.one_le_two_pow, hk⟩, Nat.testBit_two_pow_self⟩
  rw [checkFails, xorAll_map_eq _ (nodup_covered ..) hmem]
  rw [length_hamEncode] at hk ⊢
  rw [bitAt_hamEncode_two_pow (two_pow_le_hamLength_iff.mp hk)]
  exact Bool.xor_self _

/-- Flipping position `p` turns the checks that cover it. -/
theorem checkFails_flip {c : BitString} {p : Nat} (hpos : 1 ≤ p) (hle : p ≤ c.length) (k : Nat) :
    checkFails (setBitAt c p (!bitAt c p)) k = (p.testBit k ^^ checkFails c k) := by
  have hother : ∀ q ∈ covered k c.length, q ≠ p → bitAt (setBitAt c p (!bitAt c p)) q = bitAt c q :=
    fun q hq hne => bitAt_setBitAt_of_ne hpos (pos_of_mem_covered hq) (Ne.symm hne) _
  rw [checkFails, checkFails, length_setBitAt]
  cases hbit : p.testBit k with
  | true =>
    have hmem := mem_covered_iff.mpr ⟨⟨hpos, hle⟩, hbit⟩
    have hrest : ((covered k c.length).filter (fun q => q != p)).map (bitAt (setBitAt c p (!bitAt c p))) =
        ((covered k c.length).filter (fun q => q != p)).map (bitAt c) := by
      refine List.map_congr_left fun q hq => ?_
      obtain ⟨hcovered, hne⟩ := List.mem_filter.mp hq
      exact hother q hcovered (bne_iff_ne.mp hne)
    rw [xorAll_map_eq _ (nodup_covered ..) hmem, xorAll_map_eq (bitAt c) (nodup_covered ..) hmem, hrest,
      bitAt_setBitAt_same hpos hle, Bool.true_xor, Bool.not_xor]
  | false =>
    rw [Bool.false_xor, List.map_congr_left fun q hq => hother q hq ?_]
    rintro rfl
    cases hbit.symm.trans (mem_covered_iff.mp hq).2

/-- A codeword has syndrome 0. -/
theorem syndrome_hamEncode (d : BitString) : syndrome (hamEncode d).codeword = 0 := by
  refine Nat.eq_of_testBit_eq fun k => ?_
  rw [testBit_syndrome, Nat.zero_testBit]
  by_cases hk : 2 ^ k ≤ (hamEncode d).codeword.length
  · rw [checkFails_hamEncode hk, Bool.and_false]
  · rw [decide_eq_false hk, Bool.false_and]

/-- With one position flipped the syndrome is that position. -/
theorem syndrome_flip {d : BitString} {p : Nat} (hpos : 1 ≤ p) (hle : p ≤ (hamEncode d).codeword.length) :
    syndrome (setBitAt (hamEncode d).codeword p (!bitAt (hamEncode d).codeword p)) = p := by
  refine Nat.eq_of_testBit_eq fun k => ?_
  rw [testBit_syndrome, length_setBitAt, checkFails_flip hpos hle]
  by_cases hk : 2 ^ k ≤ (hamEncode d).codeword.length
  · rw [checkFails_hamEncode hk, Bool.xor_false, decide_eq_true hk, Bool.true_and]
  · rw [decide_eq_false hk, Bool.false_and, Nat.testBit_eq_false_of_lt (by omega)]

/-- Flipping a position again gives the word back. -/
theorem setBitAt_setBitAt_flip {c : BitString} {p : Nat} (hpos : 1 ≤ p) (hle : p ≤ c.length) :
    setBitAt (setBitAt c p (!bitAt c p)) p (!bitAt (setBitAt c p (!bitAt c p)) p) = c := by
  have hlt : p - 1 < c.length := by omega
  rw [bitAt_setBitAt_same hpos hle, Bool.not_not, setBitAt, setBitAt, List.set_set, bitAt,
    List.getD_eq_getElem c false hlt, List.set_getElem_self]

theorem hamVerResult_hamEncode (d : BitString) :
    hamVerResult (hamEncode d).codeword = { a := (hamEncode d).codeword, valid := true } := by
  rw [hamVerResult, syndrome_hamEncode]
  rfl

/-- A flipped codeword is corrected, and the position reported. -/
theorem hamVerResult_flip {d : BitString} {p : Nat} (hpos : 1 ≤ p) (hle : p ≤ (hamEncode d).codeword.length) :
    hamVerResult (setBitAt (hamEncode d).codeword p (!bitAt (hamEncode d).codeword p)) =
      { a := (hamEncode d).codeword, hamSyn := p, hamStat := 1 } := by
  have hne : p ≠ 0 := Nat.ne_of_gt hpos
  rw [hamVerResult, syndrome_flip hpos hle, hamCorrect, if_neg hne, length_setBitAt, if_pos hle,
    setBitAt_setBitAt_flip hpos hle, hamStatus, if_neg hne, if_pos hle, decide_eq_false hne]

/-- Settles O32: a codeword fails no check, and a flipped position turns exactly the checks of its binary digits. -/
theorem hammingCorrectsSingleErrors : Obligations.HammingCorrectsSingleErrors := by
  intro s u v d c hd hexec hc
  have hfits := (hamEnc_fits (legalLength_of_holdsOperand hd)).a
  obtain ⟨t, hnext, hcommitted⟩ := finish_readOpd_of_holds hd hamEncResult
  obtain rfl := Host.Outcome.next.inj (hexec.symm.trans ((exec_hamEnc s).trans hnext))
  obtain rfl : c = (hamEncode d).codeword := eq_of_holdsResult_a hcommitted hfits hc
  refine ⟨fun hv => ?_, fun p hpos hle hv => ?_⟩
  · obtain ⟨t, hnext, hcommitted⟩ := finish_readOpd_of_holds hv hamVerResult
    rw [hamVerResult_hamEncode] at hcommitted
    exact ⟨t, (exec_hamVer v).trans hnext, hcommitted.hamSyn, hcommitted.hamStat, hcommitted.valid⟩
  · obtain ⟨t, hnext, hcommitted⟩ := finish_readOpd_of_holds hv hamVerResult
    have hresult := hamVerResult_flip hpos hle
    rw [setBitAt, ← posBit_eq_bitAt] at hresult
    rw [hresult] at hcommitted
    refine ⟨t, (exec_hamVer v).trans hnext, hcommitted.hamSyn, hcommitted.hamStat, hcommitted.valid, ?_⟩
    rw [hcommitted.rlenA]
    exact (holdsResult_iff hfits hcommitted.obufA).mpr rfl

end Sys2Proof.Proofs
